-- ==== Sys2Proof/Word.lean ====
section
/-! DEFINITION. The word types of the HPD block (00_scope.md R6, R8). -/

namespace Sys2Proof

/-- A byte of BUF, a code of a Huffman table, a slot of ACC. -/
abbrev Byte := BitVec 8

/-- A 32-bit register, command word or ORAM word. -/
abbrev Word := BitVec 32

/-- A host byte address, an offset from HPD_BASE (20_memory.md R60, R75). -/
abbrev HostAddr := BitVec 18

end Sys2Proof
end

