-- ==== Sys2Proof/Syntax.lean ====
section
/-! DEFINITION. The command set HPD-CS1: one constructor per row of spec/opcode_table.json
(30_encoding.md R83), with the operands of the command word; every other operand is a register. -/

namespace Sys2Proof

/-- The Huffman bank a T-format word names (30_encoding.md R82): bank 0 is the PD table, bank 1 the
MAG table (10_state.md R44). -/
inductive Bank where
  | pd
  | mag
deriving DecidableEq, Repr

/-- The sign mode an M-format word names (30_encoding.md R82): m = 0 makes "11" a decode error, m = 1
makes it the terminator. -/
inductive SignMode where
  | strict
  | terminator
deriving DecidableEq, Repr

inductive Instr where
  | rdbits (n : BitVec 5)
  | rdhuf (t : Bank)
  | rdsign (m : SignMode)
  | ldu16b
  | lds16b
  | ldu24b
  | lds24b
  | ldu16l
  | stu16b
  | sts16b
  | stu24b
  | sts24b
  | swap16
  | crchdr
  | pdInit
  | pdStep
  | pdGap
  | magPkt
deriving DecidableEq, Repr

end Sys2Proof
end

