-- ==== Sys2Proof/WellFormed.lean ====
section
/-! DEFINITION. Which terms of Instr stand for a legal command word. -/

namespace Sys2Proof

/-- The legal bit counts of format B (30_encoding.md R82). -/
def bitCountLegal (n : BitVec 5) : Bool := decide (1 ≤ n.toNat) && decide (n.toNat ≤ 16)

/-- `legal(op, arg)` of 30_encoding.md R87, on the operands a term carries: only the bit count of
RDBITS has values that no legal word holds. -/
def Instr.wf : Instr → Bool
  | .rdbits n => bitCountLegal n
  | .rdhuf _ => true
  | .rdsign _ => true
  | .ldu16b => true
  | .lds16b => true
  | .ldu24b => true
  | .lds24b => true
  | .ldu16l => true
  | .stu16b => true
  | .sts16b => true
  | .stu24b => true
  | .sts24b => true
  | .swap16 => true
  | .crchdr => true
  | .pdInit => true
  | .pdStep => true
  | .pdGap => true
  | .magPkt => true

end Sys2Proof
end

