-- ==== Sys2Proof/Decode.lean ====
section
/-! DEFINITION. Decoding and encoding of command words (30_encoding.md R80 to R88). Every word is 32
bits (R81); `decode` is total and names why it rejects a word. -/

namespace Sys2Proof

/-- Why a command word is not legal (30_encoding.md R87). -/
inductive IllegalWord where
  /-- The opcode byte is not listed in R83. -/
  | unlistedOpcode
  /-- Format Z with a nonzero argument. -/
  | argumentNotZero
  /-- Format B, T or M with a nonzero bit above the operand field. -/
  | reservedArgumentBits
  /-- Format B with n = 0 or n > 16. -/
  | bitCountOutOfRange
deriving DecidableEq, Repr

/-- OP = w[31:24] (R81). -/
def opcodeField (w : Word) : Byte := w.extractLsb' 24 8

/-- ARG = w[23:0] (R81). -/
def argField (w : Word) : BitVec 24 := w.extractLsb' 0 24

/-- Format Z: ARG = 0. -/
def decodeZ (i : Instr) (arg : BitVec 24) : Except IllegalWord Instr :=
  if arg = 0#24 then .ok i else .error .argumentNotZero

/-- Format B: ARG[23:5] = 0 and n = ARG[4:0] in 1..16. -/
def decodeB (arg : BitVec 24) : Except IllegalWord Instr :=
  if arg.extractLsb' 5 19 = 0#19 then
    if bitCountLegal (arg.extractLsb' 0 5) then .ok (.rdbits (arg.extractLsb' 0 5))
    else .error .bitCountOutOfRange
  else .error .reservedArgumentBits

/-- Formats T and M: ARG[23:1] = 0, the operand is ARG[0]. -/
def decodeBit (zero one : Instr) (arg : BitVec 24) : Except IllegalWord Instr :=
  if arg.extractLsb' 1 23 = 0#23 then .ok (if arg.getLsbD 0 then one else zero)
  else .error .reservedArgumentBits

/-- The opcode map R83 with the format of each row (R81, R86). -/
def decode (w : Word) : Except IllegalWord Instr :=
  match opcodeField w with
  | 0x01#8 => decodeB (argField w)
  | 0x02#8 => decodeBit (.rdhuf .pd) (.rdhuf .mag) (argField w)
  | 0x03#8 => decodeBit (.rdsign .strict) (.rdsign .terminator) (argField w)
  | 0x10#8 => decodeZ .ldu16b (argField w)
  | 0x11#8 => decodeZ .lds16b (argField w)
  | 0x12#8 => decodeZ .ldu24b (argField w)
  | 0x13#8 => decodeZ .lds24b (argField w)
  | 0x14#8 => decodeZ .ldu16l (argField w)
  | 0x18#8 => decodeZ .stu16b (argField w)
  | 0x19#8 => decodeZ .sts16b (argField w)
  | 0x1A#8 => decodeZ .stu24b (argField w)
  | 0x1B#8 => decodeZ .sts24b (argField w)
  | 0x20#8 => decodeZ .swap16 (argField w)
  | 0x28#8 => decodeZ .crchdr (argField w)
  | 0x30#8 => decodeZ .pdInit (argField w)
  | 0x31#8 => decodeZ .pdStep (argField w)
  | 0x32#8 => decodeZ .pdGap (argField w)
  | 0x38#8 => decodeZ .magPkt (argField w)
  | _ => .error .unlistedOpcode

/-- The opcode byte of each command (R83); ERRINFO.OP records it (10_state.md R36). -/
def Instr.opcode : Instr → Byte
  | .rdbits _ => 0x01#8
  | .rdhuf _ => 0x02#8
  | .rdsign _ => 0x03#8
  | .ldu16b => 0x10#8
  | .lds16b => 0x11#8
  | .ldu24b => 0x12#8
  | .lds24b => 0x13#8
  | .ldu16l => 0x14#8
  | .stu16b => 0x18#8
  | .sts16b => 0x19#8
  | .stu24b => 0x1A#8
  | .sts24b => 0x1B#8
  | .swap16 => 0x20#8
  | .crchdr => 0x28#8
  | .pdInit => 0x30#8
  | .pdStep => 0x31#8
  | .pdGap => 0x32#8
  | .magPkt => 0x38#8

/-- The argument of each command by its format (R81, R82). -/
def Instr.arg : Instr → BitVec 24
  | .rdbits n => n.setWidth 24
  | .rdhuf .pd => 0#24
  | .rdhuf .mag => 1#24
  | .rdsign .strict => 0#24
  | .rdsign .terminator => 1#24
  | .ldu16b => 0#24
  | .lds16b => 0#24
  | .ldu24b => 0#24
  | .lds24b => 0#24
  | .ldu16l => 0#24
  | .stu16b => 0#24
  | .sts16b => 0#24
  | .stu24b => 0#24
  | .sts24b => 0#24
  | .swap16 => 0#24
  | .crchdr => 0#24
  | .pdInit => 0#24
  | .pdStep => 0#24
  | .pdGap => 0#24
  | .magPkt => 0#24

/-- The command word of a command: OP || ARG (R81). -/
def encode (i : Instr) : Word := i.opcode ++ i.arg

/-- The instruction whose table bits are `w`: a command is one 32-bit word, so the bits above `nbits`
are 0 and the word is decoded as it stands. -/
def decodeTableWord (nbits w : Nat) : Option Instr :=
  (decode (BitVec.ofNat 32 (w % 2 ^ nbits))).toOption

end Sys2Proof
end

