-- ==== Sys2Proof/Config.lean ====
section
/-! DEFINITION. The parameters of the block: those 00_scope.md R6 fixes, as numerals, and the two it
leaves OPEN, as constants without a body (93_implementation_defined.md I1, I2). -/

namespace Sys2Proof.Config

/-- ID_VALUE (10_state.md R23). -/
def idValue : Word := 0x48504401#32

/-- BUF_BYTES: the size of the payload buffer in bytes. -/
def bufBytes : Nat := 32768

/-- ORAM_WORDS: the size of the output memory in 32-bit words. -/
def oramWords : Nat := 32768

/-- ACC_SLOTS: the number of measured-value slots. -/
def accSlots : Nat := 256

/-- HUF_MAXLEN: the longest Huffman prefix in bits. -/
def hufMaxLen : Nat := 12

/-- RAW_NIB_W: the width of a raw MAG nibble. -/
def rawNibWidth : Nat := 4

/-- Bins per sector. -/
def binsPerSector : Nat := 16

/-- CHAIN_CAP: continuations per chain. -/
def chainCap : BitVec 4 := 9#4

/-- MARKER_BASE: the header marker of lossy table index 0. -/
def markerBase : Nat := 0xAA

/-- LTIDX_MAX: the largest legal lossy table index. -/
def ltidxMax : Nat := 0x55

/-- CRCCFG_RST: the reset value of CRCCFG. OPEN (93_implementation_defined.md I1: a 26-bit value, bits
[31:26] of the register being 0), so a constant without a body. See log 3. -/
opaque crccfgRst : BitVec 26

/-- HPD_BASE: the block's base address in the host system. OPEN (93_implementation_defined.md I2). See
log 6. -/
opaque hpdBase : Nat

/-- Where a host address of this model lies in the host system (20_memory.md R75: every host address of
the spec is an offset from HPD_BASE). -/
def platformAddr (a : HostAddr) : Nat := hpdBase + a.toNat

end Sys2Proof.Config
end

