-- ==== Sys2Proof/Machine/State.lean ====
section
/-! DEFINITION. The state of the HPD block (10_state.md), plain data, and its value after reset
(10_state.md R53). A register with fields is held as its fields: the spec's reserved bits read 0 and
ignore writes (R43), so the register's word is a view of the fields (log 10). -/

namespace Sys2Proof.Machine

/-- CTRL (10_state.md R24). -/
structure Ctrl where
  sect : BitVec 5
  inner : Bool
  taghi : Bool
  subtag : BitVec 4
  mshift : Bool
  ltidx : Byte
deriving DecidableEq, Repr

/-- STATUS (10_state.md R26). -/
structure Status where
  derr : Bool
  fatal : Bool
  lastOk : Bool
  crcOk : Bool
  lenOdd : Bool
  pvalid : Bool
  hdr : Bool
  term : Bool
deriving DecidableEq, Repr

/-- CRCCFG (10_state.md R32). -/
structure CrcCfg where
  poly : Byte
  init : Byte
  xorout : Byte
  refin : Bool
  refout : Bool
deriving DecidableEq, Repr

/-- PDSTATE (10_state.md R33): `inChain = false` is the state SeekingHeader. -/
structure PdState where
  inChain : Bool
  ccount : BitVec 4
deriving DecidableEq, Repr

/-- ERRINFO (10_state.md R36). -/
structure ErrInfo where
  code : Byte
  op : Byte
deriving DecidableEq, Repr

/-- One entry of a Huffman bank (10_state.md R44). -/
structure HuffEntry where
  valid : Bool
  len : BitVec 4
  pat : BitVec 12
  code : Byte
deriving DecidableEq, Repr

/-- A Huffman bank: HT_ENTRIES = 256 entries (10_state.md R44). -/
abbrev HuffBank := Vector HuffEntry 256

/-- A memory without a reset value (BUF by byte address, ACC by slot, ORAM by byte, four to a word):
its written cells, addresses strictly rising. -/
abbrev Memory := List Host.Cell

/-- What an address that is not listed reads as: no value (10_state.md R54: a cell holds no value until
written). See log 4. -/
def Memory.unlisted (_a : Nat) : Option Byte := none

/-- The canonical form: addresses strictly rising, and no entry equal to what an unlisted address reads
as. -/
abbrev Memory.wf (m : Memory) : Prop :=
  m.Pairwise (fun c d => c.1 < d.1) ∧ ∀ c ∈ m, some c.2 ≠ Memory.unlisted c.1

/-- The size of a host access (20_memory.md R62: n = 1, 2 or 4). -/
inductive AccessSize where
  | b1
  | b2
  | b4
deriving DecidableEq, Repr

/-- The data of a host access: as many bits as the access has (20_memory.md R62; log 17). -/
inductive BusData where
  | b1 (v : BitVec 8)
  | b2 (v : BitVec 16)
  | b4 (v : BitVec 32)
deriving DecidableEq, Repr

/-- What can reach the block from outside: a host read, a host write, the reset input
(20_memory.md R60, 70_reset_and_hazards.md R230). -/
inductive BusEvent where
  | read (a : HostAddr) (n : AccessSize)
  | write (a : HostAddr) (d : BusData)
  | reset
deriving DecidableEq, Repr

/-- The memories whose cells have no reset value (10_state.md R46 to R48). -/
inductive Space where
  | buf
  | acc
  | oram
deriving DecidableEq, Repr

/-- Why a step stops the model with a fault. -/
inductive Fault where
  /-- Raised by a host access to an unmapped address or reserved offset, of a wrong size or misaligned
  (20_memory.md R64; 93_implementation_defined.md I7). Safe: the hardware goes on with the block
  unchanged, the model stops. -/
  | busError (a : HostAddr)
  /-- Raised by a host read or a command that reads a cell of ACC, BUF or ORAM never written since
  reset (10_state.md R54; 93_implementation_defined.md I5); `i` is the cell's address in its memory.
  Safe: the hardware goes on with an unspecified value, the model stops. -/
  | unwritten (m : Space) (i : Nat)
deriving DecidableEq, Repr

/-- Why a step refuses an instruction. -/
inductive Refusal where
  /-- Raised by an arm of exec whose instruction has no meaning yet. Safe. No arm of this model answers
  it. -/
  | notModelled (mnemonic : String)
deriving DecidableEq, Repr

/-- The error codes of 60_exceptions.md R201, by name. -/
inductive ErrCode where
  | hufShort
  | hufLong
  | signBad
  | signShort
  | bitsShort
  | pdRange
  | pdHdrLen
  | pdHdrSubtype
  | magAccOvf
  | illegal
  | cfgSect
  | cfgLtidx
  | addr
  | oddLen
  | packRange
  | oramFull
deriving DecidableEq, Repr

/-- Why a command ends early: an error of the block, raised with the value ERRPTR takes
(00_scope.md R13), or a fault of the model. -/
inductive Stop where
  | raise (e : ErrCode) (ptr : Word)
  | fault (f : Fault)
deriving DecidableEq, Repr

structure State where
  ctrl : Ctrl
  status : Status
  opa : Word
  opb : Word
  bitptr : Word
  bitend : Word
  res : Word
  res2 : Word
  crccfg : CrcCfg
  pdstate : PdState
  pcount : Word
  derrcnt : Word
  errinfo : ErrInfo
  errptr : Word
  owptr : Word
  rowcnt : Word
  maccX : Word
  maccY : Word
  maccZ : Word
  pdMark : Word
  pdTag : Word
  pdVals : Word
  pdVlen : Word
  spin : BitVec 4
  ht0 : HuffBank
  ht1 : HuffBank
  acc : Memory
  buf : Memory
  oram : Memory
  /-- The MODEL's own field: what the host and the reset input will do, first first (log 1). -/
  hostQueue : List BusEvent
  /-- The MODEL's own field: the data the last bus event returned, if it was a read (log 2). -/
  readData : Option BusData
deriving DecidableEq, Repr

/-- An entry of an empty Huffman table: 0x00000000 (10_state.md R53). -/
def HuffEntry.empty : HuffEntry := { valid := false, len := 0#4, pat := 0#12, code := 0#8 }

/-- Every field at the value of 10_state.md R53; CRCCFG at the OPEN parameter (log 3). -/
def State.reset : State where
  ctrl := { sect := 16#5, inner := false, taghi := false, subtag := 0#4, mshift := false, ltidx := 0#8 }
  status :=
    { derr := false, fatal := false, lastOk := false, crcOk := false,
      lenOdd := false, pvalid := false, hdr := false, term := false }
  opa := 0#32
  opb := 0#32
  bitptr := 0#32
  bitend := 0#32
  res := 0#32
  res2 := 0#32
  crccfg :=
    { poly := Config.crccfgRst.extractLsb' 0 8
      init := Config.crccfgRst.extractLsb' 8 8
      xorout := Config.crccfgRst.extractLsb' 16 8
      refin := Config.crccfgRst.getLsbD 24
      refout := Config.crccfgRst.getLsbD 25 }
  pdstate := { inChain := false, ccount := 0#4 }
  pcount := 0#32
  derrcnt := 0#32
  errinfo := { code := 0#8, op := 0#8 }
  errptr := 0#32
  owptr := 0#32
  rowcnt := 0#32
  maccX := 0#32
  maccY := 0#32
  maccZ := 0#32
  pdMark := 0#32
  pdTag := 0#32
  pdVals := 0#32
  pdVlen := 0#32
  spin := 0#4
  ht0 := Vector.replicate 256 HuffEntry.empty
  ht1 := Vector.replicate 256 HuffEntry.empty
  acc := []
  buf := []
  oram := []
  hostQueue := []
  readData := none

end Sys2Proof.Machine
end

