-- ==== Sys2Proof/Machine/Flags.lean ====
section
/-! DEFINITION. The flags of STATUS (10_state.md R26, R49): every computation that sets, clears or
reads them. -/

namespace Sys2Proof.Machine

/-- STATUS as the host reads it (R26): bit 0 DERR up to bit 7 TERM, bits [31:8] 0. -/
def Status.toWord (f : Status) : Word :=
  BitVec.ofNat 32
    (f.derr.toNat + 2 * f.fatal.toNat + 4 * f.lastOk.toNat + 8 * f.crcOk.toNat
      + 16 * f.lenOdd.toNat + 32 * f.pvalid.toNat + 64 * f.hdr.toNat + 128 * f.term.toNat)

/-- A host write of `w` to STATUS (R27): write 1 to clear DERR and FATAL, all other bits ignored. -/
def Status.clear (w : Word) (f : Status) : Status :=
  { f with derr := f.derr && !w.getLsbD 0, fatal := f.fatal && !w.getLsbD 1 }

/-- LASTOK of a command that completed without error (30_encoding.md R80). -/
def Status.completed (f : Status) : Status := { f with lastOk := true }

/-- The flags of an error (60_exceptions.md R203, R204): LASTOK 0, and FATAL or DERR by its class. -/
def Status.failed (fatalClass : Bool) (f : Status) : Status :=
  { f with lastOk := false, fatal := f.fatal || fatalClass, derr := f.derr || !fatalClass }

/-- CRCOK and LENODD of a CRCHDR (42_crc.md R142). -/
def Status.crcResult (ok odd : Bool) (f : Status) : Status := { f with crcOk := ok, lenOdd := odd }

/-- PVALID and HDR of the PD commands (43_pd_integrator.md R152, R154, R161). -/
def Status.pdResult (pvalid hdr : Bool) (f : Status) : Status := { f with pvalid := pvalid, hdr := hdr }

/-- TERM of RDSIGN and MAG_PKT (40_bitstream.md R109, 44_mag_integrator.md R184). -/
def Status.setTerm (t : Bool) (f : Status) : Status := { f with term := t }

end Sys2Proof.Machine
end

