-- ==== Sys2Proof/Machine/Ops.lean ====
section
/-! DEFINITION. The named operations over memory and registers: cells and byte strings, byte orders,
error entry (60_exceptions.md R203, R204) and the end of a command. -/

namespace Sys2Proof.Machine

/-! ## Memory cells -/

/-- The cell at an address, `Memory.unlisted` where none is listed. -/
def Memory.read : Memory → Nat → Option Byte
  | [], a => Memory.unlisted a
  | (k, v) :: m, a =>
    if a = k then some v else if a < k then Memory.unlisted a else Memory.read m a

/-- Write a cell, keeping the canonical form; no byte equals what an unlisted address reads as, so
nothing is ever removed. -/
def Memory.write : Memory → Nat → Byte → Memory
  | [], a, v => [(a, v)]
  | (k, w) :: m, a, v =>
    if a < k then (a, v) :: (k, w) :: m
    else if a = k then (a, v) :: m
    else (k, w) :: Memory.write m a v

/-- `MemWrite` (00_scope.md R10): the bytes of the list to consecutive addresses, in list order. -/
def Memory.writeList : Memory → Nat → List Byte → Memory
  | m, _, [] => m
  | m, a, b :: bs => Memory.writeList (m.write a b) (a + 1) bs

/-- One cell that a command or the host needs: a cell never written is a fault (10_state.md R54). -/
def readCell (sp : Space) (m : Memory) (a : Nat) : Except Stop Byte :=
  match m.read a with
  | some v => .ok v
  | none => .error (.fault (.unwritten sp a))

/-- `MemRead` (00_scope.md R10): n consecutive cells from a. -/
def readCells (sp : Space) (m : Memory) (a : Nat) : Nat → Except Stop (List Byte)
  | 0 => .ok []
  | n + 1 =>
    match readCell sp m a with
    | .error e => .error e
    | .ok b =>
      match readCells sp m (a + 1) n with
      | .error e => .error e
      | .ok bs => .ok (b :: bs)

/-! ## Byte orders (00_scope.md R12, 20_memory.md R62) -/

/-- `be16` and `be24`: the first byte most significant. -/
def beNat (bs : List Byte) : Nat := bs.foldl (fun v b => v * 256 + b.toNat) 0

/-- `le16`, and the host lanes of 20_memory.md R62: the first byte least significant. -/
def leNat : List Byte → Nat
  | [] => 0
  | b :: bs => b.toNat + 256 * leNat bs

/-- The n low bytes of a number, least significant first (host lanes). -/
def leBytes (v : Nat) : Nat → List Byte
  | 0 => []
  | n + 1 => BitVec.ofNat 8 v :: leBytes (v / 256) n

/-- The n low bytes of a number, most significant first (the pack commands). -/
def beBytes (v n : Nat) : List Byte := (leBytes v n).reverse

/-- `sext_N` (00_scope.md R9): the low N bits read as two's complement. -/
def sext (n v : Nat) : Int := (BitVec.ofNat n v).toInt

/-- `u32` (00_scope.md R9) of an integer. -/
def u32 (v : Int) : Word := BitVec.ofInt 32 v

/-- `s32` (00_scope.md R9). -/
def s32 (w : Word) : Int := w.toInt

/-! ## Register words with fields -/

/-- CTRL as the host reads it (10_state.md R24). -/
def Ctrl.toWord (c : Ctrl) : Word :=
  BitVec.ofNat 32
    (c.sect.toNat + 2 ^ 5 * c.inner.toNat + 2 ^ 6 * c.taghi.toNat + 2 ^ 8 * c.subtag.toNat
      + 2 ^ 12 * c.mshift.toNat + 2 ^ 16 * c.ltidx.toNat)

/-- The fields a host write of `w` to CTRL stores; reserved bits are ignored (R24, R43). -/
def Ctrl.ofWord (w : Word) : Ctrl where
  sect := w.extractLsb' 0 5
  inner := w.getLsbD 5
  taghi := w.getLsbD 6
  subtag := w.extractLsb' 8 4
  mshift := w.getLsbD 12
  ltidx := w.extractLsb' 16 8

/-- Whether two CTRL values agree in SECT, INNER, TAGHI, SUBTAG and LTIDX (R25). -/
def Ctrl.sameStream (c d : Ctrl) : Bool :=
  c.sect == d.sect && c.inner == d.inner && c.taghi == d.taghi && c.subtag == d.subtag
    && c.ltidx == d.ltidx

/-- CRCCFG as the host reads it (R32). -/
def CrcCfg.toWord (c : CrcCfg) : Word :=
  BitVec.ofNat 32
    (c.poly.toNat + 2 ^ 8 * c.init.toNat + 2 ^ 16 * c.xorout.toNat + 2 ^ 24 * c.refin.toNat
      + 2 ^ 25 * c.refout.toNat)

/-- The fields a host write of `w` to CRCCFG stores (R32, R43). -/
def CrcCfg.ofWord (w : Word) : CrcCfg where
  poly := w.extractLsb' 0 8
  init := w.extractLsb' 8 8
  xorout := w.extractLsb' 16 8
  refin := w.getLsbD 24
  refout := w.getLsbD 25

/-- PDSTATE as the host reads it (R33). -/
def PdState.toWord (p : PdState) : Word := BitVec.ofNat 32 (p.inChain.toNat + 16 * p.ccount.toNat)

/-- ERRINFO as the host reads it (R36). -/
def ErrInfo.toWord (e : ErrInfo) : Word := BitVec.ofNat 32 (e.code.toNat + 256 * e.op.toNat)

/-- A Huffman entry as the host reads it (R44). -/
def HuffEntry.toWord (e : HuffEntry) : Word :=
  BitVec.ofNat 32
    (e.code.toNat + 2 ^ 12 * e.pat.toNat + 2 ^ 24 * e.len.toNat + 2 ^ 31 * e.valid.toNat)

/-- The entry a host write of `w` stores; reserved bits are ignored (R44). -/
def HuffEntry.ofWord (w : Word) : HuffEntry where
  valid := w.getLsbD 31
  len := w.extractLsb' 24 4
  pat := w.extractLsb' 12 12
  code := w.extractLsb' 0 8

/-- HT[t] (10_state.md R44). -/
def State.bank (s : State) : Bank → HuffBank
  | .pd => s.ht0
  | .mag => s.ht1

/-- A host write of entry i of bank t (10_state.md R44). -/
def State.setHuff (s : State) (t : Bank) (i : Fin 256) (e : HuffEntry) : State :=
  match t with
  | .pd => { s with ht0 := s.ht0.set i e }
  | .mag => { s with ht1 := s.ht1.set i e }

/-- `seek()` (43_pd_integrator.md R150): back to SeekingHeader. -/
def seek (s : State) : State := { s with pdstate := { inChain := false, ccount := 0#4 } }

/-! ## Error entry and return -/

/-- ERRINFO.CODE of each error (60_exceptions.md R201). -/
def ErrCode.code : ErrCode → Byte
  | .hufShort => 0x01#8
  | .hufLong => 0x02#8
  | .signBad => 0x03#8
  | .signShort => 0x04#8
  | .bitsShort => 0x05#8
  | .pdRange => 0x06#8
  | .pdHdrLen => 0x07#8
  | .pdHdrSubtype => 0x08#8
  | .magAccOvf => 0x09#8
  | .illegal => 0x10#8
  | .cfgSect => 0x11#8
  | .cfgLtidx => 0x12#8
  | .addr => 0x13#8
  | .oddLen => 0x14#8
  | .packRange => 0x15#8
  | .oramFull => 0x16#8

/-- Whether an error is of the fatal class (60_exceptions.md R201). -/
def ErrCode.fatal : ErrCode → Bool
  | .hufShort => false
  | .hufLong => false
  | .signBad => false
  | .signShort => false
  | .bitsShort => false
  | .pdRange => false
  | .pdHdrLen => false
  | .pdHdrSubtype => false
  | .magAccOvf => false
  | .illegal => true
  | .cfgSect => true
  | .cfgLtidx => true
  | .addr => true
  | .oddLen => true
  | .packRange => true
  | .oramFull => true

/-- Error entry, the block's one form of exception: R203 for the decode class (which counts in
DERRCNT), R204 for the fatal class (which does not). It writes over ERRINFO and ERRPTR whatever they
held (R208). -/
def recordError (op : Byte) (e : ErrCode) (ptr : Word) (s : State) : State :=
  { s with
    errinfo := { code := e.code, op := op }
    errptr := ptr
    status := s.status.failed e.fatal
    derrcnt := if e.fatal then s.derrcnt else s.derrcnt + 1#32 }

/-- Return from an error (60_exceptions.md R208): the host's write to STATUS clears FATAL and DERR, and
does nothing else (10_state.md R27). -/
def clearErrors (w : Word) (s : State) : State := { s with status := s.status.clear w }

/-! ## The end of a command -/

/-- What a command comes to: its state, or why it stopped and the state its own effects before the stop
left (00_scope.md R13, 60_exceptions.md R206). -/
abbrev CmdResult := Except (Stop × State) State

/-- A read that stops the command leaves the state `s`. -/
def orAt {α : Type} (s : State) (r : Except Stop α) : Except (Stop × State) α :=
  match r with
  | .ok a => .ok a
  | .error e => .error (e, s)

/-- The command without error sets LASTOK (30_encoding.md R80). -/
def complete (s : State) : State := { s with status := s.status.completed }

/-- The end of a command with opcode byte `op`: completion, error entry, or the model's fault. -/
def finish (op : Byte) (r : CmdResult) : Host.Outcome State Fault Refusal :=
  match r with
  | .ok s => .next (complete s)
  | .error (.raise e ptr, s) => .next (recordError op e ptr s)
  | .error (.fault f, _) => .fault f

/-- A command none of whose errors leaves an effect of its own (60_exceptions.md R206: the bitstream,
byte-order and CRC commands): on a stop the state is the one it started from. -/
def runAtomic (i : Instr) (s : State) (body : Except Stop State) :
    Host.Outcome State Fault Refusal :=
  finish i.opcode (orAt s body)

end Sys2Proof.Machine
end

