-- ==== Sys2Proof/Machine/Operands.lean ====
section
/-! DEFINITION. The operand forms of the commands: byte addresses and their range check
(20_memory.md R68), the bit view and the bitstream readers (00_scope.md R11, 40_bitstream.md R100 to
R108), the PD slot count (43_pd_integrator.md R150). -/

namespace Sys2Proof.Machine

/-! ## Command words and byte ranges -/

/-- A term that no legal word holds is the illegal word its encoding is (30_encoding.md R87;
40_bitstream.md R104 for n = 0 and n > 16). Decoding never gives one (log 14). -/
def checkLegal (i : Instr) : Except Stop Unit :=
  if i.wf then .ok () else .error (.raise .illegal (encode i))

/-- `inbuf(a, n)` (20_memory.md R68), the sum computed without wrap. -/
def inbuf (a : Word) (n : Nat) : Bool := decide (a.toNat + n ≤ Config.bufBytes)

/-- `check inbuf(a, n)` (00_scope.md R13). -/
def checkInbuf (a : Word) (n : Nat) : Except Stop Unit :=
  if inbuf a n then .ok () else .error (.raise .addr a)

/-- The n bytes at byte address a of BUF. -/
def bufBytes (s : State) (a n : Nat) : Except Stop (List Byte) := readCells .buf s.buf a n

/-- `check inbuf(a, n)` and then the n bytes at a (41_bytecodec.md R120). -/
def loadBytes (s : State) (a : Word) (n : Nat) : Except Stop (List Byte) := do
  checkInbuf a n
  bufBytes s a.toNat n

/-- A bit index or byte count as a register holds it. -/
def asWord (n : Nat) : Word := BitVec.ofNat 32 n

/-! ## The bitstream -/

/-- `bs_check()` (40_bitstream.md R101). -/
def bsCheck (s : State) : Except Stop Unit :=
  if 8 * Config.bufBytes < s.bitend.toNat then .error (.raise .addr s.bitend)
  else if s.bitend.toNat < s.bitptr.toNat then .error (.raise .addr s.bitptr)
  else .ok ()

/-- Whether fewer than n unread bits remain from p: `avail(p) < n` (40_bitstream.md R102). -/
def short (s : State) (p n : Nat) : Bool := decide (s.bitend.toNat < p + n)

/-- `bit(b)` (00_scope.md R11): MSB first per byte. -/
def bit (s : State) (b : Nat) : Except Stop Bool :=
  match readCell .buf s.buf (b / 8) with
  | .ok v => .ok (v.getLsbD (7 - b % 8))
  | .error e => .error e

/-- The n bits from p read on below the value v of the bits before them; from v = 0 it is `bits(p, n)`
(00_scope.md R11), the first bit most significant. -/
def bitsOnto (s : State) (v p : Nat) : Nat → Except Stop Nat
  | 0 => .ok v
  | n + 1 =>
    match bit s p with
    | .error e => .error e
    | .ok b => bitsOnto s (2 * v + b.toNat) (p + 1) n

/-- `bits(p, n)` (00_scope.md R11). -/
def bits (s : State) (p n : Nat) : Except Stop Nat := bitsOnto s 0 p n

/-- `raw(p, n)` (40_bitstream.md R103). -/
def raw (s : State) (p n : Nat) : Except Stop Nat :=
  if short s p n then .error (.raise .bitsShort (asWord p)) else bits s p n

/-- Whether an entry is a key of length L with value v (40_bitstream.md R105): PAT bits above LEN-1 are
ignored, and the caller's 1 ≤ L ≤ 12 keeps LEN = 0 and LEN > 12 from ever matching (10_state.md R44). -/
def HuffEntry.matchesKey (e : HuffEntry) (L v : Nat) : Bool :=
  e.valid && (e.len.toNat == L && e.pat.toNat % 2 ^ L == v)

/-- `hmatch(t, L, v)` (40_bitstream.md R105): the entry at the lowest matching index. -/
def hmatch (bank : HuffBank) (L v : Nat) : Option HuffEntry :=
  bank.toList.find? (fun e => e.matchesKey L v)

/-- The lengths of `huf` still to be tried (40_bitstream.md R106): `left` of them, the bits of the last
one tried having the value v. It answers the code and the number of bits consumed. -/
def hufFrom (s : State) (t : Bank) (p : Nat) : Nat → Nat → Except Stop (Byte × Nat)
  | 0, _ => .error (.raise .hufLong (asWord p))
  | left + 1, v =>
    let L := Config.hufMaxLen - left
    if short s p L then .error (.raise .hufShort (asWord p))
    else
      match bit s (p + (L - 1)) with
      | .error e => .error e
      | .ok b =>
        match hmatch (s.bank t) L (2 * v + b.toNat) with
        | some e => .ok (e.code, L)
        | none => hufFrom s t p left (2 * v + b.toNat)

/-- `huf(t, p)` (40_bitstream.md R106): the shortest matching prefix of 1 to 12 bits. -/
def huf (s : State) (t : Bank) (p : Nat) : Except Stop (Byte × Nat) :=
  hufFrom s t p Config.hufMaxLen 0

/-- A sign pair (40_bitstream.md R108). -/
inductive Sign where
  | plus
  | minus
  | term
deriving DecidableEq, Repr

/-- The integer a sign stands for; the terminator adds nothing. -/
def Sign.toInt : Sign → Int
  | .plus => 1
  | .minus => -1
  | .term => 0

/-- `sign2(p, m)` (40_bitstream.md R108). -/
def sign2 (s : State) (p : Nat) (m : SignMode) : Except Stop Sign :=
  if short s p 2 then .error (.raise .signShort (asWord p))
  else
    match bits s p 2 with
    | .error e => .error e
    | .ok v =>
      if v = 0 then .ok .plus
      else if v = 1 then .ok .minus
      else if v = 3 ∧ m = .terminator then .ok .term
      else .error (.raise .signBad (asWord p))

/-! ## The PD stream -/

/-- N = 16 × CTRL.SECT (43_pd_integrator.md R150). -/
def slotCount (s : State) : Nat := Config.binsPerSector * s.ctrl.sect.toNat

/-- The marker byte of a header: 0xAA + CTRL.LTIDX (43_pd_integrator.md R153). -/
def markerByte (s : State) : Nat := Config.markerBase + s.ctrl.ltidx.toNat

/-- The sub-type tag of an inner side byte (43_pd_integrator.md R155). -/
def tagNibble (taghi : Bool) (side : Byte) : BitVec 4 :=
  if taghi then side.extractLsb' 4 4 else side.extractLsb' 0 4

/-- The spin nibble of an inner side byte: the one that is not the tag (R155). -/
def spinNibble (taghi : Bool) (side : Byte) : BitVec 4 :=
  if taghi then side.extractLsb' 0 4 else side.extractLsb' 4 4

end Sys2Proof.Machine
end

