-- ==== Sys2Proof/Machine/Bitstream.lean ====
section
/-! DEFINITION. The bitstream family: RDBITS, RDHUF, RDSIGN (40_bitstream.md R104, R107, R109). -/

namespace Sys2Proof.Machine

/-- RDBITS n (40_bitstream.md R104). -/
def execRdbits (n : BitVec 5) (s : State) : Host.Outcome State Fault Refusal :=
  runAtomic (.rdbits n) s do
    checkLegal (.rdbits n)
    bsCheck s
    let v ← raw s s.bitptr.toNat n.toNat
    return { s with
      res := asWord v, res2 := asWord n.toNat, bitptr := asWord (s.bitptr.toNat + n.toNat) }

/-- RDHUF t (40_bitstream.md R107). -/
def execRdhuf (t : Bank) (s : State) : Host.Outcome State Fault Refusal :=
  runAtomic (.rdhuf t) s do
    bsCheck s
    let (c, L) ← huf s t s.bitptr.toNat
    return { s with
      res := c.setWidth 32, res2 := asWord L, bitptr := asWord (s.bitptr.toNat + L) }

/-- RDSIGN m (40_bitstream.md R109): the terminator is not consumed. -/
def execRdsign (m : SignMode) (s : State) : Host.Outcome State Fault Refusal :=
  runAtomic (.rdsign m) s do
    bsCheck s
    match ← sign2 s s.bitptr.toNat m with
    | .term => return { s with res := 0#32, res2 := 0#32, status := s.status.setTerm true }
    | sg => return { s with
        res := u32 sg.toInt, res2 := 2#32, bitptr := asWord (s.bitptr.toNat + 2),
        status := s.status.setTerm false }

end Sys2Proof.Machine
end

