-- ==== Sys2Proof/Machine/ByteCodec.lean ====
section
/-! DEFINITION. The byte-order mux family (41_bytecodec.md R121 to R130). -/

namespace Sys2Proof.Machine

/-- An unpacking command: check and read n bytes at OPA, RES takes their value (41_bytecodec.md
R120). -/
def unpack (i : Instr) (n : Nat) (value : List Byte → Word) (s : State) :
    Host.Outcome State Fault Refusal :=
  runAtomic i s do
    let bs ← loadBytes s s.opa n
    return { s with res := value bs }

/-- A packing command: the address check comes before the range check (60_exceptions.md R207); OPB out
of range is PACK_RANGE with BUF unchanged. -/
def pack (i : Instr) (n : Nat) (fits : Bool) (s : State) : Host.Outcome State Fault Refusal :=
  runAtomic i s do
    checkInbuf s.opa n
    if fits then
      return { s with buf := s.buf.writeList s.opa.toNat (beBytes s.opb.toNat n) }
    else throw (.raise .packRange s.opb)

/-- v ≤ 2^w - 1, OPB read as unsigned (R126, R128). -/
def fitsUnsigned (w : Nat) (v : Word) : Bool := decide (v.toNat < 2 ^ w)

/-- -2^(w-1) ≤ s32(v) ≤ 2^(w-1) - 1 (R127, R129). -/
def fitsSigned (w : Nat) (v : Word) : Bool :=
  decide (-(2 : Int) ^ (w - 1) ≤ s32 v) && decide (s32 v ≤ (2 : Int) ^ (w - 1) - 1)

/-- LDU16B (R121). -/
def execLdu16b (s : State) : Host.Outcome State Fault Refusal :=
  unpack .ldu16b 2 (fun bs => asWord (beNat bs)) s

/-- LDS16B (R122). -/
def execLds16b (s : State) : Host.Outcome State Fault Refusal :=
  unpack .lds16b 2 (fun bs => u32 (sext 16 (beNat bs))) s

/-- LDU24B (R123). -/
def execLdu24b (s : State) : Host.Outcome State Fault Refusal :=
  unpack .ldu24b 3 (fun bs => asWord (beNat bs)) s

/-- LDS24B (R124). -/
def execLds24b (s : State) : Host.Outcome State Fault Refusal :=
  unpack .lds24b 3 (fun bs => u32 (sext 24 (beNat bs))) s

/-- LDU16L (R125). -/
def execLdu16l (s : State) : Host.Outcome State Fault Refusal :=
  unpack .ldu16l 2 (fun bs => asWord (leNat bs)) s

/-- STU16B (R126). -/
def execStu16b (s : State) : Host.Outcome State Fault Refusal :=
  pack .stu16b 2 (fitsUnsigned 16 s.opb) s

/-- STS16B (R127). -/
def execSts16b (s : State) : Host.Outcome State Fault Refusal :=
  pack .sts16b 2 (fitsSigned 16 s.opb) s

/-- STU24B (R128). -/
def execStu24b (s : State) : Host.Outcome State Fault Refusal :=
  pack .stu24b 3 (fitsUnsigned 24 s.opb) s

/-- STS24B (R129). -/
def execSts24b (s : State) : Host.Outcome State Fault Refusal :=
  pack .sts24b 3 (fitsSigned 24 s.opb) s

/-- Swap every adjacent pair of a byte string (R130). -/
def swapPairs : List Byte → List Byte
  | x :: y :: bs => y :: x :: swapPairs bs
  | bs => bs

/-- SWAP16 (R130): the address check comes before ODD_LEN (60_exceptions.md R207). -/
def execSwap16 (s : State) : Host.Outcome State Fault Refusal :=
  runAtomic .swap16 s do
    checkInbuf s.opa s.opb.toNat
    if s.opb.toNat % 2 = 1 then throw (.raise .oddLen s.opb)
    let bs ← bufBytes s s.opa.toNat s.opb.toNat
    return { s with buf := s.buf.writeList s.opa.toNat (swapPairs bs) }

end Sys2Proof.Machine
end

