-- ==== Sys2Proof/Machine/Crc.lean ====
section
/-! DEFINITION. The frame-header CRC validator (42_crc.md R140 to R142). The CRC algorithm is the spec's
own general knowledge (log 20). -/

namespace Sys2Proof.Machine

/-- `rev8` (R141): bit i moves to bit 7-i. -/
def rev8 (x : Byte) : Byte := x.reverse

/-- One of the eight shifts of a byte (R141). -/
def crcShift (poly r : Byte) : Byte :=
  if r.getLsbD 7 then (r <<< 1) ^^^ poly else r <<< 1

/-- One byte into the CRC register (R141). -/
def crcByte (c : CrcCfg) (r b : Byte) : Byte :=
  (crcShift c.poly)^[8] (r ^^^ (if c.refin then rev8 b else b))

/-- `crc8` (R141), its parameters taken from CRCCFG. -/
def crc8 (c : CrcCfg) (bs : List Byte) : Byte :=
  let r := bs.foldl (crcByte c) c.init
  (if c.refout then rev8 r else r) ^^^ c.xorout

/-- CRCHDR (R142). Of the 13 bytes of the header it reads bytes 1..12 only (R140, R144). -/
def execCrchdr (s : State) : Host.Outcome State Fault Refusal :=
  runAtomic .crchdr s do
    checkInbuf s.opa 13
    let bs ← bufBytes s (s.opa.toNat + 1) 11
    let stored ← readCell .buf s.buf (s.opa.toNat + 12)
    let c := crc8 s.crccfg bs
    let lf := leNat (bs.take 2)
    return { s with
      res := c.setWidth 32
      res2 := u32 (((lf / 2 : Nat) : Int) - 12)
      status := s.status.crcResult (c == stored) (lf % 2 == 1) }

end Sys2Proof.Machine
end

