-- ==== Sys2Proof/Machine/MagIntegrator.lean ====
section
/-! DEFINITION. The magnetometer delta integrator (44_mag_integrator.md R180 to R190). -/

namespace Sys2Proof.Machine

/-- The axis the next delta goes to (44_mag_integrator.md R186). -/
inductive Axis where
  | x
  | y
  | z
deriving DecidableEq, Repr

/-- `(ax + 1) mod 3` (R186). -/
def Axis.next : Axis → Axis
  | .x => .y
  | .y => .z
  | .z => .x

/-- What MAG_PKT changes as it runs: the accumulators, the rows written, OWPTR and ROWCNT, and its local
variables p (the next unread bit) and ax (R184). -/
structure MagRun where
  p : Nat
  ax : Axis
  x : Word
  y : Word
  z : Word
  oram : Memory
  owptr : Word
  rowcnt : Word
deriving DecidableEq, Repr

/-- MACC[ax] (R186). -/
def MagRun.macc (r : MagRun) : Axis → Word
  | .x => r.x
  | .y => r.y
  | .z => r.z

/-- `MACC[ax] <- v` (R186). -/
def MagRun.setMacc (r : MagRun) (ax : Axis) (v : Word) : MagRun :=
  match ax with
  | .x => { r with x := v }
  | .y => { r with y := v }
  | .z => { r with z := v }

/-- One ORAM word, four cells in host lane order (20_memory.md R62; log 11). -/
def Memory.writeWord (m : Memory) (w : Nat) (v : Word) : Memory :=
  m.writeList (4 * w) (leBytes v.toNat 4)

/-- `room()` (R180), computed without wrap. -/
def room (owptr : Word) : Bool := decide (owptr.toNat + 3 ≤ Config.oramWords)

/-- `emit_row()` (R180). -/
def MagRun.emitRow (r : MagRun) : MagRun :=
  { r with
    oram := ((r.oram.writeWord r.owptr.toNat r.x).writeWord (r.owptr.toNat + 1) r.y).writeWord
      (r.owptr.toNat + 2) r.z
    owptr := r.owptr + 3#32
    rowcnt := r.rowcnt + 1#32 }

/-- The magnitude of a delta (R185), the shift as CTRL.MSHIFT says. -/
def magnitude (mshift : Bool) (h16 h12 h8 h4 : Nat) : Nat :=
  let m := h16 * 2 ^ 16 + h12 * 2 ^ 12 + h8 * 2 ^ 8 + h4 * 2 ^ 4
  if mshift then m * 2 else m

/-- The fields of one delta from bit p (R183): `none` at the terminator, else the signed delta and the
first bit after it. -/
def magDelta (s : State) (p : Nat) : Except Stop (Option (Int × Nat)) := do
  let sg ← sign2 s p .terminator
  if sg = .term then return none
  let (h16, L1) ← huf s .mag (p + 2)
  let (h12, L2) ← huf s .mag (p + 2 + L1)
  let h8 ← raw s (p + 2 + L1 + L2) Config.rawNibWidth
  let h4 ← raw s (p + 2 + L1 + L2 + 4) Config.rawNibWidth
  return some (sg.toInt * (magnitude s.ctrl.mshift h16.toNat h12.toNat h8 h4 : Nat),
    p + 2 + L1 + L2 + 8)

/-- The accumulation of a delta that ends before bit q (R186). -/
def MagRun.accumulate (r : MagRun) (delta : Int) (q : Nat) : Except Stop MagRun :=
  let v := s32 (r.macc r.ax) + delta
  if v < -(2 : Int) ^ 31 ∨ (2 : Int) ^ 31 - 1 < v then .error (.raise .magAccOvf (asWord r.p))
  else .ok { r.setMacc r.ax (u32 v) with p := q, ax := r.ax.next }

/-- The row of a triple just completed, if the last delta completed one (R184). -/
def MagRun.rowIfComplete (r : MagRun) : Except Stop MagRun :=
  if r.ax = .x then
    if room r.owptr then .ok r.emitRow else .error (.raise .oramFull r.owptr)
  else .ok r

/-- The loop of R184, with the value TERM ends at. Each turn reads at least 12 bits, so `fuel` above the
number of unread bits never runs out (log 12). -/
def magLoop (s : State) : Nat → MagRun → Except (Stop × MagRun) (MagRun × Bool)
  | 0, r => .ok (r, false)
  | fuel + 1, r =>
    if s.opb ≠ 0#32 ∧ r.rowcnt = s.opb then .ok (r, false)
    else if short s r.p 2 then .ok (r, false)
    else
      match magDelta s r.p with
      | .error e => .error (e, r)
      | .ok none => .ok (r, true)
      | .ok (some (delta, q)) =>
        match r.accumulate delta q with
        | .error e => .error (e, r)
        | .ok r1 =>
          match r1.rowIfComplete with
          | .error e => .error (e, r1)
          | .ok r2 => magLoop s fuel r2

/-- The preconditions (R181). -/
def magPreconditions (s : State) : Except Stop Unit := do
  checkInbuf s.opa 9
  bsCheck s
  if room s.owptr then return () else throw (.raise .oramFull s.owptr)

/-- One value of the header triple (R182). -/
def headerValue (s : State) (a : Nat) : Except Stop Word := do
  let bs ← bufBytes s a 3
  return u32 (sext 24 (beNat bs))

/-- The run right after the header row (R182, R187): ROWCNT starts at 0, the header is row 0. -/
def magStart (s : State) : Except Stop MagRun := do
  let x ← headerValue s s.opa.toNat
  let y ← headerValue s (s.opa.toNat + 3)
  let z ← headerValue s (s.opa.toNat + 6)
  return MagRun.emitRow
    { p := s.bitptr.toNat, ax := .x, x := x, y := y, z := z,
      oram := s.oram, owptr := s.owptr, rowcnt := 0#32 }

/-- The state with what a run has changed, and TERM; BITPTR is the caller's. -/
def withMag (r : MagRun) (term : Bool) (s : State) : State :=
  { s with
    maccX := r.x, maccY := r.y, maccZ := r.z
    oram := r.oram, owptr := r.owptr, rowcnt := r.rowcnt
    status := s.status.setTerm term }

/-- MAG_PKT (R184); an error of the loop keeps the rows, the counters and MACC, and leaves BITPTR and
TERM = 0 (R190; 10_state.md R49 is log 16). -/
def execMagPkt (s : State) : Host.Outcome State Fault Refusal :=
  finish Instr.magPkt.opcode do
    orAt s (magPreconditions s)
    let r0 ← orAt s (magStart s)
    match magLoop s (s.bitend.toNat - s.bitptr.toNat + 1) r0 with
    | .error (e, r) => .error (e, withMag r false s)
    | .ok (r, term) => .ok { withMag r term s with bitptr := asWord r.p }

end Sys2Proof.Machine
end

