-- ==== Sys2Proof/Machine/PdIntegrator.lean ====
section
/-! DEFINITION. The particle-detector delta integrator (43_pd_integrator.md R150 to R161). -/

namespace Sys2Proof.Machine

/-- `emit()` (R150). -/
def emitPeriod (s : State) : State :=
  { s with status := { s.status with pvalid := true }, pcount := s.pcount + 1#32 }

/-- `STATUS.PVALID <- pvalid; STATUS.HDR <- hdr`. -/
def setPdFlags (pvalid hdr : Bool) (s : State) : State :=
  { s with status := s.status.pdResult pvalid hdr }

/-- `pd_cfg_check()` (R151). -/
def pdCfgCheck (s : State) : Except Stop Unit :=
  if s.ctrl.sect ≠ 4#5 ∧ s.ctrl.sect ≠ 16#5 then
    .error (.raise .cfgSect (s.ctrl.sect.setWidth 32))
  else if Config.ltidxMax < s.ctrl.ltidx.toNat then
    .error (.raise .cfgLtidx (s.ctrl.ltidx.setWidth 32))
  else .ok ()

/-- `is_header` (R153). -/
def isHeader (s : State) : Except Stop Bool := do
  let b ← readCell .buf s.buf s.pdMark.toNat
  return b.toNat == markerByte s

/-- `inner_tag_ok()` (R155). -/
def innerTagOk (s : State) : Except Stop Bool :=
  if s.ctrl.inner then do
    let side ← readCell .buf s.buf s.pdTag.toNat
    return tagNibble s.ctrl.taghi side == s.ctrl.subtag
  else return true

/-- The checks of a header packet before any state changes (R154): the side byte of an inner header,
and the header values where `pd_header` will read them. -/
def pdHeaderChecks (s : State) : Except Stop Unit := do
  if s.ctrl.inner then checkInbuf s.pdTag 1
  let tagOk ← innerTagOk s
  if tagOk && s.pdVlen.toNat == slotCount s then checkInbuf s.pdVals (slotCount s)

/-- The part of PD_STEP before its first state change (R154); it answers `hdr`. -/
def pdPreconditions (s : State) : Except Stop Bool := do
  pdCfgCheck s
  checkInbuf s.pdMark 1
  let hdr ← isHeader s
  if hdr then pdHeaderChecks s
  else if s.pdstate.inChain then bsCheck s
  return hdr

/-- SPIN after a header that is accepted (R156): the other nibble of an inner side byte. -/
def headerSpin (s : State) : Except Stop (BitVec 4) :=
  if s.ctrl.inner then do
    let side ← readCell .buf s.buf s.pdTag.toNat
    return spinNibble s.ctrl.taghi side
  else return s.spin

/-- `pd_header()` (R156). -/
def pdHeader (s : State) : CmdResult := do
  let tagOk ← orAt s (innerTagOk s)
  if !tagOk then .error (.raise .pdHdrSubtype s.pdTag, seek s)
  else if s.pdVlen.toNat ≠ slotCount s then .error (.raise .pdHdrLen s.pdVlen, seek s)
  else do
    let values ← orAt s (bufBytes s s.pdVals.toNat (slotCount s))
    let spin ← orAt s (headerSpin s)
    .ok (emitPeriod { s with
      acc := s.acc.writeList 0 values
      spin := spin
      pdstate := { inChain := true, ccount := 0#4 } })

/-- The deltas of a continuation (R157) added to the slots of the scratch copy, from bit p: the new
slots and the first bit after the last delta. -/
def pdIntegrate (s : State) : List Byte → Nat → Except Stop (List Byte × Nat)
  | [], p => .ok ([], p)
  | slot :: slots, p => do
    let sg ← sign2 s p .strict
    let (d1, L1) ← huf s .pd (p + 2)
    let (d2, L2) ← huf s .pd (p + 2 + L1)
    let v : Int := slot.toNat + sg.toInt * (d1.toNat * 16 + d2.toNat : Nat)
    if v < 0 ∨ 255 < v then .error (.raise .pdRange (asWord p))
    else do
      let (rest, q) ← pdIntegrate s slots (p + 2 + L1 + L2)
      .ok (BitVec.ofInt 8 v :: rest, q)

/-- PDSTATE after the commit of a continuation: one more continuation (R158), and back to seeking at the
chain cap with CCOUNT left at 9 (R159). -/
def advanceChain (p : PdState) : PdState :=
  { inChain := p.inChain && p.ccount + 1#4 != Config.chainCap, ccount := p.ccount + 1#4 }

/-- `pd_continuation()` (R157) with its commit (R158, R159). An error is preceded by `seek()` and commits
nothing. -/
def pdContinuation (s : State) : CmdResult := do
  let old ← orAt s (readCells .acc s.acc 0 (slotCount s))
  let (new, p) ← orAt (seek s) (pdIntegrate s old s.bitptr.toNat)
  .ok (emitPeriod { s with
    acc := s.acc.writeList 0 new
    bitptr := asWord p
    pdstate := advanceChain s.pdstate })

/-- PD_STEP after its preconditions (R154): a header, a continuation, or a packet skipped while seeking
(R160). -/
def pdPacket (hdr : Bool) (s : State) : CmdResult :=
  if hdr then pdHeader s else if s.pdstate.inChain then pdContinuation s else .ok s

/-- PD_INIT (R152). -/
def execPdInit (s : State) : Host.Outcome State Fault Refusal :=
  finish Instr.pdInit.opcode (.ok { setPdFlags false false (seek s) with pcount := 0#32 })

/-- PD_STEP (R154). -/
def execPdStep (s : State) : Host.Outcome State Fault Refusal :=
  finish Instr.pdStep.opcode do
    let hdr ← orAt s (pdPreconditions s)
    pdPacket hdr (setPdFlags false hdr s)

/-- PD_GAP (R161). -/
def execPdGap (s : State) : Host.Outcome State Fault Refusal :=
  finish Instr.pdGap.opcode (.ok (setPdFlags false false (seek s)))

end Sys2Proof.Machine
end

