-- ==== Sys2Proof/Machine/Dispatch.lean ====
section
/-! DEFINITION. The dispatch of a decoded command to its meaning (30_encoding.md R86). -/

namespace Sys2Proof.Machine

def exec (i : Instr) (s : State) : Host.Outcome State Fault Refusal :=
  match i with
  | .rdbits n => Sys2Proof.Machine.execRdbits n s
  | .rdhuf t => Sys2Proof.Machine.execRdhuf t s
  | .rdsign m => Sys2Proof.Machine.execRdsign m s
  | .ldu16b => Sys2Proof.Machine.execLdu16b s
  | .lds16b => Sys2Proof.Machine.execLds16b s
  | .ldu24b => Sys2Proof.Machine.execLdu24b s
  | .lds24b => Sys2Proof.Machine.execLds24b s
  | .ldu16l => Sys2Proof.Machine.execLdu16l s
  | .stu16b => Sys2Proof.Machine.execStu16b s
  | .sts16b => Sys2Proof.Machine.execSts16b s
  | .stu24b => Sys2Proof.Machine.execStu24b s
  | .sts24b => Sys2Proof.Machine.execSts24b s
  | .swap16 => Sys2Proof.Machine.execSwap16 s
  | .crchdr => Sys2Proof.Machine.execCrchdr s
  | .pdInit => Sys2Proof.Machine.execPdInit s
  | .pdStep => Sys2Proof.Machine.execPdStep s
  | .pdGap => Sys2Proof.Machine.execPdGap s
  | .magPkt => Sys2Proof.Machine.execMagPkt s

end Sys2Proof.Machine
end

