-- ==== Sys2Proof/Machine/Bus.lean ====
section
/-! DEFINITION. The host bus: the address map (20_memory.md R61), the register map (10_state.md R22),
host reads and writes (R62 to R69, 10_state.md R43), the CMD write (30_encoding.md R80) and the reset
input (70_reset_and_hazards.md R230). -/

namespace Sys2Proof.Machine

/-- The registers of the CSR window (10_state.md R22). -/
inductive Csr where
  | id
  | ctrl
  | status
  | cmd
  | opa
  | opb
  | bitptr
  | bitend
  | res
  | res2
  | crccfg
  | pdstate
  | pcount
  | derrcnt
  | errinfo
  | errptr
  | owptr
  | rowcnt
  | maccX
  | maccY
  | maccZ
  | pdMark
  | pdTag
  | pdVals
  | pdVlen
  | spin
deriving DecidableEq, Repr

/-- The registers in the order of their offsets, the k-th at offset 4 × k (R22). -/
def csrMap : List Csr :=
  [.id, .ctrl, .status, .cmd, .opa, .opb, .bitptr, .bitend, .res, .res2, .crccfg, .pdstate, .pcount,
    .derrcnt, .errinfo, .errptr, .owptr, .rowcnt, .maccX, .maccY, .maccZ, .pdMark, .pdTag, .pdVals,
    .pdVlen, .spin]

/-- The register at a byte offset of the CSR window; none at a reserved offset (R43). -/
def csrAt (offset : Nat) : Option Csr :=
  if offset % 4 = 0 then csrMap[offset / 4]? else none

/-- What a host access reaches (20_memory.md R61). -/
inductive Target where
  | csr (c : Csr)
  | huff (t : Bank) (i : Fin 256)
  | acc (i : Nat)
  | buf (a : Nat)
  | oram (w : Nat)
deriving DecidableEq, Repr

/-- The bytes of a host access. -/
def AccessSize.bytes : AccessSize → Nat
  | .b1 => 1
  | .b2 => 2
  | .b4 => 4

/-- The size of the data of a host access. -/
def BusData.size : BusData → AccessSize
  | .b1 _ => .b1
  | .b2 _ => .b2
  | .b4 _ => .b4

/-- The data of a host access as a number. -/
def BusData.toNat : BusData → Nat
  | .b1 v => v.toNat
  | .b2 v => v.toNat
  | .b4 v => v.toNat

/-- The data of n bytes, byte k in lane k (20_memory.md R62). -/
def BusData.ofBytes (n : AccessSize) (bs : List Byte) : BusData :=
  match n with
  | .b1 => .b1 (BitVec.ofNat 8 (leNat bs))
  | .b2 => .b2 (BitVec.ofNat 16 (leNat bs))
  | .b4 => .b4 (BitVec.ofNat 32 (leNat bs))

/-- The unit a 4-byte access reaches, by the map of R61; `none` where nothing is mapped. -/
def wordTarget (a : Nat) : Option Target :=
  if a < 0x100 then (csrAt a).map Target.csr
  else if 0x1000 ≤ a ∧ a < 0x1400 then some (.huff .pd (Fin.ofNat 256 ((a - 0x1000) / 4)))
  else if 0x1400 ≤ a ∧ a < 0x1800 then some (.huff .mag (Fin.ofNat 256 ((a - 0x1400) / 4)))
  else if 0x2000 ≤ a ∧ a < 0x2000 + 4 * Config.accSlots then some (.acc ((a - 0x2000) / 4))
  else if 0x20000 ≤ a ∧ a < 0x20000 + 4 * Config.oramWords then some (.oram ((a - 0x20000) / 4))
  else none

/-- Where a host access of n bytes at address a goes; `none` is a bus error (R64): misaligned, unmapped,
a reserved offset, or not 4 bytes outside the BUF window. -/
def target (a : HostAddr) (n : AccessSize) : Option Target :=
  if a.toNat % n.bytes ≠ 0 then none
  else if 0x10000 ≤ a.toNat ∧ a.toNat < 0x10000 + Config.bufBytes then some (.buf (a.toNat - 0x10000))
  else if n = .b4 then wordTarget a.toNat
  else none

/-! ## Reads -/

/-- The value a host read of a register returns (10_state.md R22 to R42); reading has no side effect
(R43), CMD reads 0 (R28). -/
def readCsr (s : State) : Csr → Word
  | .id => Config.idValue
  | .ctrl => s.ctrl.toWord
  | .status => s.status.toWord
  | .cmd => 0#32
  | .opa => s.opa
  | .opb => s.opb
  | .bitptr => s.bitptr
  | .bitend => s.bitend
  | .res => s.res
  | .res2 => s.res2
  | .crccfg => s.crccfg.toWord
  | .pdstate => s.pdstate.toWord
  | .pcount => s.pcount
  | .derrcnt => s.derrcnt
  | .errinfo => s.errinfo.toWord
  | .errptr => s.errptr
  | .owptr => s.owptr
  | .rowcnt => s.rowcnt
  | .maccX => s.maccX
  | .maccY => s.maccY
  | .maccZ => s.maccZ
  | .pdMark => s.pdMark
  | .pdTag => s.pdTag
  | .pdVals => s.pdVals
  | .pdVlen => s.pdVlen
  | .spin => s.spin.setWidth 32

/-- A host read of n bytes at a target (10_state.md R44, R46 to R48; 20_memory.md R62). -/
def readTarget (s : State) (n : AccessSize) : Target → Except Stop BusData
  | .csr c => .ok (.b4 (readCsr s c))
  | .huff t i => .ok (.b4 (s.bank t)[i].toWord)
  | .acc i => (readCell .acc s.acc i).map fun b => .b4 (b.setWidth 32)
  | .buf a => (readCells .buf s.buf a n.bytes).map (BusData.ofBytes n)
  | .oram w => (readCells .oram s.oram (4 * w) 4).map (BusData.ofBytes .b4)

/-! ## Writes -/

/-- A host write to CTRL (10_state.md R24, R25): a change of the stream's configuration abandons the PD
chain. -/
def writeCtrl (w : Word) (s : State) : State :=
  let s' := { s with ctrl := Ctrl.ofWord w }
  if s.ctrl.sameStream (Ctrl.ofWord w) then s' else seek s'

/-- A host write of CMD (30_encoding.md R80): ignored while FATAL is set (60_exceptions.md R205); an
illegal word is the fatal error ILLEGAL (R87); any other runs its command. -/
def issue (w : Word) (s : State) : Host.Outcome State Fault Refusal :=
  if s.status.fatal then .next s
  else
    match decode w with
    | .error _ => .next (recordError (opcodeField w) .illegal w s)
    | .ok i => exec i s

/-- A host write of a register (10_state.md R22, R43): read-only registers ignore it, STATUS is write 1
to clear (R27), DERRCNT clears (R35), CMD runs a command. -/
def writeCsr (c : Csr) (w : Word) (s : State) : Host.Outcome State Fault Refusal :=
  match c with
  | .id => .next s
  | .ctrl => .next (writeCtrl w s)
  | .status => .next (clearErrors w s)
  | .cmd => issue w s
  | .opa => .next { s with opa := w }
  | .opb => .next { s with opb := w }
  | .bitptr => .next { s with bitptr := w }
  | .bitend => .next { s with bitend := w }
  | .res => .next s
  | .res2 => .next s
  | .crccfg => .next { s with crccfg := CrcCfg.ofWord w }
  | .pdstate => .next s
  | .pcount => .next s
  | .derrcnt => .next { s with derrcnt := 0#32 }
  | .errinfo => .next s
  | .errptr => .next s
  | .owptr => .next { s with owptr := w }
  | .rowcnt => .next s
  | .maccX => .next s
  | .maccY => .next s
  | .maccZ => .next s
  | .pdMark => .next { s with pdMark := w }
  | .pdTag => .next { s with pdTag := w }
  | .pdVals => .next { s with pdVals := w }
  | .pdVlen => .next { s with pdVlen := w }
  | .spin => .next s

/-- A host write at a target: ACC ignores it (10_state.md R46), BUF takes the bytes of the lanes in
address order (20_memory.md R65). -/
def writeTarget (d : BusData) (s : State) : Target → Host.Outcome State Fault Refusal
  | .csr c => writeCsr c (BitVec.ofNat 32 d.toNat) s
  | .huff t i => .next (s.setHuff t i (HuffEntry.ofWord (BitVec.ofNat 32 d.toNat)))
  | .acc _ => .next s
  | .buf a => .next { s with buf := s.buf.writeList a (leBytes d.toNat d.size.bytes) }
  | .oram w => .next { s with oram := s.oram.writeWord w (BitVec.ofNat 32 d.toNat) }

/-! ## Bus events -/

/-- The data a host read returns, put where the host sees it; a fault of the model stops the step. (A
read of a target raises no error of the block, so the last arm is never taken.) -/
def answer (r : Except Stop BusData) (s : State) : Host.Outcome State Fault Refusal :=
  match r with
  | .ok d => .next { s with readData := some d }
  | .error (.fault f) => .fault f
  | .error (.raise _ _) => .next s

/-- One bus event: an access that is a bus error is a fault of the step (20_memory.md R64); the reset
input sets every piece of state to its reset value and leaves the host's further events
(70_reset_and_hazards.md R230; log 7). -/
def perform (e : BusEvent) (s : State) : Host.Outcome State Fault Refusal :=
  match e with
  | .read a n =>
    match target a n with
    | none => .fault (.busError a)
    | some t => answer (readTarget s n t) s
  | .write a d =>
    match target a d.size with
    | none => .fault (.busError a)
    | some t => writeTarget d s t
  | .reset => .next { State.reset with hostQueue := s.hostQueue }

/-- The state once the next event is taken from the queue, the last read's data gone. -/
def takeEvent (rest : List BusEvent) (s : State) : State :=
  { s with hostQueue := rest, readData := none }

/-- The host address of CMD (10_state.md R22, 20_memory.md R61). -/
def cmdAddr : HostAddr := 0x0000C#18

/-- The bus event that issues a command word: a 32-bit host write of CMD (10_state.md R28). -/
def issueEvent (w : Word) : BusEvent := .write cmdAddr (.b4 w)

end Sys2Proof.Machine
end

