-- ==== Sys2Proof/Machine/Step.lean ====
section
/-! DEFINITION. One step: the next bus event, performed whole (70_reset_and_hazards.md R244: each host
access, including each CMD write with its whole command, is one step). -/

namespace Sys2Proof.Machine

/-- With no event the block does nothing (R245). -/
def step (s : State) : Host.Outcome State Fault Refusal :=
  match s.hostQueue with
  | [] => .next s
  | e :: rest => perform e (takeEvent rest s)

/-- `s` with the command word `w` as the next thing the host does: the block fetches nothing
(10_state.md R21), a command reaches it by a write of CMD. See log 1. -/
def State.withFetchWord (s : State) (nbits w : Nat) : State :=
  { s with hostQueue := issueEvent (BitVec.ofNat 32 (w % 2 ^ nbits)) :: s.hostQueue }

end Sys2Proof.Machine
end

