-- ==== Sys2Proof/Safety.lean ====
section
/-! DEFINITION. The terms the statements use: what memory and the bitstream hold, what a Huffman key is,
the deltas of a packet, and the invariants of the machine. -/

namespace Sys2Proof.Safety

open Sys2Proof.Machine

/-! ## What memory and the bitstream hold -/

/-- The bytes `bs` stand at consecutive addresses from a. -/
def BytesAt (m : Memory) (a : Nat) (bs : List Byte) : Prop :=
  ∀ (k : Nat) (h : k < bs.length), m.read (a + k) = some bs[k]

/-- Bit p of the payload buffer is b (00_scope.md R11). -/
def BitAt (s : State) (p : Nat) (b : Bool) : Prop :=
  ∃ v, s.buf.read (p / 8) = some v ∧ v.getLsbD (7 - p % 8) = b

/-- The bits `l` stand at consecutive bit indices from p. -/
def BitsAt (s : State) (p : Nat) (l : List Bool) : Prop :=
  ∀ (k : Nat) (h : k < l.length), BitAt s (p + k) l[k]

/-- A bit string as a number, first bit most significant (00_scope.md R11). -/
def natOfBits (l : List Bool) : Nat := l.foldl (fun v b => 2 * v + b.toNat) 0

/-- The word at index w of ORAM. -/
def OramWord (m : Memory) (w : Nat) (v : Word) : Prop :=
  BytesAt m (4 * w) [v.extractLsb' 0 8, v.extractLsb' 8 8, v.extractLsb' 16 8, v.extractLsb' 24 8]

/-- The bounds a bitstream command requires (40_bitstream.md R101). -/
def StreamOk (s : State) : Prop :=
  s.bitptr.toNat ≤ s.bitend.toNat ∧ s.bitend.toNat ≤ 8 * Config.bufBytes

/-! ## Command words -/

/-- The opcode bytes of format Z (30_encoding.md R83). -/
def formatZOpcodes : List Byte :=
  [0x10#8, 0x11#8, 0x12#8, 0x13#8, 0x14#8, 0x18#8, 0x19#8, 0x1A#8, 0x1B#8, 0x20#8, 0x28#8, 0x30#8,
    0x31#8, 0x32#8, 0x38#8]

/-- `legal(op, arg)` in the words of 30_encoding.md R87, op = w[31:24] and arg = w[23:0] as numbers. -/
def LegalWord (w : Word) : Prop :=
  (w.extractLsb' 24 8 ∈ formatZOpcodes ∧ w.toNat % 2 ^ 24 = 0)
    ∨ (w.extractLsb' 24 8 = 0x01#8 ∧ 1 ≤ w.toNat % 2 ^ 24 ∧ w.toNat % 2 ^ 24 ≤ 16)
    ∨ ((w.extractLsb' 24 8 = 0x02#8 ∨ w.extractLsb' 24 8 = 0x03#8) ∧ w.toNat % 2 ^ 24 ≤ 1)

/-! ## Huffman keys (40_bitstream.md R105, R106; 10_state.md R44, R45) -/

/-- Entry i of a bank is the key `l`. -/
def IsKey (bank : HuffBank) (i : Fin 256) (l : List Bool) : Prop :=
  bank[i].valid = true ∧ bank[i].len.toNat = l.length
    ∧ bank[i].pat.toNat % 2 ^ l.length = natOfBits l

/-- No entry is a key that the bits `l` begin with. -/
def NoKeyAmongPrefixes (bank : HuffBank) (l : List Bool) : Prop :=
  ∀ k, 1 ≤ k → k ≤ l.length → ∀ i, ¬ IsKey bank i (l.take k)

/-- Entry i is the key `l`, the first such entry, and no shorter prefix of `l` is a key. -/
def IsFirstKey (bank : HuffBank) (i : Fin 256) (l : List Bool) : Prop :=
  IsKey bank i l ∧ (∀ j, j < i → ¬ IsKey bank j l)
    ∧ ∀ k, 1 ≤ k → k < l.length → ∀ j, ¬ IsKey bank j (l.take k)

/-- A well-formed bank (10_state.md R45): no key is equal to, or a prefix of, the key of another entry. -/
def BankWellFormed (bank : HuffBank) : Prop :=
  ∀ i j l m, 1 ≤ l.length → l.length ≤ 12 → 1 ≤ m.length → m.length ≤ 12 →
    IsKey bank i l → IsKey bank j m → l <+: m → i = j

/-- The bits from p spell a key of bank t within the stream; they stand for the code and end before q. -/
def CodeAt (s : State) (t : Bank) (p : Nat) (code : Byte) (q : Nat) : Prop :=
  ∃ l i, 1 ≤ l.length ∧ l.length ≤ Config.hufMaxLen ∧ BitsAt s p l ∧ q = p + l.length
    ∧ q ≤ s.bitend.toNat ∧ IsFirstKey (s.bank t) i l ∧ code = (s.bank t)[i].code

/-- The bits from p are the sign pair of +1 ("00") or -1 ("01") within the stream (40_bitstream.md
R108). -/
def SignAt (s : State) (p : Nat) (sg : Int) : Prop :=
  p + 2 ≤ s.bitend.toNat
    ∧ ((BitsAt s p [false, false] ∧ sg = 1) ∨ (BitsAt s p [false, true] ∧ sg = -1))

/-! ## PD packets (43_pd_integrator.md R151, R153, R155) -/

/-- The configuration PD_STEP accepts (R151). -/
def PdConfigOk (s : State) : Prop :=
  (s.ctrl.sect = 4#5 ∨ s.ctrl.sect = 16#5) ∧ s.ctrl.ltidx.toNat ≤ 0x55

/-- The marker byte at PD_MARK is there and is that of a header (R153). -/
def HeaderMarked (s : State) : Prop :=
  s.pdMark.toNat < Config.bufBytes
    ∧ ∃ b, s.buf.read s.pdMark.toNat = some b ∧ b.toNat = 0xAA + s.ctrl.ltidx.toNat

/-- The marker byte at PD_MARK is there and is not that of a header (R153). -/
def ContinuationMarked (s : State) : Prop :=
  s.pdMark.toNat < Config.bufBytes
    ∧ ∃ b, s.buf.read s.pdMark.toNat = some b ∧ b.toNat ≠ 0xAA + s.ctrl.ltidx.toNat

/-- The side byte of an inner header is there (R155). -/
def SideByte (s : State) (side : Byte) : Prop :=
  s.pdTag.toNat < Config.bufBytes ∧ s.buf.read s.pdTag.toNat = some side

/-- The high nibble of a byte if `hi`, else the low one (10_state.md R24 for TAGHI). -/
def nibble (hi : Bool) (b : Byte) : BitVec 4 := if hi then b.extractLsb' 4 4 else b.extractLsb' 0 4

/-- The sub-type tag of the packet is the expected one, or the stream is not an inner one (R155). -/
def TagAccepted (s : State) : Prop :=
  s.ctrl.inner = false
    ∨ ∃ side, SideByte s side ∧ nibble s.ctrl.taghi side = s.ctrl.subtag

/-- The packet is of an inner stream and its sub-type tag is not the expected one (R155). -/
def TagRejected (s : State) : Prop :=
  s.ctrl.inner = true ∧ ∃ side, SideByte s side ∧ nibble s.ctrl.taghi side ≠ s.ctrl.subtag

/-! ## The deltas of a packet -/

/-- From bit p the stream holds one delta for each slot, and adding them to the first list of slots gives
the second; the deltas end before bit q (43_pd_integrator.md R157). -/
inductive PdDeltas (s : State) : Nat → List Byte → List Byte → Nat → Prop where
  | done (p : Nat) : PdDeltas s p [] [] p
  | slot {p p1 p2 q : Nat} {sg : Int} {d1 d2 v v' : Byte} {vs vs' : List Byte}
      (hs : SignAt s p sg) (h1 : CodeAt s .pd (p + 2) d1 p1) (h2 : CodeAt s .pd p1 d2 p2)
      (hv : (v'.toNat : Int) = v.toNat + sg * (16 * d1.toNat + d2.toNat : Int))
      (hr : PdDeltas s p2 vs vs' q) : PdDeltas s p (v :: vs) (v' :: vs') q

/-- From bit p the stream holds one MAG delta of the value d, ending before q (44_mag_integrator.md R183,
R185). -/
def MagDeltaAt (s : State) (p : Nat) (d : Int) (q : Nat) : Prop :=
  ∃ sg h16 h12 p1 p2 n8 n4, SignAt s p sg ∧ CodeAt s .mag (p + 2) h16 p1 ∧ CodeAt s .mag p1 h12 p2
    ∧ n8.length = 4 ∧ n4.length = 4 ∧ BitsAt s p2 n8 ∧ BitsAt s (p2 + 4) n4 ∧ q = p2 + 8
    ∧ q ≤ s.bitend.toNat
    ∧ d = sg * ((65536 * h16.toNat + 4096 * h12.toNat + 256 * natOfBits n8 + 16 * natOfBits n4 : Nat)
        * (if s.ctrl.mshift then 2 else 1) : Int)

/-- From bit p the stream holds the MAG deltas `ds`, ending before q. -/
inductive MagDeltas (s : State) : Nat → List Int → Nat → Prop where
  | done (p : Nat) : MagDeltas s p [] p
  | delta {p p1 q : Nat} {d : Int} {ds : List Int} (h : MagDeltaAt s p d p1)
      (hr : MagDeltas s p1 ds q) : MagDeltas s p (d :: ds) q

/-- The sum of the deltas that go to axis k among the first n: deltas k, k + 3, k + 6, … (R186). -/
def axisSum (ds : List Int) (k n : Nat) : Int :=
  ((List.range n).map fun j => if j % 3 = k then ds.getD j 0 else 0).sum

/-- The value of axis k of a MAG header triple at OPA, 3 bytes big-endian (R182). -/
def HeaderAxis (s : State) (k : Nat) (v : Int) : Prop :=
  ∃ b0 b1 b2 : Byte, BytesAt s.buf (s.opa.toNat + 3 * k) [b0, b1, b2]
    ∧ v = (65536 * b0.toNat + 256 * b1.toNat + b2.toNat : Int)
        - (if 128 ≤ b0.toNat then 16777216 else 0)

/-- A value the 32-bit accumulators hold (R186). -/
def FitsWord (v : Int) : Prop := -2147483648 ≤ v ∧ v ≤ 2147483647

/-- The preconditions of MAG_PKT (R181). -/
def MagReady (s : State) : Prop :=
  s.opa.toNat + 9 ≤ Config.bufBytes ∧ StreamOk s ∧ s.owptr.toNat + 3 ≤ Config.oramWords

/-- The row limit K = OPB is reached at the given row count (44_mag_integrator.md R184, R189). -/
def LimitReached (s : State) (rows : Nat) : Prop := s.opb ≠ 0#32 ∧ s.opb.toNat = rows

/-! ## How commands end -/

/-- `s` once a command has completed without error (30_encoding.md R80). -/
def succeeded (s : State) : State := { s with status := { s.status with lastOk := true } }

/-- `s` with a decode error recorded (60_exceptions.md R203). -/
def afterDecodeError (op code : Byte) (ptr : Word) (s : State) : State :=
  { s with
    errinfo := { code := code, op := op }
    errptr := ptr
    status := { s.status with derr := true, lastOk := false }
    derrcnt := s.derrcnt + 1#32 }

/-- `s` with a fatal error recorded (60_exceptions.md R204). -/
def afterFatalError (op code : Byte) (info : Word) (s : State) : State :=
  { s with
    errinfo := { code := code, op := op }
    errptr := info
    status := { s.status with fatal := true, lastOk := false } }

/-- `s` with the chain abandoned, PVALID 0 and HDR as given: what a decode error of PD_STEP leaves
(60_exceptions.md R206). -/
def chainAbandoned (hdr : Bool) (s : State) : State :=
  { s with
    pdstate := { inChain := false, ccount := 0#4 }
    status := { s.status with pvalid := false, hdr := hdr } }

/-! ## Bitstream fields that cannot be read -/

/-- No Huffman code of bank t can be read from p; `code` is the error (40_bitstream.md R106): 1 where the
bits run out before a key, 2 where none of the 12 prefixes is a key. -/
def CodeFails (s : State) (t : Bank) (p : Nat) (code : Byte) : Prop :=
  (code = 0x01#8 ∧ ∃ l : List Bool, l.length < 12 ∧ BitsAt s p l ∧ s.bitend.toNat = p + l.length
      ∧ NoKeyAmongPrefixes (s.bank t) l)
    ∨ (code = 0x02#8 ∧ ∃ l : List Bool, l.length = 12 ∧ BitsAt s p l ∧ p + 12 ≤ s.bitend.toNat
      ∧ NoKeyAmongPrefixes (s.bank t) l)

/-- The delta of the slot with value v cannot be integrated from bit p; `code` is the error and `ptr` its
position (43_pd_integrator.md R157). -/
inductive PdFailure (s : State) (p : Nat) (v : Byte) : Byte → Nat → Prop where
  | signShort (h : s.bitend.toNat < p + 2) : PdFailure s p v 0x04#8 p
  | signBad (b : Bool) (h : p + 2 ≤ s.bitend.toNat) (hb : BitsAt s p [true, b]) :
      PdFailure s p v 0x03#8 p
  | first {sg : Int} {code : Byte} (hs : SignAt s p sg) (h : CodeFails s .pd (p + 2) code) :
      PdFailure s p v code (p + 2)
  | second {sg : Int} {d1 code : Byte} {p1 : Nat} (hs : SignAt s p sg)
      (h1 : CodeAt s .pd (p + 2) d1 p1) (h : CodeFails s .pd p1 code) : PdFailure s p v code p1
  | range {sg : Int} {d1 d2 : Byte} {p1 p2 : Nat} (hs : SignAt s p sg)
      (h1 : CodeAt s .pd (p + 2) d1 p1) (h2 : CodeAt s .pd p1 d2 p2)
      (h : v.toNat + sg * (16 * d1.toNat + d2.toNat : Int) < 0
        ∨ 255 < v.toNat + sg * (16 * d1.toNat + d2.toNat : Int)) : PdFailure s p v 0x06#8 p

/-- A MAG delta that is not a terminator cannot be read from bit p; `code` is the error and `ptr` the bit
at which the failing field starts (44_mag_integrator.md R183, R184). -/
inductive MagFailure (s : State) (p : Nat) : Byte → Nat → Prop where
  | signBad (h : p + 2 ≤ s.bitend.toNat) (hb : BitsAt s p [true, false]) : MagFailure s p 0x03#8 p
  | h16 {sg : Int} {code : Byte} (hs : SignAt s p sg) (h : CodeFails s .mag (p + 2) code) :
      MagFailure s p code (p + 2)
  | h12 {sg : Int} {c code : Byte} {p1 : Nat} (hs : SignAt s p sg)
      (h1 : CodeAt s .mag (p + 2) c p1) (h : CodeFails s .mag p1 code) : MagFailure s p code p1
  | h8 {sg : Int} {c d : Byte} {p1 p2 : Nat} (hs : SignAt s p sg)
      (h1 : CodeAt s .mag (p + 2) c p1) (h2 : CodeAt s .mag p1 d p2)
      (h : s.bitend.toNat < p2 + 4) : MagFailure s p 0x05#8 p2
  | h4 {sg : Int} {c d : Byte} {p1 p2 : Nat} {n8 : List Bool} (hs : SignAt s p sg)
      (h1 : CodeAt s .mag (p + 2) c p1) (h2 : CodeAt s .mag p1 d p2)
      (hn : n8.length = 4 ∧ BitsAt s p2 n8) (h : p2 + 4 ≤ s.bitend.toNat)
      (h4 : s.bitend.toNat < p2 + 8) : MagFailure s p 0x05#8 (p2 + 4)

/-! ## A MAG packet in progress -/

/-- MAG_PKT has read the header triple (x, y, z) and the deltas `ds` that end before bit q: no sum left
the 32-bit range, and the row limit was not reached before the last of them (44_mag_integrator.md R182
to R186). -/
def MagProgress (s : State) (x y z : Int) (ds : List Int) (q : Nat) : Prop :=
  MagReady s ∧ HeaderAxis s 0 x ∧ HeaderAxis s 1 y ∧ HeaderAxis s 2 z
    ∧ MagDeltas s s.bitptr.toNat ds q
    ∧ (∀ n, n ≤ ds.length → FitsWord (x + axisSum ds 0 n) ∧ FitsWord (y + axisSum ds 1 n)
        ∧ FitsWord (z + axisSum ds 2 n))
    ∧ ∀ j, j < ds.length → ¬ LimitReached s (1 + j / 3)

/-- `s` after the header (x, y, z), the deltas `ds` and the given number of rows, with the given ORAM and
TERM (44_mag_integrator.md R184, R188). -/
def magState (s : State) (x y z : Int) (ds : List Int) (rows : Nat) (oram : Memory) (term : Bool) :
    State :=
  { s with
    maccX := BitVec.ofInt 32 (x + axisSum ds 0 ds.length)
    maccY := BitVec.ofInt 32 (y + axisSum ds 1 ds.length)
    maccZ := BitVec.ofInt 32 (z + axisSum ds 2 ds.length)
    oram := oram
    owptr := BitVec.ofNat 32 (s.owptr.toNat + 3 * rows)
    rowcnt := BitVec.ofNat 32 rows
    status := { s.status with term := term } }

/-- The given number of rows stand in ORAM from word OWPTR of `s` on, row r holding the header plus the
sums of the first 3r deltas; every other cell is that of `s` (44_mag_integrator.md R187, R188). -/
def MagRows (s : State) (x y z : Int) (ds : List Int) (rows : Nat) (oram : Memory) : Prop :=
  (∀ r, r < rows →
      OramWord oram (s.owptr.toNat + 3 * r) (BitVec.ofInt 32 (x + axisSum ds 0 (3 * r)))
        ∧ OramWord oram (s.owptr.toNat + 3 * r + 1) (BitVec.ofInt 32 (y + axisSum ds 1 (3 * r)))
        ∧ OramWord oram (s.owptr.toNat + 3 * r + 2) (BitVec.ofInt 32 (z + axisSum ds 2 (3 * r))))
    ∧ ∀ a, a < 4 * s.owptr.toNat ∨ 4 * (s.owptr.toNat + 3 * rows) ≤ a →
        oram.read a = s.oram.read a

/-! ## Host accesses -/

/-- A host access of n bytes at address a is no bus error (20_memory.md R61, R64). -/
def Mapped (a n : Nat) : Prop :=
  a % n = 0
    ∧ ((0x10000 ≤ a ∧ a < 0x18000)
      ∨ (n = 4 ∧ (a < 0x68 ∨ (0x1000 ≤ a ∧ a < 0x1800) ∨ (0x2000 ≤ a ∧ a < 0x2400)
          ∨ (0x20000 ≤ a ∧ a < 0x40000))))

/-- The bytes a host access carries, byte k in data bits [8k+7 : 8k] (20_memory.md R62). -/
def laneBytes : BusData → List Byte
  | .b1 v => [v]
  | .b2 v => [v.extractLsb' 0 8, v.extractLsb' 8 8]
  | .b4 v => [v.extractLsb' 0 8, v.extractLsb' 8 8, v.extractLsb' 16 8, v.extractLsb' 24 8]

/-- Address x is the first of n consecutive addresses from a that holds no value (10_state.md R54). -/
def FirstUnwritten (m : Memory) (a n x : Nat) : Prop :=
  a ≤ x ∧ x < a + n ∧ m.read x = none ∧ ∀ y, a ≤ y → y < x → (m.read y).isSome

/-! ## Invariants -/

/-- The memories have their canonical form and hold only cells that exist (10_state.md R46 to R48). -/
def MemoriesCanonical (s : State) : Prop :=
  s.buf.wf ∧ s.acc.wf ∧ s.oram.wf
    ∧ (∀ c ∈ s.buf, c.1 < Config.bufBytes) ∧ (∀ c ∈ s.acc, c.1 < Config.accSlots)
    ∧ ∀ c ∈ s.oram, c.1 < 4 * Config.oramWords

/-- Every ORAM word is either written whole or never written (10_state.md R48: ORAM is written by words
only). -/
def RowsWhole (s : State) : Prop :=
  ∀ w j k, j < 4 → k < 4 →
    ((s.oram.read (4 * w + j)).isSome ↔ (s.oram.read (4 * w + k)).isSome)

/-- The PD engine inside a chain: CCOUNT is at most 9 (10_state.md R33), and while INCHAIN is 1 the
configuration is legal, fewer than 9 continuations have been integrated, and the measured values are all
there (43_pd_integrator.md R151, R156, R159). -/
def ChainSound (s : State) : Prop :=
  s.pdstate.ccount.toNat ≤ 9
    ∧ (s.pdstate.inChain = true →
        s.pdstate.ccount.toNat ≤ 8 ∧ (s.ctrl.sect = 4#5 ∨ s.ctrl.sect = 16#5)
          ∧ s.ctrl.ltidx.toNat ≤ Config.ltidxMax
          ∧ ∀ i, i < slotCount s → (s.acc.read i).isSome)

/-- The codes ERRINFO.CODE can hold: 0, and those of 60_exceptions.md R201. -/
def knownCodes : List Byte :=
  [0x00#8, 0x01#8, 0x02#8, 0x03#8, 0x04#8, 0x05#8, 0x06#8, 0x07#8, 0x08#8, 0x09#8,
    0x10#8, 0x11#8, 0x12#8, 0x13#8, 0x14#8, 0x15#8, 0x16#8]

/-- The error record is sound: ERRINFO.CODE is a code of R201 or 0, and 0 only while no error flag is
set (60_exceptions.md R201: ERRINFO.CODE = 0 means no error since reset). -/
def ErrorRecordSound (s : State) : Prop :=
  s.errinfo.code ∈ knownCodes
    ∧ (s.errinfo.code = 0#8 → s.status.derr = false ∧ s.status.fatal = false ∧ s.derrcnt = 0#32)

/-- Every cell of the payload buffer has been written. -/
def BufFilled (s : State) : Prop := ∀ a, a < Config.bufBytes → (s.buf.read a).isSome

end Sys2Proof.Safety
end

