-- ==== Sys2Proof/Certificates/Slice0/Obligations.lean ====
section
/-! DEFINITION. The statements about the HPD block, for the provers. Every statement about a step speaks
of the model's own fields, the queue of the host's accesses (log 1) and the data of its last read (log 2),
only to say that the next access is taken and what a read answers. -/

open Sys2Proof Sys2Proof.Machine Sys2Proof.Safety

/-! ## Encoding (30_encoding.md) -/

/-- Decode and encode agree in both directions: a word decodes to i exactly when i is well formed and the
word is its encoding (R81 to R83, R86). -/
def Obligations.DecodeEncodeAgree : Prop :=
  ∀ (w : Word) (i : Instr), decode w = .ok i ↔ i.wf = true ∧ encode i = w

/-- The match and mask pairs of R83, and the operand each format carries (R82). -/
def Obligations.OpcodeMatchMask : Prop :=
  (∀ w : Word, w &&& 0xFFFFFFE0#32 = 0x01000000#32 → 1 ≤ (w.extractLsb' 0 5).toNat →
      (w.extractLsb' 0 5).toNat ≤ 16 → decode w = .ok (.rdbits (w.extractLsb' 0 5)))
  ∧ (∀ w : Word, w &&& 0xFFFFFFFE#32 = 0x02000000#32 →
      decode w = .ok (.rdhuf (if w.getLsbD 0 then .mag else .pd)))
  ∧ (∀ w : Word, w &&& 0xFFFFFFFE#32 = 0x03000000#32 →
      decode w = .ok (.rdsign (if w.getLsbD 0 then .terminator else .strict)))
  ∧ ∀ c ∈ [(0x10000000#32, Instr.ldu16b), (0x11000000#32, .lds16b), (0x12000000#32, .ldu24b),
        (0x13000000#32, .lds24b), (0x14000000#32, .ldu16l), (0x18000000#32, .stu16b),
        (0x19000000#32, .sts16b), (0x1A000000#32, .stu24b), (0x1B000000#32, .sts24b),
        (0x20000000#32, .swap16), (0x28000000#32, .crchdr), (0x30000000#32, .pdInit),
        (0x31000000#32, .pdStep), (0x32000000#32, .pdGap), (0x38000000#32, .magPkt)],
      decode c.1 = .ok c.2

/-- A few command words, written out from R83 and R89. -/
def Obligations.WrittenWordsDecode : Prop :=
  decode 0x01000004#32 = .ok (.rdbits 4#5) ∧ decode 0x02000001#32 = .ok (.rdhuf .mag)
    ∧ decode 0x03000000#32 = .ok (.rdsign .strict) ∧ decode 0x14000000#32 = .ok .ldu16l
    ∧ decode 0x1B000000#32 = .ok .sts24b ∧ decode 0x28000000#32 = .ok .crchdr
    ∧ decode 0x31000000#32 = .ok .pdStep ∧ decode 0x38000000#32 = .ok .magPkt

/-- R87: a command word is legal exactly as `LegalWord` says; the host's write of any other word to CMD
(FATAL being 0) records the fatal error ILLEGAL with ERRPTR = w and changes nothing else. -/
def Obligations.IllegalWordsRecorded : Prop :=
  (∀ w : Word, (∃ i, decode w = .ok i) ↔ LegalWord w)
  ∧ (∀ (s : State) (w : Word) (rest : List BusEvent),
      s.hostQueue = issueEvent w :: rest → s.status.fatal = false → ¬ LegalWord w →
      step s = .next (afterFatalError (w.extractLsb' 24 8) 0x10#8 w
        { s with hostQueue := rest, readData := none }))
  ∧ ¬ LegalWord 0x00000000#32

/-! ## Steps and host accesses (10_state.md, 20_memory.md, 30_encoding.md R80) -/

/-- A step runs the decoded command: with a CMD write next in the queue and FATAL 0, the step is exec of
the decoded command, the event being taken from the queue and the last read's data dropped (the queue is
log 1, the data log 2). -/
def Obligations.StepRunsDecodedCommand : Prop :=
  ∀ (s : State) (w : Word) (i : Instr) (rest : List BusEvent),
    s.hostQueue = .write 0x0000C#18 (.b4 w) :: rest → s.status.fatal = false → decode w = .ok i →
    step s = exec i { s with hostQueue := rest, readData := none }

/-- With no host access the block does nothing (70_reset_and_hazards.md R245; the step on an empty queue
is log 1). -/
def Obligations.IdleStepChangesNothing : Prop :=
  ∀ s : State, s.hostQueue = [] → step s = .next s

/-- While FATAL is 1 a CMD write is ignored, and the host's write of STATUS bit 1 lets the next CMD write
execute (60_exceptions.md R205, R208). -/
def Obligations.FatalGate : Prop :=
  ∀ (s : State) (w : Word) (rest : List BusEvent), s.status.fatal = true →
    (s.hostQueue = .write 0x0000C#18 (.b4 w) :: rest →
      step s = .next { s with hostQueue := rest, readData := none })
    ∧ ∀ (v : Word) (i : Instr), v.getLsbD 1 = true → v.getLsbD 0 = false → decode w = .ok i →
      s.hostQueue = .write 0x00008#18 (.b4 v) :: .write 0x0000C#18 (.b4 w) :: rest →
      ∃ t, step s = .next t
        ∧ step t = exec i { s with
            hostQueue := rest, readData := none, status := { s.status with fatal := false } }

/-- The reset input leaves every register at its value of R53, as the host reads it, and every memory cell
without a value; CRCCFG holds the OPEN parameter, which nothing fixes (log 3), and the host's further
accesses stay queued (log 7). -/
def Obligations.ResetValues : Prop :=
  (∀ (s : State) (rest : List BusEvent), s.hostQueue = .reset :: rest →
      step s = .next { State.reset with hostQueue := rest })
    ∧ (∀ c, c ≠ .crccfg → readCsr State.reset c
        = if c = .id then 0x48504401#32 else if c = .ctrl then 0x00000010#32 else 0#32)
    ∧ readCsr State.reset .crccfg = Config.crccfgRst.setWidth 32
    ∧ (∀ (t : Bank) (i : Fin 256), (State.reset.bank t)[i].toWord = 0#32)
    ∧ ∀ a, State.reset.buf.read a = none ∧ State.reset.acc.read a = none
        ∧ State.reset.oram.read a = none

/-- A write of a read and write register stores the word, in the fields the register has, and does nothing
else; a write of DERRCNT clears it (R24, R29, R30, R32, R35, R38, R41, 20_memory.md R69). -/
def Obligations.RegisterWritesOnlyStore : Prop :=
  ∀ (s : State) (w : Word) (rest : List BusEvent),
    let s' : State := { s with hostQueue := rest, readData := none }
    let writes (a : HostAddr) (t : State) : Prop :=
      s.hostQueue = .write a (.b4 w) :: rest → step s = .next t
    writes 0x00010#18 { s' with opa := w } ∧ writes 0x00014#18 { s' with opb := w }
      ∧ writes 0x00018#18 { s' with bitptr := w } ∧ writes 0x0001C#18 { s' with bitend := w }
      ∧ writes 0x00040#18 { s' with owptr := w } ∧ writes 0x00054#18 { s' with pdMark := w }
      ∧ writes 0x00058#18 { s' with pdTag := w } ∧ writes 0x0005C#18 { s' with pdVals := w }
      ∧ writes 0x00060#18 { s' with pdVlen := w } ∧ writes 0x00034#18 { s' with derrcnt := 0#32 }
      ∧ writes 0x00028#18 { s' with crccfg :=
          { poly := w.extractLsb' 0 8, init := w.extractLsb' 8 8, xorout := w.extractLsb' 16 8,
            refin := w.getLsbD 24, refout := w.getLsbD 25 } }

/-- A word written to a read and write register reads back, its reserved bits as 0 (R22, R24, R32,
R43). -/
def Obligations.RegisterWritesReadBack : Prop :=
  ∀ (s : State) (w : Word) (rest : List BusEvent),
    ∀ c ∈ [(0x00004#18, 0x00FF1F7F#32), (0x00010#18, 0xFFFFFFFF#32), (0x00014#18, 0xFFFFFFFF#32),
        (0x00018#18, 0xFFFFFFFF#32), (0x0001C#18, 0xFFFFFFFF#32), (0x00028#18, 0x03FFFFFF#32),
        (0x00040#18, 0xFFFFFFFF#32), (0x00054#18, 0xFFFFFFFF#32), (0x00058#18, 0xFFFFFFFF#32),
        (0x0005C#18, 0xFFFFFFFF#32), (0x00060#18, 0xFFFFFFFF#32)],
      s.hostQueue = .write c.1 (.b4 w) :: .read c.1 .b4 :: rest →
      ∃ t u, step s = .next t ∧ step t = .next u ∧ u.readData = some (.b4 (w &&& c.2))

/-- R25: a write to CTRL stores its fields; if it changes SECT, INNER, TAGHI, SUBTAG or LTIDX it also
abandons the PD chain, and otherwise leaves PDSTATE. -/
def Obligations.CtrlWriteAbandonsChain : Prop :=
  ∀ (s : State) (w : Word) (rest : List BusEvent), s.hostQueue = .write 0x00004#18 (.b4 w) :: rest →
    let c : Ctrl :=
      { sect := w.extractLsb' 0 5, inner := w.getLsbD 5, taghi := w.getLsbD 6,
        subtag := w.extractLsb' 8 4, mshift := w.getLsbD 12, ltidx := w.extractLsb' 16 8 }
    let changed : Prop :=
      c.sect ≠ s.ctrl.sect ∨ c.inner ≠ s.ctrl.inner ∨ c.taghi ≠ s.ctrl.taghi
        ∨ c.subtag ≠ s.ctrl.subtag ∨ c.ltidx ≠ s.ctrl.ltidx
    (changed → step s = .next { s with
        hostQueue := rest, readData := none, ctrl := c, pdstate := { inChain := false, ccount := 0#4 } })
      ∧ (¬ changed → step s = .next { s with hostQueue := rest, readData := none, ctrl := c })

/-- R27: STATUS is write 1 to clear for DERR and FATAL, with no other effect. -/
def Obligations.StatusWriteClears : Prop :=
  ∀ (s : State) (w : Word) (rest : List BusEvent), s.hostQueue = .write 0x00008#18 (.b4 w) :: rest →
    step s = .next { s with
      hostQueue := rest, readData := none,
      status := { s.status with
        derr := if w.getLsbD 0 then false else s.status.derr
        fatal := if w.getLsbD 1 then false else s.status.fatal } }

/-- A write of a read-only register or of the ACC window is accepted and ignored (R43, R46). -/
def Obligations.ReadOnlyWritesIgnored : Prop :=
  ∀ (s : State) (w : Word) (rest : List BusEvent) (a : HostAddr),
    a ∈ [0x00000#18, 0x00020#18, 0x00024#18, 0x0002C#18, 0x00030#18, 0x00038#18, 0x0003C#18,
        0x00044#18, 0x00048#18, 0x0004C#18, 0x00050#18, 0x00064#18]
      ∨ (∃ i : Nat, i < 256 ∧ a = BitVec.ofNat 18 (0x2000 + 4 * i)) →
    s.hostQueue = .write a (.b4 w) :: rest →
    step s = .next { s with hostQueue := rest, readData := none }

/-- R64: a host access is a bus error exactly where `Mapped` fails; it is a fault of the host step, which
leaves no state behind, and no other access faults with a bus error. -/
def Obligations.BusErrors : Prop :=
  (∀ (s : State) (a b : HostAddr) (n : AccessSize) (rest : List BusEvent),
      s.hostQueue = .read a n :: rest →
      (step s = .fault (.busError b) ↔ b = a ∧ ¬ Mapped a.toNat n.bytes))
  ∧ ∀ (s : State) (a b : HostAddr) (d : BusData) (rest : List BusEvent),
      s.hostQueue = .write a d :: rest →
      (step s = .fault (.busError b) ↔ b = a ∧ ¬ Mapped a.toNat d.size.bytes)

/-- Reading any register or window has no side effect: whatever a read answers, all it leaves is the data
(R43, 20_memory.md R69; where the data stands is log 2). -/
def Obligations.ReadsHaveNoSideEffect : Prop :=
  ∀ (s t : State) (a : HostAddr) (n : AccessSize) (rest : List BusEvent),
    s.hostQueue = .read a n :: rest → step s = .next t →
    ∃ d, d.size = n ∧ t = { s with hostQueue := rest, readData := some d }

/-- Every register and every Huffman entry can be read by the host at its address of R22 and
20_memory.md R61, whatever the state (where each field stands in its word is RegisterLayouts). -/
def Obligations.RegisterReadsAnswer : Prop :=
  ∀ (s : State) (rest : List BusEvent),
    let reads (a : HostAddr) (v : Word) : Prop :=
      s.hostQueue = .read a .b4 :: rest →
      step s = .next { s with hostQueue := rest, readData := some (.b4 v) }
    reads 0x00000#18 0x48504401#32 ∧ reads 0x0000C#18 0#32 ∧ reads 0x00010#18 s.opa
      ∧ reads 0x00014#18 s.opb ∧ reads 0x00018#18 s.bitptr ∧ reads 0x0001C#18 s.bitend
      ∧ reads 0x00020#18 s.res ∧ reads 0x00024#18 s.res2 ∧ reads 0x00030#18 s.pcount
      ∧ reads 0x00034#18 s.derrcnt ∧ reads 0x0003C#18 s.errptr ∧ reads 0x00040#18 s.owptr
      ∧ reads 0x00044#18 s.rowcnt ∧ reads 0x00048#18 s.maccX ∧ reads 0x0004C#18 s.maccY
      ∧ reads 0x00050#18 s.maccZ ∧ reads 0x00054#18 s.pdMark ∧ reads 0x00058#18 s.pdTag
      ∧ reads 0x0005C#18 s.pdVals ∧ reads 0x00060#18 s.pdVlen
      ∧ reads 0x00064#18 (s.spin.setWidth 32)
      ∧ reads 0x00004#18 s.ctrl.toWord ∧ reads 0x00008#18 s.status.toWord
      ∧ reads 0x00028#18 s.crccfg.toWord ∧ reads 0x0002C#18 s.pdstate.toWord
      ∧ reads 0x00038#18 s.errinfo.toWord
      ∧ (∀ i : Fin 256, reads (BitVec.ofNat 18 (0x1000 + 4 * i.val)) s.ht0[i].toWord
          ∧ reads (BitVec.ofNat 18 (0x1400 + 4 * i.val)) s.ht1[i].toWord)

/-- Where the host sees each field of a register or table entry: the bit positions of R24, R26, R32, R33,
R36 and R44, the reserved bits reading 0. -/
def Obligations.RegisterLayouts : Prop :=
  (∀ (f : Status) (k : Nat), f.toWord.getLsbD k
      = ([f.derr, f.fatal, f.lastOk, f.crcOk, f.lenOdd, f.pvalid, f.hdr, f.term].getD k false))
  ∧ (∀ c : Ctrl, c.toWord = 0#8 ++ c.ltidx ++ 0#3 ++ BitVec.ofBool c.mshift ++ c.subtag ++ 0#1
      ++ BitVec.ofBool c.taghi ++ BitVec.ofBool c.inner ++ c.sect)
  ∧ (∀ c : CrcCfg, c.toWord = 0#6 ++ BitVec.ofBool c.refout ++ BitVec.ofBool c.refin ++ c.xorout
      ++ c.init ++ c.poly)
  ∧ (∀ p : PdState, p.toWord = 0#24 ++ p.ccount ++ 0#3 ++ BitVec.ofBool p.inChain)
  ∧ (∀ e : ErrInfo, e.toWord = 0#16 ++ e.op ++ e.code)
  ∧ ∀ e : HuffEntry, e.toWord = BitVec.ofBool e.valid ++ 0#3 ++ e.len ++ e.pat ++ 0#4 ++ e.code

/-- R44: the host writes entry i of a Huffman bank; it reads back with its reserved bits 0, and no other
entry and no other state changes. -/
def Obligations.HuffmanEntryWrite : Prop :=
  ∀ (s : State) (t : Bank) (i : Fin 256) (w : Word) (rest : List BusEvent),
    s.hostQueue = .write (BitVec.ofNat 18 ((if t = .pd then 0x1000 else 0x1400) + 4 * i.val)) (.b4 w)
      :: rest →
    ∃ bank : HuffBank,
      step s = .next (if t = .pd then { s with hostQueue := rest, readData := none, ht0 := bank }
        else { s with hostQueue := rest, readData := none, ht1 := bank })
      ∧ bank[i].toWord = w &&& 0x8FFFF0FF#32 ∧ bank[i].valid = w.getLsbD 31
      ∧ bank[i].len = w.extractLsb' 24 4 ∧ bank[i].pat = w.extractLsb' 12 12
      ∧ bank[i].code = w.extractLsb' 0 8
      ∧ ∀ j, j ≠ i → bank[j] = (s.bank t)[j]

/-- Host accesses of BUF, of each width and at every aligned address: a write stores byte k of the access
at address a + k and changes nothing else, a read answers the bytes in the same lanes, and a read of a byte
that holds no value is a fault (R54, log 4). So a 4-byte write of w and then a 1-byte read of the second
byte give data bits [15:8] of w (20_memory.md R62, R65, R67). -/
def Obligations.BufMixedWidth : Prop :=
  (∀ (s : State) (a : Nat) (d : BusData) (rest : List BusEvent),
      a % (laneBytes d).length = 0 → a + (laneBytes d).length ≤ 32768 →
      (s.hostQueue = .write (BitVec.ofNat 18 (0x10000 + a)) d :: rest →
        ∃ m, step s = .next { s with hostQueue := rest, readData := none, buf := m }
          ∧ BytesAt m a (laneBytes d)
          ∧ ∀ x, x < a ∨ a + (laneBytes d).length ≤ x → m.read x = s.buf.read x)
      ∧ (s.hostQueue = .read (BitVec.ofNat 18 (0x10000 + a)) d.size :: rest →
        (BytesAt s.buf a (laneBytes d) →
          step s = .next { s with hostQueue := rest, readData := some d })
        ∧ ∀ x, FirstUnwritten s.buf a (laneBytes d).length x →
          step s = .fault (.unwritten .buf x)))
  ∧ ∀ (s : State) (a : Nat) (w : Word) (rest : List BusEvent), a % 4 = 0 → a + 4 ≤ 32768 →
    s.hostQueue = .write (BitVec.ofNat 18 (0x10000 + a)) (.b4 w)
      :: .read (BitVec.ofNat 18 (0x10000 + a + 1)) .b1 :: rest →
    ∃ m, step s = .next { s with
          hostQueue := .read (BitVec.ofNat 18 (0x10000 + a + 1)) .b1 :: rest, readData := none, buf := m }
      ∧ BytesAt m a [w.extractLsb' 0 8, w.extractLsb' 8 8, w.extractLsb' 16 8, w.extractLsb' 24 8]
      ∧ (∀ x, x < a ∨ a + 4 ≤ x → m.read x = s.buf.read x)
      ∧ step { s with
          hostQueue := .read (BitVec.ofNat 18 (0x10000 + a + 1)) .b1 :: rest, readData := none, buf := m }
        = .next { s with
          hostQueue := rest, readData := some (.b1 (w.extractLsb' 8 8)), buf := m }

/-- The host writes an ORAM word and reads it back; every other cell keeps its value (R48, 20_memory.md
R61, R69). A read answers the word that stands there, and the read of a word that holds no value is a fault
(R54, log 4; the four cells of a word are log 11). -/
def Obligations.OramWriteReadsBack : Prop :=
  (∀ (s : State) (k : Nat) (w : Word) (rest : List BusEvent), k < 32768 →
    s.hostQueue = .write (BitVec.ofNat 18 (0x20000 + 4 * k)) (.b4 w)
      :: .read (BitVec.ofNat 18 (0x20000 + 4 * k)) .b4 :: rest →
    ∃ m, step s = .next { s with
          hostQueue := .read (BitVec.ofNat 18 (0x20000 + 4 * k)) .b4 :: rest, readData := none, oram := m }
      ∧ OramWord m k w
      ∧ (∀ x, x < 4 * k ∨ 4 * k + 4 ≤ x → m.read x = s.oram.read x)
      ∧ step { s with
          hostQueue := .read (BitVec.ofNat 18 (0x20000 + 4 * k)) .b4 :: rest, readData := none, oram := m }
        = .next { s with hostQueue := rest, readData := some (.b4 w), oram := m })
  ∧ ∀ (s : State) (k : Nat) (rest : List BusEvent), k < 32768 →
    s.hostQueue = .read (BitVec.ofNat 18 (0x20000 + 4 * k)) .b4 :: rest →
    (∀ w, OramWord s.oram k w →
      step s = .next { s with hostQueue := rest, readData := some (.b4 w) })
    ∧ ∀ x, FirstUnwritten s.oram (4 * k) 4 x → step s = .fault (.unwritten .oram x)

/-- The host reads a slot of ACC in bits [7:0] (R46); the read of a cell that holds no value is a fault
(R54, log 4). -/
def Obligations.AccWindowReads : Prop :=
  ∀ (s : State) (i : Nat) (rest : List BusEvent), i < 256 →
    s.hostQueue = .read (BitVec.ofNat 18 (0x2000 + 4 * i)) .b4 :: rest →
    (∀ v, s.acc.read i = some v →
      step s = .next { s with hostQueue := rest, readData := some (.b4 (v.setWidth 32)) })
    ∧ (s.acc.read i = none → step s = .fault (.unwritten .acc i))

/-! ## The bitstream family (40_bitstream.md) -/

/-- R104: RDBITS n, with every error and the order of its checks. -/
def Obligations.RdbitsResult : Prop :=
  ∀ (n : BitVec 5) (s : State),
    (n.toNat = 0 ∨ 16 < n.toNat → ∀ rest,
        s.hostQueue = issueEvent (0x01000000#32 ||| n.setWidth 32) :: rest → s.status.fatal = false →
        step s = .next (afterFatalError 0x01#8 0x10#8 (0x01000000#32 ||| n.setWidth 32)
          { s with hostQueue := rest, readData := none }))
    ∧ (1 ≤ n.toNat → n.toNat ≤ 16 →
        encode (.rdbits n) = 0x01000000#32 ||| n.setWidth 32
        ∧ (8 * Config.bufBytes < s.bitend.toNat →
            exec (.rdbits n) s = .next (afterFatalError 0x01#8 0x13#8 s.bitend s))
        ∧ (s.bitend.toNat ≤ 8 * Config.bufBytes → s.bitend.toNat < s.bitptr.toNat →
            exec (.rdbits n) s = .next (afterFatalError 0x01#8 0x13#8 s.bitptr s))
        ∧ (StreamOk s → s.bitend.toNat - s.bitptr.toNat < n.toNat →
            exec (.rdbits n) s = .next (afterDecodeError 0x01#8 0x05#8 s.bitptr s))
        ∧ ∀ l : List Bool, StreamOk s → l.length = n.toNat → BitsAt s s.bitptr.toNat l →
            s.bitptr.toNat + n.toNat ≤ s.bitend.toNat →
            exec (.rdbits n) s = .next { succeeded s with
              res := BitVec.ofNat 32 (natOfBits l), res2 := n.setWidth 32
              bitptr := BitVec.ofNat 32 (s.bitptr.toNat + n.toNat) })

/-- R107: RDHUF t, with every error. -/
def Obligations.RdhufResult : Prop :=
  ∀ (t : Bank) (s : State),
    encode (.rdhuf t) = (if t = .pd then 0x02000000#32 else 0x02000001#32)
    ∧ (8 * Config.bufBytes < s.bitend.toNat →
        exec (.rdhuf t) s = .next (afterFatalError 0x02#8 0x13#8 s.bitend s))
    ∧ (s.bitend.toNat ≤ 8 * Config.bufBytes → s.bitend.toNat < s.bitptr.toNat →
        exec (.rdhuf t) s = .next (afterFatalError 0x02#8 0x13#8 s.bitptr s))
    ∧ (∀ code, StreamOk s → CodeFails s t s.bitptr.toNat code →
        exec (.rdhuf t) s = .next (afterDecodeError 0x02#8 code s.bitptr s))
    ∧ ∀ code q, StreamOk s → CodeAt s t s.bitptr.toNat code q →
        exec (.rdhuf t) s = .next { succeeded s with
          res := code.setWidth 32, res2 := BitVec.ofNat 32 (q - s.bitptr.toNat)
          bitptr := BitVec.ofNat 32 q }

/-- The Huffman round trip (R107, on a bank well formed by 10_state.md R45): a stream that begins with the
key of a valid entry gives that entry's code and leaves exactly the bits after the key. -/
def Obligations.HuffmanRoundTrip : Prop :=
  ∀ (t : Bank) (s : State) (i : Fin 256) (key rest : List Bool),
    BankWellFormed (s.bank t) → IsKey (s.bank t) i key → 1 ≤ key.length → key.length ≤ 12 →
    StreamOk s → s.bitend.toNat = s.bitptr.toNat + key.length + rest.length →
    BitsAt s s.bitptr.toNat (key ++ rest) →
    ∃ u, exec (.rdhuf t) s = .next u ∧ u.status.lastOk = true
      ∧ u.res = (s.bank t)[i].code.setWidth 32 ∧ u.res2 = BitVec.ofNat 32 key.length
      ∧ u.bitend = s.bitend ∧ u.bitend.toNat = u.bitptr.toNat + rest.length
      ∧ BitsAt u u.bitptr.toNat rest

/-- R109 with R108: RDSIGN m, with every error; the terminator is not consumed. -/
def Obligations.RdsignResult : Prop :=
  ∀ (m : SignMode) (s : State),
    encode (.rdsign m) = (if m = .strict then 0x03000000#32 else 0x03000001#32)
    ∧ (8 * Config.bufBytes < s.bitend.toNat →
        exec (.rdsign m) s = .next (afterFatalError 0x03#8 0x13#8 s.bitend s))
    ∧ (s.bitend.toNat ≤ 8 * Config.bufBytes → s.bitend.toNat < s.bitptr.toNat →
        exec (.rdsign m) s = .next (afterFatalError 0x03#8 0x13#8 s.bitptr s))
    ∧ (StreamOk s → s.bitend.toNat < s.bitptr.toNat + 2 →
        exec (.rdsign m) s = .next (afterDecodeError 0x03#8 0x04#8 s.bitptr s))
    ∧ (StreamOk s → s.bitptr.toNat + 2 ≤ s.bitend.toNat →
        (BitsAt s s.bitptr.toNat [false, false] →
          exec (.rdsign m) s = .next { s with
            res := 0x00000001#32, res2 := 2#32, bitptr := BitVec.ofNat 32 (s.bitptr.toNat + 2)
            status := { s.status with lastOk := true, term := false } })
        ∧ (BitsAt s s.bitptr.toNat [false, true] →
          exec (.rdsign m) s = .next { s with
            res := 0xFFFFFFFF#32, res2 := 2#32, bitptr := BitVec.ofNat 32 (s.bitptr.toNat + 2)
            status := { s.status with lastOk := true, term := false } })
        ∧ (BitsAt s s.bitptr.toNat [true, false] →
          exec (.rdsign m) s = .next (afterDecodeError 0x03#8 0x03#8 s.bitptr s))
        ∧ (BitsAt s s.bitptr.toNat [true, true] →
          exec (.rdsign m) s
            = .next (if m = .terminator then { s with
                  res := 0#32, res2 := 0#32, status := { s.status with lastOk := true, term := true } }
                else afterDecodeError 0x03#8 0x03#8 s.bitptr s)))

/-! ## The byte-order mux family (41_bytecodec.md) -/

/-- R121, R122, R125: LDU16B, LDS16B and LDU16L. -/
def Obligations.Unpack16Result : Prop :=
  encode .ldu16b = 0x10000000#32 ∧ encode .lds16b = 0x11000000#32 ∧ encode .ldu16l = 0x14000000#32
  ∧ ∀ s : State,
    (32768 < s.opa.toNat + 2 →
      exec .ldu16b s = .next (afterFatalError 0x10#8 0x13#8 s.opa s)
      ∧ exec .lds16b s = .next (afterFatalError 0x11#8 0x13#8 s.opa s)
      ∧ exec .ldu16l s = .next (afterFatalError 0x14#8 0x13#8 s.opa s))
    ∧ ∀ b0 b1 : Byte, s.opa.toNat + 2 ≤ 32768 → BytesAt s.buf s.opa.toNat [b0, b1] →
      exec .ldu16b s = .next { succeeded s with res := 0#16 ++ b0 ++ b1 }
      ∧ exec .lds16b s = .next { succeeded s with res := (b0 ++ b1).signExtend 32 }
      ∧ exec .ldu16l s = .next { succeeded s with res := 0#16 ++ b1 ++ b0 }

/-- R123, R124: LDU24B and LDS24B. -/
def Obligations.Unpack24Result : Prop :=
  encode .ldu24b = 0x12000000#32 ∧ encode .lds24b = 0x13000000#32
  ∧ ∀ s : State,
    (32768 < s.opa.toNat + 3 →
      exec .ldu24b s = .next (afterFatalError 0x12#8 0x13#8 s.opa s)
      ∧ exec .lds24b s = .next (afterFatalError 0x13#8 0x13#8 s.opa s))
    ∧ ∀ b0 b1 b2 : Byte, s.opa.toNat + 3 ≤ 32768 → BytesAt s.buf s.opa.toNat [b0, b1, b2] →
      exec .ldu24b s = .next { succeeded s with res := 0#8 ++ b0 ++ b1 ++ b2 }
      ∧ exec .lds24b s = .next { succeeded s with res := (b0 ++ b1 ++ b2).signExtend 32 }

/-- R126, R127: STU16B and STS16B store the low 16 bits of OPB, the more significant byte at OPA, where
OPB is in range; the address check comes first. -/
def Obligations.Pack16Result : Prop :=
  encode .stu16b = 0x18000000#32 ∧ encode .sts16b = 0x19000000#32
  ∧ ∀ s : State,
    (32768 < s.opa.toNat + 2 →
      exec .stu16b s = .next (afterFatalError 0x18#8 0x13#8 s.opa s)
      ∧ exec .sts16b s = .next (afterFatalError 0x19#8 0x13#8 s.opa s))
    ∧ (s.opa.toNat + 2 ≤ 32768 →
      (0xFFFF < s.opb.toNat → exec .stu16b s = .next (afterFatalError 0x18#8 0x15#8 s.opb s))
      ∧ (s.opb.toInt < -32768 ∨ 32767 < s.opb.toInt →
          exec .sts16b s = .next (afterFatalError 0x19#8 0x15#8 s.opb s))
      ∧ ∃ m, (s.opb.toNat ≤ 0xFFFF → exec .stu16b s = .next { succeeded s with buf := m })
        ∧ (-32768 ≤ s.opb.toInt → s.opb.toInt ≤ 32767 →
            exec .sts16b s = .next { succeeded s with buf := m })
        ∧ BytesAt m s.opa.toNat [s.opb.extractLsb' 8 8, s.opb.extractLsb' 0 8]
        ∧ ∀ x, x < s.opa.toNat ∨ s.opa.toNat + 2 ≤ x → m.read x = s.buf.read x)

/-- R128, R129: STU24B and STS24B, in the same way with 24 bits. -/
def Obligations.Pack24Result : Prop :=
  encode .stu24b = 0x1A000000#32 ∧ encode .sts24b = 0x1B000000#32
  ∧ ∀ s : State,
    (32768 < s.opa.toNat + 3 →
      exec .stu24b s = .next (afterFatalError 0x1A#8 0x13#8 s.opa s)
      ∧ exec .sts24b s = .next (afterFatalError 0x1B#8 0x13#8 s.opa s))
    ∧ (s.opa.toNat + 3 ≤ 32768 →
      (0xFFFFFF < s.opb.toNat → exec .stu24b s = .next (afterFatalError 0x1A#8 0x15#8 s.opb s))
      ∧ (s.opb.toInt < -8388608 ∨ 8388607 < s.opb.toInt →
          exec .sts24b s = .next (afterFatalError 0x1B#8 0x15#8 s.opb s))
      ∧ ∃ m, (s.opb.toNat ≤ 0xFFFFFF → exec .stu24b s = .next { succeeded s with buf := m })
        ∧ (-8388608 ≤ s.opb.toInt → s.opb.toInt ≤ 8388607 →
            exec .sts24b s = .next { succeeded s with buf := m })
        ∧ BytesAt m s.opa.toNat
            [s.opb.extractLsb' 16 8, s.opb.extractLsb' 8 8, s.opb.extractLsb' 0 8]
        ∧ ∀ x, x < s.opa.toNat ∨ s.opa.toNat + 3 ≤ x → m.read x = s.buf.read x)

/-- Packing and then unpacking at the same address gives the value back (R121 to R124, R126 to R129). -/
def Obligations.PackThenUnpack : Prop :=
  ∀ c ∈ [(Instr.stu16b, Instr.ldu16b), (.sts16b, .lds16b), (.stu24b, .ldu24b), (.sts24b, .lds24b)],
    ∀ s t : State, exec c.1 s = .next t → t.status.lastOk = true →
      ∃ u, exec c.2 t = .next u ∧ u.status.lastOk = true ∧ u.res = s.opb

/-- R130: SWAP16 swaps each adjacent pair of the OPB bytes at OPA, with its two errors. -/
def Obligations.Swap16Result : Prop :=
  encode .swap16 = 0x20000000#32
  ∧ ∀ s : State,
    (32768 < s.opa.toNat + s.opb.toNat → exec .swap16 s = .next (afterFatalError 0x20#8 0x13#8 s.opa s))
    ∧ (s.opa.toNat + s.opb.toNat ≤ 32768 →
      (s.opb.toNat % 2 = 1 → exec .swap16 s = .next (afterFatalError 0x20#8 0x14#8 s.opb s))
      ∧ (s.opb.toNat % 2 = 0 → (∀ k, k < s.opb.toNat → (s.buf.read (s.opa.toNat + k)).isSome) →
        ∃ m, exec .swap16 s = .next { succeeded s with buf := m }
          ∧ (∀ k, 2 * k + 1 < s.opb.toNat →
              m.read (s.opa.toNat + 2 * k) = s.buf.read (s.opa.toNat + 2 * k + 1)
              ∧ m.read (s.opa.toNat + 2 * k + 1) = s.buf.read (s.opa.toNat + 2 * k))
          ∧ ∀ x, x < s.opa.toNat ∨ s.opa.toNat + s.opb.toNat ≤ x → m.read x = s.buf.read x))

/-- SWAP16 of the same range twice restores every byte (R130, its corner case). -/
def Obligations.Swap16TwiceRestores : Prop :=
  ∀ s t : State, exec .swap16 s = .next t → t.status.lastOk = true →
    ∃ u, exec .swap16 t = .next u ∧ u.status.lastOk = true ∧ ∀ a, u.buf.read a = s.buf.read a

/-! ## The CRC validator (42_crc.md) -/

/-- R142: CRCHDR computes the CRC of bytes 1 to 11, compares it with byte 12 and extracts the length. -/
def Obligations.CrchdrResult : Prop :=
  encode .crchdr = 0x28000000#32
  ∧ ∀ s : State,
    (32768 < s.opa.toNat + 13 → exec .crchdr s = .next (afterFatalError 0x28#8 0x13#8 s.opa s))
    ∧ ∀ (bytes : List Byte) (stored lo hi : Byte),
      s.opa.toNat + 13 ≤ 32768 → bytes.length = 11 → BytesAt s.buf (s.opa.toNat + 1) bytes →
      bytes.take 2 = [lo, hi] → s.buf.read (s.opa.toNat + 12) = some stored →
      exec .crchdr s = .next { s with
        res := (crc8 s.crccfg bytes).setWidth 32
        res2 := BitVec.ofInt 32 (((lo.toNat + 256 * hi.toNat) / 2 : Nat) - 12 : Int)
        status := { s.status with
          lastOk := true, crcOk := decide (crc8 s.crccfg bytes = stored), lenOdd := lo.getLsbD 0 } }

/-- The CRC-8 function of R141 at the two check values the rule gives (general knowledge by the spec's own
mark, log 20). -/
def Obligations.CrcCheckValues : Prop :=
  let digits : List Byte :=
    [0x31#8, 0x32#8, 0x33#8, 0x34#8, 0x35#8, 0x36#8, 0x37#8, 0x38#8, 0x39#8]
  crc8 { poly := 0x07#8, init := 0x00#8, xorout := 0x00#8, refin := false, refout := false } digits
      = 0xF4#8
    ∧ crc8 { poly := 0x31#8, init := 0x00#8, xorout := 0x00#8, refin := true, refout := true } digits
      = 0xA1#8

/-- A corruption confined to one byte of the CRC input is always reported: with an odd polynomial, two
frame headers that differ in exactly one of bytes 1 to 11 cannot both agree with the same check byte (a
consequence of R141 and R142; the function is log 20). -/
def Obligations.CrcDetectsByteErrors : Prop :=
  ∀ (s s' t t' : State) (k : Nat), s.crccfg.poly.getLsbD 0 = true → s'.crccfg = s.crccfg →
    s'.opa = s.opa → 1 ≤ k → k ≤ 11 →
    s'.buf.read (s.opa.toNat + k) ≠ s.buf.read (s.opa.toNat + k) →
    (∀ j, j ≤ 12 → j ≠ k → s'.buf.read (s.opa.toNat + j) = s.buf.read (s.opa.toNat + j)) →
    exec .crchdr s = .next t → exec .crchdr s' = .next t' →
    t.status.lastOk = true → t.status.crcOk = true → t'.status.lastOk = true → t'.status.crcOk = false

/-! ## The particle-detector integrator (43_pd_integrator.md) -/

/-- R152 and R161: PD_INIT starts a stream, PD_GAP processes a missing packet. -/
def Obligations.PdInitAndGapResult : Prop :=
  encode .pdInit = 0x30000000#32 ∧ encode .pdGap = 0x32000000#32
  ∧ ∀ s : State,
    exec .pdInit s = .next { s with
      pdstate := { inChain := false, ccount := 0#4 }, pcount := 0#32
      status := { s.status with lastOk := true, pvalid := false, hdr := false } }
    ∧ exec .pdGap s = .next { s with
      pdstate := { inChain := false, ccount := 0#4 }
      status := { s.status with lastOk := true, pvalid := false, hdr := false } }

/-- R151: PD_STEP on a configuration it does not accept, SECT being checked first. -/
def Obligations.PdConfigErrors : Prop :=
  ∀ s : State,
    (s.ctrl.sect ≠ 4#5 → s.ctrl.sect ≠ 16#5 →
      exec .pdStep s = .next (afterFatalError 0x31#8 0x11#8 (s.ctrl.sect.setWidth 32) s))
    ∧ ((s.ctrl.sect = 4#5 ∨ s.ctrl.sect = 16#5) → 0x55 < s.ctrl.ltidx.toNat →
      exec .pdStep s = .next (afterFatalError 0x31#8 0x12#8 (s.ctrl.ltidx.setWidth 32) s))

/-- The address errors of PD_STEP, in the order of R154 and 60_exceptions.md R207, each leaving nothing
but its record. -/
def Obligations.PdAddressErrors : Prop :=
  ∀ s : State, PdConfigOk s →
    (32768 ≤ s.pdMark.toNat → exec .pdStep s = .next (afterFatalError 0x31#8 0x13#8 s.pdMark s))
    ∧ (HeaderMarked s →
      (s.ctrl.inner = true → 32768 ≤ s.pdTag.toNat →
        exec .pdStep s = .next (afterFatalError 0x31#8 0x13#8 s.pdTag s))
      ∧ (TagAccepted s → s.pdVlen.toNat = slotCount s → 32768 < s.pdVals.toNat + slotCount s →
        exec .pdStep s = .next (afterFatalError 0x31#8 0x13#8 s.pdVals s)))
    ∧ (ContinuationMarked s → s.pdstate.inChain = true →
      (8 * Config.bufBytes < s.bitend.toNat →
        exec .pdStep s = .next (afterFatalError 0x31#8 0x13#8 s.bitend s))
      ∧ (s.bitend.toNat ≤ 8 * Config.bufBytes → s.bitend.toNat < s.bitptr.toNat →
        exec .pdStep s = .next (afterFatalError 0x31#8 0x13#8 s.bitptr s)))

/-- R156 with R155: PD_STEP on a header packet. An accepted header loads the slots, and SPIN in the inner
stream, and starts a chain; a wrong sub-type tag, then a wrong length, is a decode error after `seek()`. -/
def Obligations.PdHeaderResult : Prop :=
  encode .pdStep = 0x31000000#32
  ∧ ∀ s : State, PdConfigOk s → HeaderMarked s →
    (TagRejected s →
      exec .pdStep s = .next (afterDecodeError 0x31#8 0x08#8 s.pdTag (chainAbandoned true s)))
    ∧ (TagAccepted s → s.pdVlen.toNat ≠ slotCount s →
      exec .pdStep s = .next (afterDecodeError 0x31#8 0x07#8 s.pdVlen (chainAbandoned true s)))
    ∧ ∀ (values : List Byte) (spin : BitVec 4),
      TagAccepted s → s.pdVlen.toNat = slotCount s → s.pdVals.toNat + slotCount s ≤ 32768 →
      values.length = slotCount s → BytesAt s.buf s.pdVals.toNat values →
      (s.ctrl.inner = false → spin = s.spin) →
      (∀ side, s.ctrl.inner = true → SideByte s side → spin = nibble (!s.ctrl.taghi) side) →
      ∃ m, exec .pdStep s = .next { s with
          acc := m, spin := spin, pdstate := { inChain := true, ccount := 0#4 }
          pcount := s.pcount + 1#32
          status := { s.status with lastOk := true, pvalid := true, hdr := true } }
        ∧ BytesAt m 0 values ∧ ∀ i, slotCount s ≤ i → m.read i = s.acc.read i

/-- R157 to R159: PD_STEP on a continuation whose deltas all integrate: the slots take their new values,
BITPTR moves past the last delta, CCOUNT counts, and the ninth continuation ends the chain. R157 enters a
continuation with CCOUNT at most 8 only; StepKeepsChainSound keeps that. -/
def Obligations.PdContinuationIntegrates : Prop :=
  ∀ (s : State) (old new : List Byte) (q : Nat), PdConfigOk s → ContinuationMarked s →
    s.pdstate.inChain = true → s.pdstate.ccount.toNat ≤ 8 → StreamOk s →
    old.length = 16 * s.ctrl.sect.toNat →
    BytesAt s.acc 0 old → PdDeltas s s.bitptr.toNat old new q →
    ∃ m, exec .pdStep s = .next { s with
        acc := m, bitptr := BitVec.ofNat 32 q, pcount := s.pcount + 1#32
        pdstate :=
          { inChain := decide (s.pdstate.ccount + 1#4 ≠ 9#4), ccount := s.pdstate.ccount + 1#4 }
        status := { s.status with lastOk := true, pvalid := true, hdr := false } }
      ∧ new.length = old.length ∧ BytesAt m 0 new
      ∧ ∀ i, old.length ≤ i → m.read i = s.acc.read i

/-- R157, R158: the first slot whose delta fails is the one reported, the chain is abandoned and nothing of
the packet is committed. -/
def Obligations.PdContinuationFailure : Prop :=
  ∀ (s : State) (before before' after : List Byte) (slot : Byte) (p : Nat) (code : Byte) (ptr : Nat),
    PdConfigOk s → ContinuationMarked s → s.pdstate.inChain = true → StreamOk s →
    (before ++ slot :: after).length = 16 * s.ctrl.sect.toNat →
    BytesAt s.acc 0 (before ++ slot :: after) → PdDeltas s s.bitptr.toNat before before' p →
    PdFailure s p slot code ptr →
    exec .pdStep s
      = .next (afterDecodeError 0x31#8 code (BitVec.ofNat 32 ptr) (chainAbandoned false s))

/-- R160: in SeekingHeader a packet that is not a header is skipped without error. -/
def Obligations.PdSeekingSkips : Prop :=
  ∀ s : State, PdConfigOk s → ContinuationMarked s → s.pdstate.inChain = false →
    exec .pdStep s = .next { s with
      status := { s.status with lastOk := true, pvalid := false, hdr := false } }

/-! ## The magnetometer integrator (44_mag_integrator.md) -/

/-- R181: the precondition checks of MAG_PKT, in order, before any state changes. -/
def Obligations.MagPreconditionErrors : Prop :=
  ∀ s : State,
    (32768 < s.opa.toNat + 9 → exec .magPkt s = .next (afterFatalError 0x38#8 0x13#8 s.opa s))
    ∧ (s.opa.toNat + 9 ≤ 32768 →
      (8 * 32768 < s.bitend.toNat → exec .magPkt s = .next (afterFatalError 0x38#8 0x13#8 s.bitend s))
      ∧ (s.bitend.toNat ≤ 8 * 32768 → s.bitend.toNat < s.bitptr.toNat →
        exec .magPkt s = .next (afterFatalError 0x38#8 0x13#8 s.bitptr s))
      ∧ (StreamOk s → 32768 < s.owptr.toNat + 3 →
        exec .magPkt s = .next (afterFatalError 0x38#8 0x16#8 s.owptr s)))

/-- MAG_PKT from the header triple to a normal end (R182 to R189): the accumulators hold the header plus
the deltas of their axis, every completed triple has its row, and the packet ends at the row limit, with
fewer than 2 bits left, or at the terminator, which is not consumed. -/
def Obligations.MagRunningSums : Prop :=
  ∀ (s : State) (x y z : Int) (ds : List Int) (q : Nat) (term : Bool), MagProgress s x y z ds q →
    s.owptr.toNat + 3 * (1 + ds.length / 3) ≤ 32768 →
    (term = false ∧ (LimitReached s (1 + ds.length / 3) ∨ s.bitend.toNat < q + 2)
      ∨ term = true ∧ ¬ LimitReached s (1 + ds.length / 3) ∧ q + 2 ≤ s.bitend.toNat
        ∧ BitsAt s q [true, true]) →
    ∃ m, exec .magPkt s = .next { succeeded (magState s x y z ds (1 + ds.length / 3) m term) with
        bitptr := BitVec.ofNat 32 q }
      ∧ MagRows s x y z ds (1 + ds.length / 3) m

/-- MAG_PKT on a delta that cannot be read (R183, R190): the error of the field is recorded; the rows
emitted, OWPTR, ROWCNT and MACC stay as they are at the error, BITPTR is unchanged and TERM is 0 (log 16). -/
def Obligations.MagDecodeFailure : Prop :=
  ∀ (s : State) (x y z : Int) (ds : List Int) (q : Nat) (code : Byte) (ptr : Nat),
    MagProgress s x y z ds q → s.owptr.toNat + 3 * (1 + ds.length / 3) ≤ 32768 →
    ¬ LimitReached s (1 + ds.length / 3) → MagFailure s q code ptr →
    ∃ m, exec .magPkt s = .next (afterDecodeError 0x38#8 code (BitVec.ofNat 32 ptr)
        (magState s x y z ds (1 + ds.length / 3) m false))
      ∧ MagRows s x y z ds (1 + ds.length / 3) m

/-- MAG_PKT on a delta that would leave the 32-bit range (R186, R190): MAG_ACC_OVF at the start of that
delta, the accumulator unchanged by it. -/
def Obligations.MagOverflow : Prop :=
  ∀ (s : State) (x y z d : Int) (ds : List Int) (q q' : Nat),
    MagProgress s x y z ds q → s.owptr.toNat + 3 * (1 + ds.length / 3) ≤ 32768 →
    ¬ LimitReached s (1 + ds.length / 3) → MagDeltaAt s q d q' →
    ¬ FitsWord ((if ds.length % 3 = 0 then x else if ds.length % 3 = 1 then y else z)
        + axisSum ds (ds.length % 3) ds.length + d) →
    ∃ m, exec .magPkt s = .next (afterDecodeError 0x38#8 0x09#8 (BitVec.ofNat 32 q)
        (magState s x y z ds (1 + ds.length / 3) m false))
      ∧ MagRows s x y z ds (1 + ds.length / 3) m

/-- MAG_PKT on a completed triple whose row does not fit (R184, R190): ORAM_FULL, MACC holding the triple
that could not be written. -/
def Obligations.MagOramFull : Prop :=
  ∀ (s : State) (x y z : Int) (ds : List Int) (q : Nat), MagProgress s x y z ds q →
    0 < ds.length → ds.length % 3 = 0 →
    s.owptr.toNat + 3 * (ds.length / 3) ≤ 32768 →
    32768 < s.owptr.toNat + 3 * (1 + ds.length / 3) →
    ∃ m, exec .magPkt s = .next (afterFatalError 0x38#8 0x16#8
        (BitVec.ofNat 32 (s.owptr.toNat + 3 * (ds.length / 3)))
        (magState s x y z ds (ds.length / 3) m false))
      ∧ MagRows s x y z ds (ds.length / 3) m

/-- Every executed MAG_PKT, with or without an error: OWPTR ends 3 words further for every row of ROWCNT,
at least the header row is there, and no ORAM cell outside those rows changes (R188, R190, 10_state.md
R38, R39). -/
def Obligations.MagRowPlacement : Prop :=
  ∀ s t : State, MagReady s → exec .magPkt s = .next t →
    1 ≤ t.rowcnt.toNat ∧ t.owptr.toNat = s.owptr.toNat + 3 * t.rowcnt.toNat
      ∧ t.owptr.toNat ≤ 32768
      ∧ ∀ a, a < 4 * s.owptr.toNat ∨ 4 * t.owptr.toNat ≤ a → t.oram.read a = s.oram.read a

/-- 70_reset_and_hazards.md R242: a packet emits at most 1 + (BITEND - BITPTR) div 36 rows, and a host
that leaves room for so many never sees ORAM_FULL. -/
def Obligations.MagRowBound : Prop :=
  ∀ s t : State, MagReady s → exec .magPkt s = .next t →
    t.rowcnt.toNat ≤ 1 + (s.bitend.toNat - s.bitptr.toNat) / 36
    ∧ (s.owptr.toNat + 3 * (1 + (s.bitend.toNat - s.bitptr.toNat) / 36) ≤ 32768 →
        t.status.lastOk = true ∨ t.errinfo.code ≠ 0x16#8)

/-! ## All commands: frames, errors, safety, invariants -/

/-- What no command writes: CTRL, OPA, OPB, BITEND, CRCCFG, the PD descriptor registers and the Huffman
banks (10_state.md R29, R30, R44), nor the model's own fields (logs 1, 2). -/
def Obligations.HostRegistersKept : Prop :=
  ∀ (i : Instr) (s t : State), exec i s = .next t →
    t.ctrl = s.ctrl ∧ t.opa = s.opa ∧ t.opb = s.opb ∧ t.bitend = s.bitend ∧ t.crccfg = s.crccfg
      ∧ t.pdMark = s.pdMark ∧ t.pdTag = s.pdTag ∧ t.pdVals = s.pdVals ∧ t.pdVlen = s.pdVlen
      ∧ t.ht0 = s.ht0 ∧ t.ht1 = s.ht1 ∧ t.hostQueue = s.hostQueue ∧ t.readData = s.readData

/-- Every register, flag and memory a command can write, with the commands that write it (10_state.md R31,
R33, R34, R38 to R40, R42, R46 to R49): any other command leaves it as it was. -/
def Obligations.EachPieceHasItsWriters : Prop :=
  ∀ (i : Instr) (s t : State), exec i s = .next t →
    ((∀ n, i ≠ .rdbits n) → (∀ b, i ≠ .rdhuf b) → (∀ m, i ≠ .rdsign m) →
      (i ∉ [.ldu16b, .lds16b, .ldu24b, .lds24b, .ldu16l, .crchdr] → t.res = s.res)
      ∧ (i ≠ .crchdr → t.res2 = s.res2)
      ∧ (i ∉ [.pdStep, .magPkt] → t.bitptr = s.bitptr))
    ∧ ((∀ m, i ≠ .rdsign m) → i ≠ .magPkt → t.status.term = s.status.term)
    ∧ (i ≠ .crchdr → t.status.crcOk = s.status.crcOk ∧ t.status.lenOdd = s.status.lenOdd)
    ∧ (i ∉ [.pdInit, .pdStep, .pdGap] → t.pdstate = s.pdstate ∧ t.status.pvalid = s.status.pvalid
        ∧ t.status.hdr = s.status.hdr)
    ∧ (i ∉ [.pdInit, .pdStep] → t.pcount = s.pcount)
    ∧ (i ≠ .pdStep → t.spin = s.spin ∧ ∀ a, t.acc.read a = s.acc.read a)
    ∧ (i ≠ .magPkt → t.owptr = s.owptr ∧ t.rowcnt = s.rowcnt ∧ t.maccX = s.maccX ∧ t.maccY = s.maccY
        ∧ t.maccZ = s.maccZ ∧ ∀ a, t.oram.read a = s.oram.read a)
    ∧ (i ∉ [.stu16b, .sts16b, .stu24b, .sts24b, .swap16] → ∀ a, t.buf.read a = s.buf.read a)

/-- What every command records (60_exceptions.md R200, R203, R204, 10_state.md R35, R36): it completes and
leaves the error registers alone, or raises one decode error, which is counted, or one fatal error, which
is not; DERR and FATAL are sticky. -/
def Obligations.ErrorsRecordedExactly : Prop :=
  ∀ (i : Instr) (s t : State), exec i s = .next t →
    (t.status.lastOk = true ∧ t.errinfo = s.errinfo ∧ t.errptr = s.errptr ∧ t.derrcnt = s.derrcnt
        ∧ t.status.derr = s.status.derr ∧ t.status.fatal = s.status.fatal)
    ∨ (t.status.lastOk = false ∧ t.errinfo.op = i.opcode
        ∧ t.errinfo.code ∈ [0x01#8, 0x02#8, 0x03#8, 0x04#8, 0x05#8, 0x06#8, 0x07#8, 0x08#8, 0x09#8]
        ∧ t.derrcnt = s.derrcnt + 1#32 ∧ t.status.derr = true ∧ t.status.fatal = s.status.fatal)
    ∨ (t.status.lastOk = false ∧ t.errinfo.op = i.opcode
        ∧ t.errinfo.code ∈ [0x10#8, 0x11#8, 0x12#8, 0x13#8, 0x14#8, 0x15#8, 0x16#8]
        ∧ t.derrcnt = s.derrcnt ∧ t.status.derr = s.status.derr ∧ t.status.fatal = true)

/-- The errors each well-formed command can raise (60_exceptions.md R201, "raised by"). -/
def Obligations.ErrorCodesPerCommand : Prop :=
  ∀ (i : Instr) (s t : State), i.wf = true → exec i s = .next t → t.status.lastOk = false →
    t.errinfo.code ∈ match i with
      | .rdbits _ => [0x05#8, 0x13#8]
      | .rdhuf _ => [0x01#8, 0x02#8, 0x13#8]
      | .rdsign _ => [0x03#8, 0x04#8, 0x13#8]
      | .ldu16b => [0x13#8]
      | .lds16b => [0x13#8]
      | .ldu24b => [0x13#8]
      | .lds24b => [0x13#8]
      | .ldu16l => [0x13#8]
      | .stu16b => [0x13#8, 0x15#8]
      | .sts16b => [0x13#8, 0x15#8]
      | .stu24b => [0x13#8, 0x15#8]
      | .sts24b => [0x13#8, 0x15#8]
      | .swap16 => [0x13#8, 0x14#8]
      | .crchdr => [0x13#8]
      | .pdInit => []
      | .pdStep => [0x01#8, 0x02#8, 0x03#8, 0x04#8, 0x06#8, 0x07#8, 0x08#8, 0x11#8, 0x12#8, 0x13#8]
      | .pdGap => []
      | .magPkt => [0x01#8, 0x02#8, 0x03#8, 0x05#8, 0x09#8, 0x13#8, 0x16#8]

/-- R206: what an error leaves of a command's own effects: nothing, but for the decode errors of PD_STEP
(PVALID, HDR and `seek()`) and the errors of MAG_PKT's loop, which leave BITPTR and TERM 0 (R190, log 16). -/
def Obligations.ErrorEffects : Prop :=
  ∀ (i : Instr) (s t : State), exec i s = .next t → t.status.lastOk = false →
    let record : State := { s with
      errinfo := t.errinfo, errptr := t.errptr, derrcnt := t.derrcnt
      status := { s.status with derr := t.status.derr, fatal := t.status.fatal, lastOk := false } }
    (i ≠ .pdStep → i ≠ .magPkt → t = record)
    ∧ (i = .pdStep → t = record ∧ t.status.fatal = true
        ∨ t.derrcnt = s.derrcnt + 1#32 ∧ ∃ hdr, t = chainAbandoned hdr record)
    ∧ (i = .magPkt → (¬ MagReady s → t = record)
        ∧ (MagReady s → t.status.term = false) ∧ t.bitptr = s.bitptr ∧ t.res = s.res
        ∧ t.res2 = s.res2 ∧ t.acc = s.acc ∧ t.buf = s.buf ∧ t.pdstate = s.pdstate)

/-- Nothing but an unwritten cell stops a command: with every byte of BUF written and the PD chain sound,
every command answers a next state; and no command is ever refused. -/
def Obligations.CommandsAnswer : Prop :=
  (∀ (i : Instr) (s : State), BufFilled s → ChainSound s → ∃ t, exec i s = .next t)
  ∧ ∀ (i : Instr) (s : State) (r : Refusal), exec i s ≠ .refused r

/-- A command faults only where it reads a cell of BUF or ACC that holds no value (R54, R243; that this is
a fault is the spec's own treatment, log 4). -/
def Obligations.CommandFaults : Prop :=
  ∀ (i : Instr) (s : State) (f : Fault), exec i s = .fault f →
    ∃ a, (f = .unwritten .buf a ∧ s.buf.read a = none ∧ a < 32768)
      ∨ (f = .unwritten .acc a ∧ s.acc.read a = none ∧ a < 256 ∧ i = .pdStep)

/-- Every step keeps the memories canonical, inside their address ranges, and ORAM written in whole
words. -/
def Obligations.StepKeepsMemories : Prop :=
  ∀ s t : State, MemoriesCanonical s → RowsWhole s → step s = .next t →
    MemoriesCanonical t ∧ RowsWhole t

/-- Every step keeps the PD chain sound: at most 9 continuations, and inside a chain a legal configuration
with every slot of the period written (R33, R151, R156, R159, 10_state.md R25). -/
def Obligations.StepKeepsChainSound : Prop :=
  ∀ s t : State, ChainSound s → step s = .next t → ChainSound t

/-- Every step keeps the error record sound: ERRINFO.CODE is a code of 60_exceptions.md R201 or 0, and 0
only while no error has been recorded. -/
def Obligations.StepKeepsErrorRecord : Prop :=
  ∀ s t : State, ErrorRecordSound s → step s = .next t → ErrorRecordSound t

/-- The invariants hold after reset. -/
def Obligations.ResetMeetsInvariants : Prop :=
  MemoriesCanonical State.reset ∧ RowsWhole State.reset ∧ ChainSound State.reset
    ∧ ErrorRecordSound State.reset
end

