-- ==== Sys2Proof/Laws/Memory.lean ====
section
/-! SUPPORT. The laws of memory: read after write, the canonical form, byte strings. -/

namespace Sys2Proof.Machine

/-! ## One cell -/

@[simp] theorem Memory.read_nil (a : Nat) : Memory.read [] a = none := rfl

theorem Memory.read_cons (k : Nat) (v : Byte) (m : Memory) (a : Nat) :
    Memory.read ((k, v) :: m) a
      = if a = k then some v else if a < k then none else Memory.read m a := rfl

theorem Memory.write_cons (k : Nat) (w : Byte) (m : Memory) (a : Nat) (v : Byte) :
    Memory.write ((k, w) :: m) a v
      = if a < k then (a, v) :: (k, w) :: m
        else if a = k then (a, v) :: m else (k, w) :: Memory.write m a v := rfl

@[simp] theorem Memory.read_write_same (m : Memory) (a : Nat) (v : Byte) :
    (m.write a v).read a = some v := by
  induction m with
  | nil => simp [Memory.write, Memory.read]
  | cons c m ih =>
    obtain ⟨k, w⟩ := c
    rw [Memory.write_cons]
    split
    · simp [Memory.read_cons]
    · split
      · simp [Memory.read_cons]
      · simp [Memory.read_cons, *]

theorem Memory.read_write_other (m : Memory) {a b : Nat} (h : b ≠ a) (v : Byte) :
    (m.write a v).read b = m.read b := by
  induction m with
  | nil => simp [Memory.write, Memory.read_cons, h]
  | cons c m ih =>
    obtain ⟨k, w⟩ := c
    rw [Memory.write_cons]
    split
    · simp only [Memory.read_cons, h, if_false]
      split_ifs <;> first | rfl | omega
    · split
      · subst_vars; simp [Memory.read_cons, h]
      · simp [Memory.read_cons, ih]

theorem Memory.read_write (m : Memory) (a b : Nat) (v : Byte) :
    (m.write a v).read b = if b = a then some v else m.read b := by
  split
  · subst_vars; simp
  · exact Memory.read_write_other m ‹_› v

/-! ## Byte strings -/

theorem Memory.writeList_nil (m : Memory) (a : Nat) : m.writeList a [] = m := rfl

theorem Memory.writeList_cons (m : Memory) (a : Nat) (b : Byte) (bs : List Byte) :
    m.writeList a (b :: bs) = (m.write a b).writeList (a + 1) bs := rfl

/-- Reading after writing a byte string: inside it the byte written, elsewhere as before. -/
theorem Memory.read_writeList (bs : List Byte) (m : Memory) (a x : Nat) :
    (m.writeList a bs).read x
      = if a ≤ x ∧ x < a + bs.length then bs[x - a]? else m.read x := by
  induction bs generalizing m a with
  | nil => simp [Memory.writeList_nil]
  | cons b bs ih =>
    rw [Memory.writeList_cons, ih, Memory.read_write]
    simp only [List.length_cons]
    by_cases h : x = a
    · subst h; simp
    · by_cases h1 : a + 1 ≤ x ∧ x < a + 1 + bs.length
      · have : x - a = (x - (a + 1)) + 1 := by omega
        rw [if_pos h1, if_pos (by omega), this]; simp
      · rw [if_neg h1, if_neg h, if_neg (by omega)]

theorem Memory.read_writeList_outside (bs : List Byte) (m : Memory) {a x : Nat}
    (h : x < a ∨ a + bs.length ≤ x) : (m.writeList a bs).read x = m.read x := by
  rw [Memory.read_writeList, if_neg (by omega)]

theorem Memory.read_writeList_inside (bs : List Byte) (m : Memory) (a : Nat) {k : Nat}
    (h : k < bs.length) : (m.writeList a bs).read (a + k) = some bs[k] := by
  rw [Memory.read_writeList, if_pos (by omega)]; simp [h]

theorem bytesAt_writeList (bs : List Byte) (m : Memory) (a : Nat) :
    Safety.BytesAt (m.writeList a bs) a bs := fun _ h => Memory.read_writeList_inside bs m a h

/-- A cell that holds a value still holds one after a write. -/
theorem Memory.isSome_read_write {m : Memory} {x : Nat} (h : (m.read x).isSome) (a : Nat)
    (v : Byte) : ((m.write a v).read x).isSome := by
  rw [Memory.read_write]; split <;> simp [h]

theorem Memory.isSome_read_writeList {x : Nat} (bs : List Byte) (m : Memory) (a : Nat)
    (h : (m.read x).isSome) : ((m.writeList a bs).read x).isSome := by
  induction bs generalizing m a with
  | nil => exact h
  | cons b bs ih => exact ih _ _ (Memory.isSome_read_write h a b)

/-! ## The canonical form -/

theorem Memory.mem_write {m : Memory} {a : Nat} {v : Byte} {c : Host.Cell}
    (h : c ∈ m.write a v) : c = (a, v) ∨ c ∈ m := by
  induction m with
  | nil => simpa [Memory.write] using h
  | cons d m ih =>
    obtain ⟨k, w⟩ := d
    rw [Memory.write_cons] at h
    split at h
    · simpa using h
    · split at h
      · rcases List.mem_cons.mp h with h | h
        · exact .inl h
        · exact .inr (List.mem_cons_of_mem _ h)
      · rcases List.mem_cons.mp h with h | h
        · exact .inr (h ▸ List.mem_cons_self)
        · rcases ih h with h | h
          · exact .inl h
          · exact .inr (List.mem_cons_of_mem _ h)

theorem Memory.unlisted_ne (c : Host.Cell) : some c.2 ≠ Memory.unlisted c.1 := by
  simp [Memory.unlisted]

theorem Memory.wf_iff (m : Memory) : m.wf ↔ m.Pairwise (fun c d => c.1 < d.1) :=
  ⟨fun h => h.1, fun h => ⟨h, fun c _ => Memory.unlisted_ne c⟩⟩

theorem Memory.wf_nil : Memory.wf [] := (Memory.wf_iff []).mpr List.Pairwise.nil

/-- A write keeps the canonical form. -/
theorem Memory.wf_write {m : Memory} (h : m.wf) (a : Nat) (v : Byte) : (m.write a v).wf := by
  rw [Memory.wf_iff] at h ⊢
  induction m with
  | nil => simp [Memory.write]
  | cons c m ih =>
    obtain ⟨k, w⟩ := c
    obtain ⟨h1, h2⟩ := List.pairwise_cons.mp h
    rw [Memory.write_cons]
    split
    · refine List.pairwise_cons.mpr ⟨fun d hd => ?_, h⟩
      rcases List.mem_cons.mp hd with rfl | hd
      · assumption
      · exact lt_trans ‹a < k› (h1 d hd)
    · split
      · subst_vars; exact List.pairwise_cons.mpr ⟨h1, h2⟩
      · refine List.pairwise_cons.mpr ⟨fun d hd => ?_, ih h2⟩
        rcases Memory.mem_write hd with rfl | hd
        · show k < a; omega
        · exact h1 d hd

theorem Memory.wf_writeList (bs : List Byte) {m : Memory} (h : m.wf) (a : Nat) :
    (m.writeList a bs).wf := by
  induction bs generalizing m a with
  | nil => exact h
  | cons b bs ih => exact ih (Memory.wf_write h a b) _

/-- Every cell of a written memory is an old one or one of the range written. -/
theorem Memory.mem_writeList {bs : List Byte} {m : Memory} {a : Nat} {c : Host.Cell}
    (h : c ∈ m.writeList a bs) : (a ≤ c.1 ∧ c.1 < a + bs.length) ∨ c ∈ m := by
  induction bs generalizing m a with
  | nil => exact .inr h
  | cons b bs ih =>
    rcases ih (m := m.write a b) (a := a + 1) h with h | h
    · left; simp only [List.length_cons]; omega
    · rcases Memory.mem_write h with rfl | h
      · left; simp
      · exact .inr h

theorem Memory.bound_writeList {bs : List Byte} {m : Memory} {a n : Nat}
    (hm : ∀ c ∈ m, c.1 < n) (h : a + bs.length ≤ n) : ∀ c ∈ m.writeList a bs, c.1 < n := by
  intro c hc
  rcases Memory.mem_writeList hc with hc | hc
  · omega
  · exact hm c hc

/-! ## Host lanes and pack order -/

@[simp] theorem length_leBytes (v n : Nat) : (leBytes v n).length = n := by
  induction n generalizing v with
  | zero => rfl
  | succ n ih => simp [leBytes, ih]

@[simp] theorem length_beBytes (v n : Nat) : (beBytes v n).length = n := by simp [beBytes]

/-- The bytes of a number make its value again, up to the width. -/
theorem leNat_leBytes (v n : Nat) : leNat (leBytes v n) = v % 256 ^ n := by
  induction n generalizing v with
  | zero => simp [leBytes, leNat, Nat.mod_one]
  | succ n ih =>
    simp only [leBytes, leNat, ih, BitVec.toNat_ofNat]
    rw [show (256 : Nat) ^ (n + 1) = 256 * 256 ^ n by ring, Nat.mod_mul]

theorem beNat_append (bs cs : List Byte) :
    beNat (bs ++ cs) = cs.foldl (fun v b => v * 256 + b.toNat) (beNat bs) := by
  simp [beNat, List.foldl_append]

/-- Big-endian is little-endian read backwards. -/
theorem beNat_reverse (bs : List Byte) : beNat bs.reverse = leNat bs := by
  induction bs with
  | nil => rfl
  | cons b bs ih => rw [List.reverse_cons, beNat_append, ih]; simp [leNat]; ring

theorem beNat_beBytes (v n : Nat) : beNat (beBytes v n) = v % 256 ^ n := by
  rw [beBytes, beNat_reverse, leNat_leBytes]

@[simp] theorem beNat_two (a b : Byte) : beNat [a, b] = 256 * a.toNat + b.toNat := by
  simp [beNat]; ring

@[simp] theorem beNat_three (a b c : Byte) :
    beNat [a, b, c] = 65536 * a.toNat + 256 * b.toNat + c.toNat := by simp [beNat]; ring

@[simp] theorem leNat_two (a b : Byte) : leNat [a, b] = a.toNat + 256 * b.toNat := by
  simp [leNat]

/-! ## ORAM words -/

theorem leBytes_word (v : Word) : leBytes v.toNat 4
    = [v.extractLsb' 0 8, v.extractLsb' 8 8, v.extractLsb' 16 8, v.extractLsb' 24 8] := by
  simp only [leBytes, List.cons.injEq, and_true]
  refine ⟨?_, ?_, ?_, ?_⟩ <;> apply BitVec.eq_of_toNat_eq <;>
    simp [BitVec.extractLsb'_toNat, Nat.shiftRight_eq_div_pow, Nat.div_div_eq_div_mul]

theorem oramWord_writeWord_same (m : Memory) (w : Nat) (v : Word) :
    Safety.OramWord (m.writeWord w v) w v := by
  unfold Safety.OramWord Memory.writeWord
  rw [leBytes_word]
  exact bytesAt_writeList _ _ _

theorem Memory.read_writeWord_outside (m : Memory) (w : Nat) (v : Word) {x : Nat}
    (h : x < 4 * w ∨ 4 * w + 4 ≤ x) : (m.writeWord w v).read x = m.read x :=
  Memory.read_writeList_outside _ _ (by simpa using h)

theorem oramWord_writeWord_other {m : Memory} {w u : Nat} {v x : Word} (h : u ≠ w)
    (hu : Safety.OramWord m u x) : Safety.OramWord (m.writeWord w v) u x := by
  intro k hk
  rw [Memory.read_writeWord_outside _ _ _ (by simp at hk; omega)]
  exact hu k hk

end Sys2Proof.Machine
end

