-- ==== Sys2Proof/Laws/State.lean ====
section
/-! SUPPORT. What each named update of the state leaves in each field, one lemma per field per update, so
that no proof unfolds a record update. -/

namespace Sys2Proof.Machine

/-! ## complete -/

@[simp] theorem complete_ctrl (s : State) : (complete s).ctrl = s.ctrl := rfl
@[simp] theorem complete_status (s : State) : (complete s).status = s.status.completed := rfl
@[simp] theorem complete_opa (s : State) : (complete s).opa = s.opa := rfl
@[simp] theorem complete_opb (s : State) : (complete s).opb = s.opb := rfl
@[simp] theorem complete_bitptr (s : State) : (complete s).bitptr = s.bitptr := rfl
@[simp] theorem complete_bitend (s : State) : (complete s).bitend = s.bitend := rfl
@[simp] theorem complete_res (s : State) : (complete s).res = s.res := rfl
@[simp] theorem complete_res2 (s : State) : (complete s).res2 = s.res2 := rfl
@[simp] theorem complete_crccfg (s : State) : (complete s).crccfg = s.crccfg := rfl
@[simp] theorem complete_pdstate (s : State) : (complete s).pdstate = s.pdstate := rfl
@[simp] theorem complete_pcount (s : State) : (complete s).pcount = s.pcount := rfl
@[simp] theorem complete_derrcnt (s : State) : (complete s).derrcnt = s.derrcnt := rfl
@[simp] theorem complete_errinfo (s : State) : (complete s).errinfo = s.errinfo := rfl
@[simp] theorem complete_errptr (s : State) : (complete s).errptr = s.errptr := rfl
@[simp] theorem complete_owptr (s : State) : (complete s).owptr = s.owptr := rfl
@[simp] theorem complete_rowcnt (s : State) : (complete s).rowcnt = s.rowcnt := rfl
@[simp] theorem complete_maccX (s : State) : (complete s).maccX = s.maccX := rfl
@[simp] theorem complete_maccY (s : State) : (complete s).maccY = s.maccY := rfl
@[simp] theorem complete_maccZ (s : State) : (complete s).maccZ = s.maccZ := rfl
@[simp] theorem complete_pdMark (s : State) : (complete s).pdMark = s.pdMark := rfl
@[simp] theorem complete_pdTag (s : State) : (complete s).pdTag = s.pdTag := rfl
@[simp] theorem complete_pdVals (s : State) : (complete s).pdVals = s.pdVals := rfl
@[simp] theorem complete_pdVlen (s : State) : (complete s).pdVlen = s.pdVlen := rfl
@[simp] theorem complete_spin (s : State) : (complete s).spin = s.spin := rfl
@[simp] theorem complete_ht0 (s : State) : (complete s).ht0 = s.ht0 := rfl
@[simp] theorem complete_ht1 (s : State) : (complete s).ht1 = s.ht1 := rfl
@[simp] theorem complete_acc (s : State) : (complete s).acc = s.acc := rfl
@[simp] theorem complete_buf (s : State) : (complete s).buf = s.buf := rfl
@[simp] theorem complete_oram (s : State) : (complete s).oram = s.oram := rfl
@[simp] theorem complete_hostQueue (s : State) : (complete s).hostQueue = s.hostQueue := rfl
@[simp] theorem complete_readData (s : State) : (complete s).readData = s.readData := rfl

/-! ## recordError -/

@[simp] theorem recordError_ctrl (op : Byte) (e : ErrCode) (ptr : Word) (s : State) :
    (recordError op e ptr s).ctrl = s.ctrl := rfl
@[simp] theorem recordError_status (op : Byte) (e : ErrCode) (ptr : Word) (s : State) :
    (recordError op e ptr s).status = s.status.failed e.fatal := rfl
@[simp] theorem recordError_opa (op : Byte) (e : ErrCode) (ptr : Word) (s : State) :
    (recordError op e ptr s).opa = s.opa := rfl
@[simp] theorem recordError_opb (op : Byte) (e : ErrCode) (ptr : Word) (s : State) :
    (recordError op e ptr s).opb = s.opb := rfl
@[simp] theorem recordError_bitptr (op : Byte) (e : ErrCode) (ptr : Word) (s : State) :
    (recordError op e ptr s).bitptr = s.bitptr := rfl
@[simp] theorem recordError_bitend (op : Byte) (e : ErrCode) (ptr : Word) (s : State) :
    (recordError op e ptr s).bitend = s.bitend := rfl
@[simp] theorem recordError_res (op : Byte) (e : ErrCode) (ptr : Word) (s : State) :
    (recordError op e ptr s).res = s.res := rfl
@[simp] theorem recordError_res2 (op : Byte) (e : ErrCode) (ptr : Word) (s : State) :
    (recordError op e ptr s).res2 = s.res2 := rfl
@[simp] theorem recordError_crccfg (op : Byte) (e : ErrCode) (ptr : Word) (s : State) :
    (recordError op e ptr s).crccfg = s.crccfg := rfl
@[simp] theorem recordError_pdstate (op : Byte) (e : ErrCode) (ptr : Word) (s : State) :
    (recordError op e ptr s).pdstate = s.pdstate := rfl
@[simp] theorem recordError_pcount (op : Byte) (e : ErrCode) (ptr : Word) (s : State) :
    (recordError op e ptr s).pcount = s.pcount := rfl
@[simp] theorem recordError_derrcnt (op : Byte) (e : ErrCode) (ptr : Word) (s : State) :
    (recordError op e ptr s).derrcnt = if e.fatal then s.derrcnt else s.derrcnt + 1#32 := rfl
@[simp] theorem recordError_errinfo (op : Byte) (e : ErrCode) (ptr : Word) (s : State) :
    (recordError op e ptr s).errinfo = { code := e.code, op := op } := rfl
@[simp] theorem recordError_errptr (op : Byte) (e : ErrCode) (ptr : Word) (s : State) :
    (recordError op e ptr s).errptr = ptr := rfl
@[simp] theorem recordError_owptr (op : Byte) (e : ErrCode) (ptr : Word) (s : State) :
    (recordError op e ptr s).owptr = s.owptr := rfl
@[simp] theorem recordError_rowcnt (op : Byte) (e : ErrCode) (ptr : Word) (s : State) :
    (recordError op e ptr s).rowcnt = s.rowcnt := rfl
@[simp] theorem recordError_maccX (op : Byte) (e : ErrCode) (ptr : Word) (s : State) :
    (recordError op e ptr s).maccX = s.maccX := rfl
@[simp] theorem recordError_maccY (op : Byte) (e : ErrCode) (ptr : Word) (s : State) :
    (recordError op e ptr s).maccY = s.maccY := rfl
@[simp] theorem recordError_maccZ (op : Byte) (e : ErrCode) (ptr : Word) (s : State) :
    (recordError op e ptr s).maccZ = s.maccZ := rfl
@[simp] theorem recordError_pdMark (op : Byte) (e : ErrCode) (ptr : Word) (s : State) :
    (recordError op e ptr s).pdMark = s.pdMark := rfl
@[simp] theorem recordError_pdTag (op : Byte) (e : ErrCode) (ptr : Word) (s : State) :
    (recordError op e ptr s).pdTag = s.pdTag := rfl
@[simp] theorem recordError_pdVals (op : Byte) (e : ErrCode) (ptr : Word) (s : State) :
    (recordError op e ptr s).pdVals = s.pdVals := rfl
@[simp] theorem recordError_pdVlen (op : Byte) (e : ErrCode) (ptr : Word) (s : State) :
    (recordError op e ptr s).pdVlen = s.pdVlen := rfl
@[simp] theorem recordError_spin (op : Byte) (e : ErrCode) (ptr : Word) (s : State) :
    (recordError op e ptr s).spin = s.spin := rfl
@[simp] theorem recordError_ht0 (op : Byte) (e : ErrCode) (ptr : Word) (s : State) :
    (recordError op e ptr s).ht0 = s.ht0 := rfl
@[simp] theorem recordError_ht1 (op : Byte) (e : ErrCode) (ptr : Word) (s : State) :
    (recordError op e ptr s).ht1 = s.ht1 := rfl
@[simp] theorem recordError_acc (op : Byte) (e : ErrCode) (ptr : Word) (s : State) :
    (recordError op e ptr s).acc = s.acc := rfl
@[simp] theorem recordError_buf (op : Byte) (e : ErrCode) (ptr : Word) (s : State) :
    (recordError op e ptr s).buf = s.buf := rfl
@[simp] theorem recordError_oram (op : Byte) (e : ErrCode) (ptr : Word) (s : State) :
    (recordError op e ptr s).oram = s.oram := rfl
@[simp] theorem recordError_hostQueue (op : Byte) (e : ErrCode) (ptr : Word) (s : State) :
    (recordError op e ptr s).hostQueue = s.hostQueue := rfl
@[simp] theorem recordError_readData (op : Byte) (e : ErrCode) (ptr : Word) (s : State) :
    (recordError op e ptr s).readData = s.readData := rfl

/-! ## clearErrors -/

@[simp] theorem clearErrors_ctrl (w : Word) (s : State) : (clearErrors w s).ctrl = s.ctrl := rfl
@[simp] theorem clearErrors_status (w : Word) (s : State) : (clearErrors w s).status = s.status.clear w := rfl
@[simp] theorem clearErrors_opa (w : Word) (s : State) : (clearErrors w s).opa = s.opa := rfl
@[simp] theorem clearErrors_opb (w : Word) (s : State) : (clearErrors w s).opb = s.opb := rfl
@[simp] theorem clearErrors_bitptr (w : Word) (s : State) : (clearErrors w s).bitptr = s.bitptr := rfl
@[simp] theorem clearErrors_bitend (w : Word) (s : State) : (clearErrors w s).bitend = s.bitend := rfl
@[simp] theorem clearErrors_res (w : Word) (s : State) : (clearErrors w s).res = s.res := rfl
@[simp] theorem clearErrors_res2 (w : Word) (s : State) : (clearErrors w s).res2 = s.res2 := rfl
@[simp] theorem clearErrors_crccfg (w : Word) (s : State) : (clearErrors w s).crccfg = s.crccfg := rfl
@[simp] theorem clearErrors_pdstate (w : Word) (s : State) : (clearErrors w s).pdstate = s.pdstate := rfl
@[simp] theorem clearErrors_pcount (w : Word) (s : State) : (clearErrors w s).pcount = s.pcount := rfl
@[simp] theorem clearErrors_derrcnt (w : Word) (s : State) : (clearErrors w s).derrcnt = s.derrcnt := rfl
@[simp] theorem clearErrors_errinfo (w : Word) (s : State) : (clearErrors w s).errinfo = s.errinfo := rfl
@[simp] theorem clearErrors_errptr (w : Word) (s : State) : (clearErrors w s).errptr = s.errptr := rfl
@[simp] theorem clearErrors_owptr (w : Word) (s : State) : (clearErrors w s).owptr = s.owptr := rfl
@[simp] theorem clearErrors_rowcnt (w : Word) (s : State) : (clearErrors w s).rowcnt = s.rowcnt := rfl
@[simp] theorem clearErrors_maccX (w : Word) (s : State) : (clearErrors w s).maccX = s.maccX := rfl
@[simp] theorem clearErrors_maccY (w : Word) (s : State) : (clearErrors w s).maccY = s.maccY := rfl
@[simp] theorem clearErrors_maccZ (w : Word) (s : State) : (clearErrors w s).maccZ = s.maccZ := rfl
@[simp] theorem clearErrors_pdMark (w : Word) (s : State) : (clearErrors w s).pdMark = s.pdMark := rfl
@[simp] theorem clearErrors_pdTag (w : Word) (s : State) : (clearErrors w s).pdTag = s.pdTag := rfl
@[simp] theorem clearErrors_pdVals (w : Word) (s : State) : (clearErrors w s).pdVals = s.pdVals := rfl
@[simp] theorem clearErrors_pdVlen (w : Word) (s : State) : (clearErrors w s).pdVlen = s.pdVlen := rfl
@[simp] theorem clearErrors_spin (w : Word) (s : State) : (clearErrors w s).spin = s.spin := rfl
@[simp] theorem clearErrors_ht0 (w : Word) (s : State) : (clearErrors w s).ht0 = s.ht0 := rfl
@[simp] theorem clearErrors_ht1 (w : Word) (s : State) : (clearErrors w s).ht1 = s.ht1 := rfl
@[simp] theorem clearErrors_acc (w : Word) (s : State) : (clearErrors w s).acc = s.acc := rfl
@[simp] theorem clearErrors_buf (w : Word) (s : State) : (clearErrors w s).buf = s.buf := rfl
@[simp] theorem clearErrors_oram (w : Word) (s : State) : (clearErrors w s).oram = s.oram := rfl
@[simp] theorem clearErrors_hostQueue (w : Word) (s : State) :
    (clearErrors w s).hostQueue = s.hostQueue := rfl
@[simp] theorem clearErrors_readData (w : Word) (s : State) : (clearErrors w s).readData = s.readData := rfl

/-! ## seek -/

@[simp] theorem seek_ctrl (s : State) : (seek s).ctrl = s.ctrl := rfl
@[simp] theorem seek_status (s : State) : (seek s).status = s.status := rfl
@[simp] theorem seek_opa (s : State) : (seek s).opa = s.opa := rfl
@[simp] theorem seek_opb (s : State) : (seek s).opb = s.opb := rfl
@[simp] theorem seek_bitptr (s : State) : (seek s).bitptr = s.bitptr := rfl
@[simp] theorem seek_bitend (s : State) : (seek s).bitend = s.bitend := rfl
@[simp] theorem seek_res (s : State) : (seek s).res = s.res := rfl
@[simp] theorem seek_res2 (s : State) : (seek s).res2 = s.res2 := rfl
@[simp] theorem seek_crccfg (s : State) : (seek s).crccfg = s.crccfg := rfl
@[simp] theorem seek_pdstate (s : State) : (seek s).pdstate = { inChain := false, ccount := 0#4 } := rfl
@[simp] theorem seek_pcount (s : State) : (seek s).pcount = s.pcount := rfl
@[simp] theorem seek_derrcnt (s : State) : (seek s).derrcnt = s.derrcnt := rfl
@[simp] theorem seek_errinfo (s : State) : (seek s).errinfo = s.errinfo := rfl
@[simp] theorem seek_errptr (s : State) : (seek s).errptr = s.errptr := rfl
@[simp] theorem seek_owptr (s : State) : (seek s).owptr = s.owptr := rfl
@[simp] theorem seek_rowcnt (s : State) : (seek s).rowcnt = s.rowcnt := rfl
@[simp] theorem seek_maccX (s : State) : (seek s).maccX = s.maccX := rfl
@[simp] theorem seek_maccY (s : State) : (seek s).maccY = s.maccY := rfl
@[simp] theorem seek_maccZ (s : State) : (seek s).maccZ = s.maccZ := rfl
@[simp] theorem seek_pdMark (s : State) : (seek s).pdMark = s.pdMark := rfl
@[simp] theorem seek_pdTag (s : State) : (seek s).pdTag = s.pdTag := rfl
@[simp] theorem seek_pdVals (s : State) : (seek s).pdVals = s.pdVals := rfl
@[simp] theorem seek_pdVlen (s : State) : (seek s).pdVlen = s.pdVlen := rfl
@[simp] theorem seek_spin (s : State) : (seek s).spin = s.spin := rfl
@[simp] theorem seek_ht0 (s : State) : (seek s).ht0 = s.ht0 := rfl
@[simp] theorem seek_ht1 (s : State) : (seek s).ht1 = s.ht1 := rfl
@[simp] theorem seek_acc (s : State) : (seek s).acc = s.acc := rfl
@[simp] theorem seek_buf (s : State) : (seek s).buf = s.buf := rfl
@[simp] theorem seek_oram (s : State) : (seek s).oram = s.oram := rfl
@[simp] theorem seek_hostQueue (s : State) : (seek s).hostQueue = s.hostQueue := rfl
@[simp] theorem seek_readData (s : State) : (seek s).readData = s.readData := rfl

/-! ## emitPeriod -/

@[simp] theorem emitPeriod_ctrl (s : State) : (emitPeriod s).ctrl = s.ctrl := rfl
@[simp] theorem emitPeriod_status (s : State) :
    (emitPeriod s).status = { s.status with pvalid := true } := rfl
@[simp] theorem emitPeriod_opa (s : State) : (emitPeriod s).opa = s.opa := rfl
@[simp] theorem emitPeriod_opb (s : State) : (emitPeriod s).opb = s.opb := rfl
@[simp] theorem emitPeriod_bitptr (s : State) : (emitPeriod s).bitptr = s.bitptr := rfl
@[simp] theorem emitPeriod_bitend (s : State) : (emitPeriod s).bitend = s.bitend := rfl
@[simp] theorem emitPeriod_res (s : State) : (emitPeriod s).res = s.res := rfl
@[simp] theorem emitPeriod_res2 (s : State) : (emitPeriod s).res2 = s.res2 := rfl
@[simp] theorem emitPeriod_crccfg (s : State) : (emitPeriod s).crccfg = s.crccfg := rfl
@[simp] theorem emitPeriod_pdstate (s : State) : (emitPeriod s).pdstate = s.pdstate := rfl
@[simp] theorem emitPeriod_pcount (s : State) : (emitPeriod s).pcount = s.pcount + 1#32 := rfl
@[simp] theorem emitPeriod_derrcnt (s : State) : (emitPeriod s).derrcnt = s.derrcnt := rfl
@[simp] theorem emitPeriod_errinfo (s : State) : (emitPeriod s).errinfo = s.errinfo := rfl
@[simp] theorem emitPeriod_errptr (s : State) : (emitPeriod s).errptr = s.errptr := rfl
@[simp] theorem emitPeriod_owptr (s : State) : (emitPeriod s).owptr = s.owptr := rfl
@[simp] theorem emitPeriod_rowcnt (s : State) : (emitPeriod s).rowcnt = s.rowcnt := rfl
@[simp] theorem emitPeriod_maccX (s : State) : (emitPeriod s).maccX = s.maccX := rfl
@[simp] theorem emitPeriod_maccY (s : State) : (emitPeriod s).maccY = s.maccY := rfl
@[simp] theorem emitPeriod_maccZ (s : State) : (emitPeriod s).maccZ = s.maccZ := rfl
@[simp] theorem emitPeriod_pdMark (s : State) : (emitPeriod s).pdMark = s.pdMark := rfl
@[simp] theorem emitPeriod_pdTag (s : State) : (emitPeriod s).pdTag = s.pdTag := rfl
@[simp] theorem emitPeriod_pdVals (s : State) : (emitPeriod s).pdVals = s.pdVals := rfl
@[simp] theorem emitPeriod_pdVlen (s : State) : (emitPeriod s).pdVlen = s.pdVlen := rfl
@[simp] theorem emitPeriod_spin (s : State) : (emitPeriod s).spin = s.spin := rfl
@[simp] theorem emitPeriod_ht0 (s : State) : (emitPeriod s).ht0 = s.ht0 := rfl
@[simp] theorem emitPeriod_ht1 (s : State) : (emitPeriod s).ht1 = s.ht1 := rfl
@[simp] theorem emitPeriod_acc (s : State) : (emitPeriod s).acc = s.acc := rfl
@[simp] theorem emitPeriod_buf (s : State) : (emitPeriod s).buf = s.buf := rfl
@[simp] theorem emitPeriod_oram (s : State) : (emitPeriod s).oram = s.oram := rfl
@[simp] theorem emitPeriod_hostQueue (s : State) : (emitPeriod s).hostQueue = s.hostQueue := rfl
@[simp] theorem emitPeriod_readData (s : State) : (emitPeriod s).readData = s.readData := rfl

/-! ## setPdFlags -/

@[simp] theorem setPdFlags_ctrl (v h : Bool) (s : State) : (setPdFlags v h s).ctrl = s.ctrl := rfl
@[simp] theorem setPdFlags_status (v h : Bool) (s : State) :
    (setPdFlags v h s).status = s.status.pdResult v h := rfl
@[simp] theorem setPdFlags_opa (v h : Bool) (s : State) : (setPdFlags v h s).opa = s.opa := rfl
@[simp] theorem setPdFlags_opb (v h : Bool) (s : State) : (setPdFlags v h s).opb = s.opb := rfl
@[simp] theorem setPdFlags_bitptr (v h : Bool) (s : State) : (setPdFlags v h s).bitptr = s.bitptr := rfl
@[simp] theorem setPdFlags_bitend (v h : Bool) (s : State) : (setPdFlags v h s).bitend = s.bitend := rfl
@[simp] theorem setPdFlags_res (v h : Bool) (s : State) : (setPdFlags v h s).res = s.res := rfl
@[simp] theorem setPdFlags_res2 (v h : Bool) (s : State) : (setPdFlags v h s).res2 = s.res2 := rfl
@[simp] theorem setPdFlags_crccfg (v h : Bool) (s : State) : (setPdFlags v h s).crccfg = s.crccfg := rfl
@[simp] theorem setPdFlags_pdstate (v h : Bool) (s : State) : (setPdFlags v h s).pdstate = s.pdstate := rfl
@[simp] theorem setPdFlags_pcount (v h : Bool) (s : State) : (setPdFlags v h s).pcount = s.pcount := rfl
@[simp] theorem setPdFlags_derrcnt (v h : Bool) (s : State) : (setPdFlags v h s).derrcnt = s.derrcnt := rfl
@[simp] theorem setPdFlags_errinfo (v h : Bool) (s : State) : (setPdFlags v h s).errinfo = s.errinfo := rfl
@[simp] theorem setPdFlags_errptr (v h : Bool) (s : State) : (setPdFlags v h s).errptr = s.errptr := rfl
@[simp] theorem setPdFlags_owptr (v h : Bool) (s : State) : (setPdFlags v h s).owptr = s.owptr := rfl
@[simp] theorem setPdFlags_rowcnt (v h : Bool) (s : State) : (setPdFlags v h s).rowcnt = s.rowcnt := rfl
@[simp] theorem setPdFlags_maccX (v h : Bool) (s : State) : (setPdFlags v h s).maccX = s.maccX := rfl
@[simp] theorem setPdFlags_maccY (v h : Bool) (s : State) : (setPdFlags v h s).maccY = s.maccY := rfl
@[simp] theorem setPdFlags_maccZ (v h : Bool) (s : State) : (setPdFlags v h s).maccZ = s.maccZ := rfl
@[simp] theorem setPdFlags_pdMark (v h : Bool) (s : State) : (setPdFlags v h s).pdMark = s.pdMark := rfl
@[simp] theorem setPdFlags_pdTag (v h : Bool) (s : State) : (setPdFlags v h s).pdTag = s.pdTag := rfl
@[simp] theorem setPdFlags_pdVals (v h : Bool) (s : State) : (setPdFlags v h s).pdVals = s.pdVals := rfl
@[simp] theorem setPdFlags_pdVlen (v h : Bool) (s : State) : (setPdFlags v h s).pdVlen = s.pdVlen := rfl
@[simp] theorem setPdFlags_spin (v h : Bool) (s : State) : (setPdFlags v h s).spin = s.spin := rfl
@[simp] theorem setPdFlags_ht0 (v h : Bool) (s : State) : (setPdFlags v h s).ht0 = s.ht0 := rfl
@[simp] theorem setPdFlags_ht1 (v h : Bool) (s : State) : (setPdFlags v h s).ht1 = s.ht1 := rfl
@[simp] theorem setPdFlags_acc (v h : Bool) (s : State) : (setPdFlags v h s).acc = s.acc := rfl
@[simp] theorem setPdFlags_buf (v h : Bool) (s : State) : (setPdFlags v h s).buf = s.buf := rfl
@[simp] theorem setPdFlags_oram (v h : Bool) (s : State) : (setPdFlags v h s).oram = s.oram := rfl
@[simp] theorem setPdFlags_hostQueue (v h : Bool) (s : State) :
    (setPdFlags v h s).hostQueue = s.hostQueue := rfl
@[simp] theorem setPdFlags_readData (v h : Bool) (s : State) : (setPdFlags v h s).readData = s.readData := rfl

/-! ## withMag -/

@[simp] theorem withMag_ctrl (r : MagRun) (t : Bool) (s : State) : (withMag r t s).ctrl = s.ctrl := rfl
@[simp] theorem withMag_status (r : MagRun) (t : Bool) (s : State) :
    (withMag r t s).status = s.status.setTerm t := rfl
@[simp] theorem withMag_opa (r : MagRun) (t : Bool) (s : State) : (withMag r t s).opa = s.opa := rfl
@[simp] theorem withMag_opb (r : MagRun) (t : Bool) (s : State) : (withMag r t s).opb = s.opb := rfl
@[simp] theorem withMag_bitptr (r : MagRun) (t : Bool) (s : State) : (withMag r t s).bitptr = s.bitptr := rfl
@[simp] theorem withMag_bitend (r : MagRun) (t : Bool) (s : State) : (withMag r t s).bitend = s.bitend := rfl
@[simp] theorem withMag_res (r : MagRun) (t : Bool) (s : State) : (withMag r t s).res = s.res := rfl
@[simp] theorem withMag_res2 (r : MagRun) (t : Bool) (s : State) : (withMag r t s).res2 = s.res2 := rfl
@[simp] theorem withMag_crccfg (r : MagRun) (t : Bool) (s : State) : (withMag r t s).crccfg = s.crccfg := rfl
@[simp] theorem withMag_pdstate (r : MagRun) (t : Bool) (s : State) :
    (withMag r t s).pdstate = s.pdstate := rfl
@[simp] theorem withMag_pcount (r : MagRun) (t : Bool) (s : State) : (withMag r t s).pcount = s.pcount := rfl
@[simp] theorem withMag_derrcnt (r : MagRun) (t : Bool) (s : State) :
    (withMag r t s).derrcnt = s.derrcnt := rfl
@[simp] theorem withMag_errinfo (r : MagRun) (t : Bool) (s : State) :
    (withMag r t s).errinfo = s.errinfo := rfl
@[simp] theorem withMag_errptr (r : MagRun) (t : Bool) (s : State) : (withMag r t s).errptr = s.errptr := rfl
@[simp] theorem withMag_owptr (r : MagRun) (t : Bool) (s : State) : (withMag r t s).owptr = r.owptr := rfl
@[simp] theorem withMag_rowcnt (r : MagRun) (t : Bool) (s : State) : (withMag r t s).rowcnt = r.rowcnt := rfl
@[simp] theorem withMag_maccX (r : MagRun) (t : Bool) (s : State) : (withMag r t s).maccX = r.x := rfl
@[simp] theorem withMag_maccY (r : MagRun) (t : Bool) (s : State) : (withMag r t s).maccY = r.y := rfl
@[simp] theorem withMag_maccZ (r : MagRun) (t : Bool) (s : State) : (withMag r t s).maccZ = r.z := rfl
@[simp] theorem withMag_pdMark (r : MagRun) (t : Bool) (s : State) : (withMag r t s).pdMark = s.pdMark := rfl
@[simp] theorem withMag_pdTag (r : MagRun) (t : Bool) (s : State) : (withMag r t s).pdTag = s.pdTag := rfl
@[simp] theorem withMag_pdVals (r : MagRun) (t : Bool) (s : State) : (withMag r t s).pdVals = s.pdVals := rfl
@[simp] theorem withMag_pdVlen (r : MagRun) (t : Bool) (s : State) : (withMag r t s).pdVlen = s.pdVlen := rfl
@[simp] theorem withMag_spin (r : MagRun) (t : Bool) (s : State) : (withMag r t s).spin = s.spin := rfl
@[simp] theorem withMag_ht0 (r : MagRun) (t : Bool) (s : State) : (withMag r t s).ht0 = s.ht0 := rfl
@[simp] theorem withMag_ht1 (r : MagRun) (t : Bool) (s : State) : (withMag r t s).ht1 = s.ht1 := rfl
@[simp] theorem withMag_acc (r : MagRun) (t : Bool) (s : State) : (withMag r t s).acc = s.acc := rfl
@[simp] theorem withMag_buf (r : MagRun) (t : Bool) (s : State) : (withMag r t s).buf = s.buf := rfl
@[simp] theorem withMag_oram (r : MagRun) (t : Bool) (s : State) : (withMag r t s).oram = r.oram := rfl
@[simp] theorem withMag_hostQueue (r : MagRun) (t : Bool) (s : State) :
    (withMag r t s).hostQueue = s.hostQueue := rfl
@[simp] theorem withMag_readData (r : MagRun) (t : Bool) (s : State) :
    (withMag r t s).readData = s.readData := rfl

/-! ## takeEvent -/

@[simp] theorem takeEvent_ctrl (q : List BusEvent) (s : State) : (takeEvent q s).ctrl = s.ctrl := rfl
@[simp] theorem takeEvent_status (q : List BusEvent) (s : State) : (takeEvent q s).status = s.status := rfl
@[simp] theorem takeEvent_opa (q : List BusEvent) (s : State) : (takeEvent q s).opa = s.opa := rfl
@[simp] theorem takeEvent_opb (q : List BusEvent) (s : State) : (takeEvent q s).opb = s.opb := rfl
@[simp] theorem takeEvent_bitptr (q : List BusEvent) (s : State) : (takeEvent q s).bitptr = s.bitptr := rfl
@[simp] theorem takeEvent_bitend (q : List BusEvent) (s : State) : (takeEvent q s).bitend = s.bitend := rfl
@[simp] theorem takeEvent_res (q : List BusEvent) (s : State) : (takeEvent q s).res = s.res := rfl
@[simp] theorem takeEvent_res2 (q : List BusEvent) (s : State) : (takeEvent q s).res2 = s.res2 := rfl
@[simp] theorem takeEvent_crccfg (q : List BusEvent) (s : State) : (takeEvent q s).crccfg = s.crccfg := rfl
@[simp] theorem takeEvent_pdstate (q : List BusEvent) (s : State) : (takeEvent q s).pdstate = s.pdstate := rfl
@[simp] theorem takeEvent_pcount (q : List BusEvent) (s : State) : (takeEvent q s).pcount = s.pcount := rfl
@[simp] theorem takeEvent_derrcnt (q : List BusEvent) (s : State) : (takeEvent q s).derrcnt = s.derrcnt := rfl
@[simp] theorem takeEvent_errinfo (q : List BusEvent) (s : State) : (takeEvent q s).errinfo = s.errinfo := rfl
@[simp] theorem takeEvent_errptr (q : List BusEvent) (s : State) : (takeEvent q s).errptr = s.errptr := rfl
@[simp] theorem takeEvent_owptr (q : List BusEvent) (s : State) : (takeEvent q s).owptr = s.owptr := rfl
@[simp] theorem takeEvent_rowcnt (q : List BusEvent) (s : State) : (takeEvent q s).rowcnt = s.rowcnt := rfl
@[simp] theorem takeEvent_maccX (q : List BusEvent) (s : State) : (takeEvent q s).maccX = s.maccX := rfl
@[simp] theorem takeEvent_maccY (q : List BusEvent) (s : State) : (takeEvent q s).maccY = s.maccY := rfl
@[simp] theorem takeEvent_maccZ (q : List BusEvent) (s : State) : (takeEvent q s).maccZ = s.maccZ := rfl
@[simp] theorem takeEvent_pdMark (q : List BusEvent) (s : State) : (takeEvent q s).pdMark = s.pdMark := rfl
@[simp] theorem takeEvent_pdTag (q : List BusEvent) (s : State) : (takeEvent q s).pdTag = s.pdTag := rfl
@[simp] theorem takeEvent_pdVals (q : List BusEvent) (s : State) : (takeEvent q s).pdVals = s.pdVals := rfl
@[simp] theorem takeEvent_pdVlen (q : List BusEvent) (s : State) : (takeEvent q s).pdVlen = s.pdVlen := rfl
@[simp] theorem takeEvent_spin (q : List BusEvent) (s : State) : (takeEvent q s).spin = s.spin := rfl
@[simp] theorem takeEvent_ht0 (q : List BusEvent) (s : State) : (takeEvent q s).ht0 = s.ht0 := rfl
@[simp] theorem takeEvent_ht1 (q : List BusEvent) (s : State) : (takeEvent q s).ht1 = s.ht1 := rfl
@[simp] theorem takeEvent_acc (q : List BusEvent) (s : State) : (takeEvent q s).acc = s.acc := rfl
@[simp] theorem takeEvent_buf (q : List BusEvent) (s : State) : (takeEvent q s).buf = s.buf := rfl
@[simp] theorem takeEvent_oram (q : List BusEvent) (s : State) : (takeEvent q s).oram = s.oram := rfl
@[simp] theorem takeEvent_hostQueue (q : List BusEvent) (s : State) : (takeEvent q s).hostQueue = q := rfl
@[simp] theorem takeEvent_readData (q : List BusEvent) (s : State) : (takeEvent q s).readData = none := rfl

/-! ## setHuff -/

@[simp] theorem setHuff_ctrl (s : State) (t : Bank) (i : Fin 256) (e : HuffEntry) :
    (s.setHuff t i e).ctrl = s.ctrl := by cases t <;> rfl
@[simp] theorem setHuff_status (s : State) (t : Bank) (i : Fin 256) (e : HuffEntry) :
    (s.setHuff t i e).status = s.status := by cases t <;> rfl
@[simp] theorem setHuff_opa (s : State) (t : Bank) (i : Fin 256) (e : HuffEntry) :
    (s.setHuff t i e).opa = s.opa := by cases t <;> rfl
@[simp] theorem setHuff_opb (s : State) (t : Bank) (i : Fin 256) (e : HuffEntry) :
    (s.setHuff t i e).opb = s.opb := by cases t <;> rfl
@[simp] theorem setHuff_bitptr (s : State) (t : Bank) (i : Fin 256) (e : HuffEntry) :
    (s.setHuff t i e).bitptr = s.bitptr := by cases t <;> rfl
@[simp] theorem setHuff_bitend (s : State) (t : Bank) (i : Fin 256) (e : HuffEntry) :
    (s.setHuff t i e).bitend = s.bitend := by cases t <;> rfl
@[simp] theorem setHuff_res (s : State) (t : Bank) (i : Fin 256) (e : HuffEntry) :
    (s.setHuff t i e).res = s.res := by cases t <;> rfl
@[simp] theorem setHuff_res2 (s : State) (t : Bank) (i : Fin 256) (e : HuffEntry) :
    (s.setHuff t i e).res2 = s.res2 := by cases t <;> rfl
@[simp] theorem setHuff_crccfg (s : State) (t : Bank) (i : Fin 256) (e : HuffEntry) :
    (s.setHuff t i e).crccfg = s.crccfg := by cases t <;> rfl
@[simp] theorem setHuff_pdstate (s : State) (t : Bank) (i : Fin 256) (e : HuffEntry) :
    (s.setHuff t i e).pdstate = s.pdstate := by cases t <;> rfl
@[simp] theorem setHuff_pcount (s : State) (t : Bank) (i : Fin 256) (e : HuffEntry) :
    (s.setHuff t i e).pcount = s.pcount := by cases t <;> rfl
@[simp] theorem setHuff_derrcnt (s : State) (t : Bank) (i : Fin 256) (e : HuffEntry) :
    (s.setHuff t i e).derrcnt = s.derrcnt := by cases t <;> rfl
@[simp] theorem setHuff_errinfo (s : State) (t : Bank) (i : Fin 256) (e : HuffEntry) :
    (s.setHuff t i e).errinfo = s.errinfo := by cases t <;> rfl
@[simp] theorem setHuff_errptr (s : State) (t : Bank) (i : Fin 256) (e : HuffEntry) :
    (s.setHuff t i e).errptr = s.errptr := by cases t <;> rfl
@[simp] theorem setHuff_owptr (s : State) (t : Bank) (i : Fin 256) (e : HuffEntry) :
    (s.setHuff t i e).owptr = s.owptr := by cases t <;> rfl
@[simp] theorem setHuff_rowcnt (s : State) (t : Bank) (i : Fin 256) (e : HuffEntry) :
    (s.setHuff t i e).rowcnt = s.rowcnt := by cases t <;> rfl
@[simp] theorem setHuff_maccX (s : State) (t : Bank) (i : Fin 256) (e : HuffEntry) :
    (s.setHuff t i e).maccX = s.maccX := by cases t <;> rfl
@[simp] theorem setHuff_maccY (s : State) (t : Bank) (i : Fin 256) (e : HuffEntry) :
    (s.setHuff t i e).maccY = s.maccY := by cases t <;> rfl
@[simp] theorem setHuff_maccZ (s : State) (t : Bank) (i : Fin 256) (e : HuffEntry) :
    (s.setHuff t i e).maccZ = s.maccZ := by cases t <;> rfl
@[simp] theorem setHuff_pdMark (s : State) (t : Bank) (i : Fin 256) (e : HuffEntry) :
    (s.setHuff t i e).pdMark = s.pdMark := by cases t <;> rfl
@[simp] theorem setHuff_pdTag (s : State) (t : Bank) (i : Fin 256) (e : HuffEntry) :
    (s.setHuff t i e).pdTag = s.pdTag := by cases t <;> rfl
@[simp] theorem setHuff_pdVals (s : State) (t : Bank) (i : Fin 256) (e : HuffEntry) :
    (s.setHuff t i e).pdVals = s.pdVals := by cases t <;> rfl
@[simp] theorem setHuff_pdVlen (s : State) (t : Bank) (i : Fin 256) (e : HuffEntry) :
    (s.setHuff t i e).pdVlen = s.pdVlen := by cases t <;> rfl
@[simp] theorem setHuff_spin (s : State) (t : Bank) (i : Fin 256) (e : HuffEntry) :
    (s.setHuff t i e).spin = s.spin := by cases t <;> rfl
@[simp] theorem setHuff_acc (s : State) (t : Bank) (i : Fin 256) (e : HuffEntry) :
    (s.setHuff t i e).acc = s.acc := by cases t <;> rfl
@[simp] theorem setHuff_buf (s : State) (t : Bank) (i : Fin 256) (e : HuffEntry) :
    (s.setHuff t i e).buf = s.buf := by cases t <;> rfl
@[simp] theorem setHuff_oram (s : State) (t : Bank) (i : Fin 256) (e : HuffEntry) :
    (s.setHuff t i e).oram = s.oram := by cases t <;> rfl
@[simp] theorem setHuff_hostQueue (s : State) (t : Bank) (i : Fin 256) (e : HuffEntry) :
    (s.setHuff t i e).hostQueue = s.hostQueue := by cases t <;> rfl
@[simp] theorem setHuff_readData (s : State) (t : Bank) (i : Fin 256) (e : HuffEntry) :
    (s.setHuff t i e).readData = s.readData := by cases t <;> rfl
@[simp] theorem setHuff_bank_same (s : State) (t : Bank) (i : Fin 256) (e : HuffEntry) :
    (s.setHuff t i e).bank t = (s.bank t).set i e := by cases t <;> rfl
theorem setHuff_bank_other (s : State) {t u : Bank} (h : u ≠ t) (i : Fin 256) (e : HuffEntry) :
    (s.setHuff t i e).bank u = s.bank u := by cases t <;> cases u <;> first | rfl | exact absurd rfl h

/-! ## writeCtrl -/

@[simp] theorem writeCtrl_ctrl (w : Word) (s : State) :
    (writeCtrl w s).ctrl = Ctrl.ofWord w := by
  unfold writeCtrl; dsimp only; split <;> rfl
@[simp] theorem writeCtrl_status (w : Word) (s : State) :
    (writeCtrl w s).status = s.status := by
  unfold writeCtrl; dsimp only; split <;> rfl
@[simp] theorem writeCtrl_opa (w : Word) (s : State) :
    (writeCtrl w s).opa = s.opa := by
  unfold writeCtrl; dsimp only; split <;> rfl
@[simp] theorem writeCtrl_opb (w : Word) (s : State) :
    (writeCtrl w s).opb = s.opb := by
  unfold writeCtrl; dsimp only; split <;> rfl
@[simp] theorem writeCtrl_bitptr (w : Word) (s : State) :
    (writeCtrl w s).bitptr = s.bitptr := by
  unfold writeCtrl; dsimp only; split <;> rfl
@[simp] theorem writeCtrl_bitend (w : Word) (s : State) :
    (writeCtrl w s).bitend = s.bitend := by
  unfold writeCtrl; dsimp only; split <;> rfl
@[simp] theorem writeCtrl_res (w : Word) (s : State) :
    (writeCtrl w s).res = s.res := by
  unfold writeCtrl; dsimp only; split <;> rfl
@[simp] theorem writeCtrl_res2 (w : Word) (s : State) :
    (writeCtrl w s).res2 = s.res2 := by
  unfold writeCtrl; dsimp only; split <;> rfl
@[simp] theorem writeCtrl_crccfg (w : Word) (s : State) :
    (writeCtrl w s).crccfg = s.crccfg := by
  unfold writeCtrl; dsimp only; split <;> rfl
@[simp] theorem writeCtrl_pdstate (w : Word) (s : State) :
    (writeCtrl w s).pdstate = if s.ctrl.sameStream (Ctrl.ofWord w) then s.pdstate else { inChain := false, ccount := 0#4 } := by
  unfold writeCtrl; dsimp only; split <;> rfl
@[simp] theorem writeCtrl_pcount (w : Word) (s : State) :
    (writeCtrl w s).pcount = s.pcount := by
  unfold writeCtrl; dsimp only; split <;> rfl
@[simp] theorem writeCtrl_derrcnt (w : Word) (s : State) :
    (writeCtrl w s).derrcnt = s.derrcnt := by
  unfold writeCtrl; dsimp only; split <;> rfl
@[simp] theorem writeCtrl_errinfo (w : Word) (s : State) :
    (writeCtrl w s).errinfo = s.errinfo := by
  unfold writeCtrl; dsimp only; split <;> rfl
@[simp] theorem writeCtrl_errptr (w : Word) (s : State) :
    (writeCtrl w s).errptr = s.errptr := by
  unfold writeCtrl; dsimp only; split <;> rfl
@[simp] theorem writeCtrl_owptr (w : Word) (s : State) :
    (writeCtrl w s).owptr = s.owptr := by
  unfold writeCtrl; dsimp only; split <;> rfl
@[simp] theorem writeCtrl_rowcnt (w : Word) (s : State) :
    (writeCtrl w s).rowcnt = s.rowcnt := by
  unfold writeCtrl; dsimp only; split <;> rfl
@[simp] theorem writeCtrl_maccX (w : Word) (s : State) :
    (writeCtrl w s).maccX = s.maccX := by
  unfold writeCtrl; dsimp only; split <;> rfl
@[simp] theorem writeCtrl_maccY (w : Word) (s : State) :
    (writeCtrl w s).maccY = s.maccY := by
  unfold writeCtrl; dsimp only; split <;> rfl
@[simp] theorem writeCtrl_maccZ (w : Word) (s : State) :
    (writeCtrl w s).maccZ = s.maccZ := by
  unfold writeCtrl; dsimp only; split <;> rfl
@[simp] theorem writeCtrl_pdMark (w : Word) (s : State) :
    (writeCtrl w s).pdMark = s.pdMark := by
  unfold writeCtrl; dsimp only; split <;> rfl
@[simp] theorem writeCtrl_pdTag (w : Word) (s : State) :
    (writeCtrl w s).pdTag = s.pdTag := by
  unfold writeCtrl; dsimp only; split <;> rfl
@[simp] theorem writeCtrl_pdVals (w : Word) (s : State) :
    (writeCtrl w s).pdVals = s.pdVals := by
  unfold writeCtrl; dsimp only; split <;> rfl
@[simp] theorem writeCtrl_pdVlen (w : Word) (s : State) :
    (writeCtrl w s).pdVlen = s.pdVlen := by
  unfold writeCtrl; dsimp only; split <;> rfl
@[simp] theorem writeCtrl_spin (w : Word) (s : State) :
    (writeCtrl w s).spin = s.spin := by
  unfold writeCtrl; dsimp only; split <;> rfl
@[simp] theorem writeCtrl_ht0 (w : Word) (s : State) :
    (writeCtrl w s).ht0 = s.ht0 := by
  unfold writeCtrl; dsimp only; split <;> rfl
@[simp] theorem writeCtrl_ht1 (w : Word) (s : State) :
    (writeCtrl w s).ht1 = s.ht1 := by
  unfold writeCtrl; dsimp only; split <;> rfl
@[simp] theorem writeCtrl_acc (w : Word) (s : State) :
    (writeCtrl w s).acc = s.acc := by
  unfold writeCtrl; dsimp only; split <;> rfl
@[simp] theorem writeCtrl_buf (w : Word) (s : State) :
    (writeCtrl w s).buf = s.buf := by
  unfold writeCtrl; dsimp only; split <;> rfl
@[simp] theorem writeCtrl_oram (w : Word) (s : State) :
    (writeCtrl w s).oram = s.oram := by
  unfold writeCtrl; dsimp only; split <;> rfl
@[simp] theorem writeCtrl_hostQueue (w : Word) (s : State) :
    (writeCtrl w s).hostQueue = s.hostQueue := by
  unfold writeCtrl; dsimp only; split <;> rfl
@[simp] theorem writeCtrl_readData (w : Word) (s : State) :
    (writeCtrl w s).readData = s.readData := by
  unfold writeCtrl; dsimp only; split <;> rfl

/-! ## The flags of STATUS -/

@[simp] theorem Status.completed_derr (f : Status) : (f.completed).derr = f.derr := rfl
@[simp] theorem Status.completed_fatal (f : Status) : (f.completed).fatal = f.fatal := rfl
@[simp] theorem Status.completed_lastOk (f : Status) : (f.completed).lastOk = true := rfl
@[simp] theorem Status.completed_crcOk (f : Status) : (f.completed).crcOk = f.crcOk := rfl
@[simp] theorem Status.completed_lenOdd (f : Status) : (f.completed).lenOdd = f.lenOdd := rfl
@[simp] theorem Status.completed_pvalid (f : Status) : (f.completed).pvalid = f.pvalid := rfl
@[simp] theorem Status.completed_hdr (f : Status) : (f.completed).hdr = f.hdr := rfl
@[simp] theorem Status.completed_term (f : Status) : (f.completed).term = f.term := rfl

@[simp] theorem Status.failed_derr (b : Bool) (f : Status) : (f.failed b).derr = (f.derr || !b) := rfl
@[simp] theorem Status.failed_fatal (b : Bool) (f : Status) : (f.failed b).fatal = (f.fatal || b) := rfl
@[simp] theorem Status.failed_lastOk (b : Bool) (f : Status) : (f.failed b).lastOk = false := rfl
@[simp] theorem Status.failed_crcOk (b : Bool) (f : Status) : (f.failed b).crcOk = f.crcOk := rfl
@[simp] theorem Status.failed_lenOdd (b : Bool) (f : Status) : (f.failed b).lenOdd = f.lenOdd := rfl
@[simp] theorem Status.failed_pvalid (b : Bool) (f : Status) : (f.failed b).pvalid = f.pvalid := rfl
@[simp] theorem Status.failed_hdr (b : Bool) (f : Status) : (f.failed b).hdr = f.hdr := rfl
@[simp] theorem Status.failed_term (b : Bool) (f : Status) : (f.failed b).term = f.term := rfl

@[simp] theorem Status.clear_derr (w : Word) (f : Status) : (f.clear w).derr = (f.derr && !w.getLsbD 0) := rfl
@[simp] theorem Status.clear_fatal (w : Word) (f : Status) : (f.clear w).fatal = (f.fatal && !w.getLsbD 1) := rfl
@[simp] theorem Status.clear_lastOk (w : Word) (f : Status) : (f.clear w).lastOk = f.lastOk := rfl
@[simp] theorem Status.clear_crcOk (w : Word) (f : Status) : (f.clear w).crcOk = f.crcOk := rfl
@[simp] theorem Status.clear_lenOdd (w : Word) (f : Status) : (f.clear w).lenOdd = f.lenOdd := rfl
@[simp] theorem Status.clear_pvalid (w : Word) (f : Status) : (f.clear w).pvalid = f.pvalid := rfl
@[simp] theorem Status.clear_hdr (w : Word) (f : Status) : (f.clear w).hdr = f.hdr := rfl
@[simp] theorem Status.clear_term (w : Word) (f : Status) : (f.clear w).term = f.term := rfl

@[simp] theorem Status.crcResult_derr (a b : Bool) (f : Status) : (f.crcResult a b).derr = f.derr := rfl
@[simp] theorem Status.crcResult_fatal (a b : Bool) (f : Status) : (f.crcResult a b).fatal = f.fatal := rfl
@[simp] theorem Status.crcResult_lastOk (a b : Bool) (f : Status) : (f.crcResult a b).lastOk = f.lastOk := rfl
@[simp] theorem Status.crcResult_crcOk (a b : Bool) (f : Status) : (f.crcResult a b).crcOk = a := rfl
@[simp] theorem Status.crcResult_lenOdd (a b : Bool) (f : Status) : (f.crcResult a b).lenOdd = b := rfl
@[simp] theorem Status.crcResult_pvalid (a b : Bool) (f : Status) : (f.crcResult a b).pvalid = f.pvalid := rfl
@[simp] theorem Status.crcResult_hdr (a b : Bool) (f : Status) : (f.crcResult a b).hdr = f.hdr := rfl
@[simp] theorem Status.crcResult_term (a b : Bool) (f : Status) : (f.crcResult a b).term = f.term := rfl

@[simp] theorem Status.pdResult_derr (a b : Bool) (f : Status) : (f.pdResult a b).derr = f.derr := rfl
@[simp] theorem Status.pdResult_fatal (a b : Bool) (f : Status) : (f.pdResult a b).fatal = f.fatal := rfl
@[simp] theorem Status.pdResult_lastOk (a b : Bool) (f : Status) : (f.pdResult a b).lastOk = f.lastOk := rfl
@[simp] theorem Status.pdResult_crcOk (a b : Bool) (f : Status) : (f.pdResult a b).crcOk = f.crcOk := rfl
@[simp] theorem Status.pdResult_lenOdd (a b : Bool) (f : Status) : (f.pdResult a b).lenOdd = f.lenOdd := rfl
@[simp] theorem Status.pdResult_pvalid (a b : Bool) (f : Status) : (f.pdResult a b).pvalid = a := rfl
@[simp] theorem Status.pdResult_hdr (a b : Bool) (f : Status) : (f.pdResult a b).hdr = b := rfl
@[simp] theorem Status.pdResult_term (a b : Bool) (f : Status) : (f.pdResult a b).term = f.term := rfl

@[simp] theorem Status.setTerm_derr (b : Bool) (f : Status) : (f.setTerm b).derr = f.derr := rfl
@[simp] theorem Status.setTerm_fatal (b : Bool) (f : Status) : (f.setTerm b).fatal = f.fatal := rfl
@[simp] theorem Status.setTerm_lastOk (b : Bool) (f : Status) : (f.setTerm b).lastOk = f.lastOk := rfl
@[simp] theorem Status.setTerm_crcOk (b : Bool) (f : Status) : (f.setTerm b).crcOk = f.crcOk := rfl
@[simp] theorem Status.setTerm_lenOdd (b : Bool) (f : Status) : (f.setTerm b).lenOdd = f.lenOdd := rfl
@[simp] theorem Status.setTerm_pvalid (b : Bool) (f : Status) : (f.setTerm b).pvalid = f.pvalid := rfl
@[simp] theorem Status.setTerm_hdr (b : Bool) (f : Status) : (f.setTerm b).hdr = f.hdr := rfl
@[simp] theorem Status.setTerm_term (b : Bool) (f : Status) : (f.setTerm b).term = b := rfl

/-! ## Bits and banks of an updated state -/

@[simp] theorem complete_bank (s : State) (t : Bank) :
    (complete s).bank t = s.bank t := by cases t <;> rfl
@[simp] theorem recordError_bank (op : Byte) (e : ErrCode) (ptr : Word) (s : State) (t : Bank) :
    (recordError op e ptr s).bank t = s.bank t := by cases t <;> rfl
@[simp] theorem clearErrors_bank (w : Word) (s : State) (t : Bank) :
    (clearErrors w s).bank t = s.bank t := by cases t <;> rfl
@[simp] theorem seek_bank (s : State) (t : Bank) :
    (seek s).bank t = s.bank t := by cases t <;> rfl
@[simp] theorem emitPeriod_bank (s : State) (t : Bank) :
    (emitPeriod s).bank t = s.bank t := by cases t <;> rfl
@[simp] theorem setPdFlags_bank (v h : Bool) (s : State) (t : Bank) :
    (setPdFlags v h s).bank t = s.bank t := by cases t <;> rfl
@[simp] theorem withMag_bank (r : MagRun) (b : Bool) (s : State) (t : Bank) :
    (withMag r b s).bank t = s.bank t := by cases t <;> rfl
@[simp] theorem takeEvent_bank (q : List BusEvent) (s : State) (t : Bank) :
    (takeEvent q s).bank t = s.bank t := by cases t <;> rfl
@[simp] theorem writeCtrl_bank (w : Word) (s : State) (t : Bank) :
    (writeCtrl w s).bank t = s.bank t := by
  cases t <;> simp [State.bank]

end Sys2Proof.Machine
end

