-- ==== Sys2Proof/Laws/Ops.lean ====
section
/-! SUPPORT. What each shared operation can do, said once: cell reads, the end of a command, the operand
checks and the bitstream readers. -/

namespace Sys2Proof.Machine

open Sys2Proof.Safety

/-! ## Cells -/

theorem readCell_eq (sp : Space) (m : Memory) (a : Nat) :
    readCell sp m a = match m.read a with
      | some v => .ok v
      | none => .error (.fault (.unwritten sp a)) := rfl

theorem readCell_of_read {sp : Space} {m : Memory} {a : Nat} {v : Byte} (h : m.read a = some v) :
    readCell sp m a = .ok v := by simp [readCell_eq, h]

theorem readCell_ok_iff {sp : Space} {m : Memory} {a : Nat} {v : Byte} :
    readCell sp m a = .ok v ↔ m.read a = some v := by
  rw [readCell_eq]; split <;> simp_all

theorem readCell_error_iff {sp : Space} {m : Memory} {a : Nat} {e : Stop} :
    readCell sp m a = .error e ↔ m.read a = none ∧ e = .fault (.unwritten sp a) := by
  rw [readCell_eq]
  cases m.read a <;> simp [eq_comm]

theorem readCells_succ (sp : Space) (m : Memory) (a n : Nat) :
    readCells sp m a (n + 1) = match readCell sp m a with
      | .error e => .error e
      | .ok b => match readCells sp m (a + 1) n with
        | .error e => .error e
        | .ok bs => .ok (b :: bs) := rfl

theorem bytesAt_cons {m : Memory} {a : Nat} {b : Byte} {bs : List Byte} :
    BytesAt m a (b :: bs) ↔ m.read a = some b ∧ BytesAt m (a + 1) bs := by
  constructor
  · refine fun h => ⟨h 0 (Nat.succ_pos _), fun k hk => ?_⟩
    have := h (k + 1) (by simpa using hk)
    simpa [Nat.add_assoc, Nat.add_comm 1] using this
  · rintro ⟨h0, h⟩ k hk
    cases k with
    | zero => simpa using h0
    | succ k =>
      have := h k (by simpa using hk)
      simpa [Nat.add_assoc, Nat.add_comm 1] using this

/-- `MemRead` answers the bytes that stand there. -/
theorem readCells_ok_iff {sp : Space} {m : Memory} {a n : Nat} {bs : List Byte} :
    readCells sp m a n = .ok bs ↔ bs.length = n ∧ BytesAt m a bs := by
  induction n generalizing a bs with
  | zero =>
    constructor
    · intro h; cases h; exact ⟨rfl, fun k hk => absurd hk (by simp)⟩
    · rintro ⟨h, -⟩; rw [List.length_eq_zero_iff.mp h]; rfl
  | succ n ih =>
    rw [readCells_succ]
    cases bs with
    | nil => simp only [List.length_nil]; split <;> [skip; split] <;> simp
    | cons b bs =>
      rw [bytesAt_cons, ← readCell_ok_iff (sp := sp), List.length_cons, Nat.add_right_cancel_iff]
      constructor
      · intro h
        split at h
        · cases h
        · split at h
          · cases h
          · injection h with h; injection h with h1 h2; subst h1; subst h2
            exact ⟨(ih.mp ‹_›).1, ‹_›, (ih.mp ‹_›).2⟩
      · rintro ⟨h1, h2, h3⟩
        rw [h2, ih.mpr ⟨h1, h3⟩]

/-- `MemRead` stops only at a cell never written. -/
theorem readCells_error {sp : Space} {m : Memory} {a n : Nat} {e : Stop}
    (h : readCells sp m a n = .error e) :
    ∃ i, a ≤ i ∧ i < a + n ∧ m.read i = none ∧ e = .fault (.unwritten sp i) := by
  induction n generalizing a with
  | zero => cases h
  | succ n ih =>
    rw [readCells_succ] at h
    split at h
    · obtain ⟨h1, h2⟩ := readCell_error_iff.mp ‹_›
      cases h
      exact ⟨a, by omega, by omega, h1, h2⟩
    · split at h
      · cases h
        obtain ⟨i, h1, h2, h3⟩ := ih ‹_›
        exact ⟨i, by omega, by omega, h3⟩
      · cases h

theorem readCells_of_bytesAt {sp : Space} {m : Memory} {a n : Nat} {bs : List Byte}
    (hl : bs.length = n) (h : BytesAt m a bs) : readCells sp m a n = .ok bs :=
  readCells_ok_iff.mpr ⟨hl, h⟩

/-- Where every cell is written, `MemRead` answers. -/
theorem readCells_of_written {sp : Space} {m : Memory} {a n : Nat}
    (h : ∀ i, a ≤ i → i < a + n → (m.read i).isSome) : ∃ bs, readCells sp m a n = .ok bs := by
  cases hr : readCells sp m a n with
  | ok bs => exact ⟨bs, rfl⟩
  | error e =>
    obtain ⟨i, h1, h2, h3, -⟩ := readCells_error hr
    simpa [h3] using h i h1 h2

/-- `MemRead` stops at the first cell never written. -/
theorem readCells_firstUnwritten {sp : Space} {m : Memory} {a n x : Nat}
    (h : FirstUnwritten m a n x) : readCells sp m a n = .error (.fault (.unwritten sp x)) := by
  obtain ⟨h1, h2, h3, h4⟩ := h
  induction n generalizing a with
  | zero => omega
  | succ n ih =>
    rw [readCells_succ]
    rcases Nat.eq_or_lt_of_le h1 with rfl | hlt
    · rw [readCell_error_iff.mpr ⟨h3, rfl⟩]
    · obtain ⟨v, hv⟩ := Option.isSome_iff_exists.mp (h4 a (le_refl a) hlt)
      rw [readCell_of_read hv, ih (a := a + 1) hlt (by omega) fun y hy => h4 y (by omega)]

/-! ## The end of a command -/

@[simp] theorem orAt_ok {α : Type} (s : State) (a : α) : orAt s (.ok a) = .ok a := rfl
@[simp] theorem orAt_error {α : Type} (s : State) (e : Stop) :
    orAt s (.error e : Except Stop α) = .error (e, s) := rfl
@[simp] theorem finish_ok (op : Byte) (s : State) : finish op (.ok s) = .next (complete s) := rfl
@[simp] theorem finish_raise (op : Byte) (e : ErrCode) (ptr : Word) (s : State) :
    finish op (.error (.raise e ptr, s)) = .next (recordError op e ptr s) := rfl
@[simp] theorem finish_fault (op : Byte) (f : Fault) (s : State) :
    finish op (.error (.fault f, s)) = .fault f := rfl

/-- A command that answers a next state completed, or recorded the error it raised. -/
theorem finish_next_iff {op : Byte} {r : CmdResult} {t : State} :
    finish op r = .next t ↔ (∃ s, r = .ok s ∧ t = complete s)
      ∨ ∃ e ptr s, r = .error (.raise e ptr, s) ∧ t = recordError op e ptr s := by
  rcases r with ⟨_ | _, s⟩ | s <;> simp [eq_comm]

theorem finish_not_refused (op : Byte) (r : CmdResult) (x : Refusal) : finish op r ≠ .refused x := by
  rcases r with ⟨_ | _, s⟩ | s <;> simp

theorem runAtomic_ok {i : Instr} {s t : State} {body : Except Stop State} (h : body = .ok t) :
    runAtomic i s body = .next (complete t) := by subst h; rfl

theorem runAtomic_raise {i : Instr} {s : State} {body : Except Stop State} {e : ErrCode} {ptr : Word}
    (h : body = .error (.raise e ptr)) : runAtomic i s body = .next (recordError i.opcode e ptr s) := by
  subst h; rfl

/-- An atomic command that answers a next state completed, or left nothing but its error record
(60_exceptions.md R206). -/
theorem runAtomic_next_iff {i : Instr} {s t : State} {body : Except Stop State} :
    runAtomic i s body = .next t ↔ (∃ s', body = .ok s' ∧ t = complete s')
      ∨ ∃ e ptr, body = .error (.raise e ptr) ∧ t = recordError i.opcode e ptr s := by
  rcases body with (_ | _) | s' <;> simp [runAtomic, eq_comm]

/-- The fault of an atomic command is its body's. -/
theorem runAtomic_fault_iff {i : Instr} {s : State} {body : Except Stop State} {f : Fault} :
    runAtomic i s body = .fault f ↔ body = .error (.fault f) := by
  rcases body with (_ | _) | s' <;> simp [runAtomic]

/-! ## Operand checks -/

theorem checkInbuf_eq (a : Word) (n : Nat) : checkInbuf a n
    = if a.toNat + n ≤ Config.bufBytes then .ok () else .error (.raise .addr a) := by
  simp [checkInbuf, inbuf]

theorem checkInbuf_ok {a : Word} {n : Nat} (h : a.toNat + n ≤ Config.bufBytes) :
    checkInbuf a n = .ok () := by rw [checkInbuf_eq, if_pos h]

theorem checkInbuf_raise {a : Word} {n : Nat} (h : Config.bufBytes < a.toNat + n) :
    checkInbuf a n = .error (.raise .addr a) := by rw [checkInbuf_eq, if_neg (by omega)]

theorem loadBytes_eq (s : State) (a : Word) (n : Nat) : loadBytes s a n
    = if a.toNat + n ≤ Config.bufBytes then bufBytes s a.toNat n else .error (.raise .addr a) := by
  rw [loadBytes, checkInbuf_eq]; split <;> rfl

theorem bsCheck_eq (s : State) : bsCheck s
    = if 8 * Config.bufBytes < s.bitend.toNat then .error (.raise .addr s.bitend)
      else if s.bitend.toNat < s.bitptr.toNat then .error (.raise .addr s.bitptr) else .ok () := rfl

theorem bsCheck_ok_iff {s : State} : bsCheck s = .ok () ↔ StreamOk s := by
  rw [bsCheck_eq, StreamOk]
  split
  · simp; omega
  · split
    · simp; omega
    · simp; omega

theorem checkLegal_eq (i : Instr) :
    checkLegal i = if i.wf then .ok () else .error (.raise .illegal (encode i)) := rfl

theorem short_iff {s : State} {p n : Nat} : short s p n = true ↔ s.bitend.toNat < p + n := by
  simp [short]

theorem short_false {s : State} {p n : Nat} (h : p + n ≤ s.bitend.toNat) : short s p n = false := by
  simp [short]; omega

/-! ## Bits -/

@[simp] theorem natOfBits_nil : natOfBits [] = 0 := rfl

theorem foldl_bits (l : List Bool) (v : Nat) :
    l.foldl (fun v b => 2 * v + b.toNat) v = v * 2 ^ l.length + natOfBits l := by
  unfold natOfBits
  induction l generalizing v with
  | nil => simp
  | cons b l ih =>
    simp only [List.foldl_cons, List.length_cons]
    rw [ih, ih (2 * 0 + b.toNat)]; ring

theorem natOfBits_cons (b : Bool) (l : List Bool) :
    natOfBits (b :: l) = b.toNat * 2 ^ l.length + natOfBits l := by
  rw [natOfBits, List.foldl_cons, foldl_bits]; simp

theorem natOfBits_snoc (l : List Bool) (b : Bool) :
    natOfBits (l ++ [b]) = 2 * natOfBits l + b.toNat := by simp [natOfBits]

theorem natOfBits_lt (l : List Bool) : natOfBits l < 2 ^ l.length := by
  induction l with
  | nil => simp
  | cons b l ih =>
    rw [natOfBits_cons, List.length_cons, pow_succ]
    cases b <;> simp <;> omega

/-- Bit strings of one length with one value are equal. -/
theorem natOfBits_inj {l m : List Bool} (hl : l.length = m.length) (h : natOfBits l = natOfBits m) :
    l = m := by
  induction l generalizing m with
  | nil => exact (List.length_eq_zero_iff.mp hl.symm).symm
  | cons b l ih =>
    cases m with
    | nil => simp at hl
    | cons c m =>
      have hl' : l.length = m.length := by simpa using hl
      rw [natOfBits_cons, natOfBits_cons, hl'] at h
      have h1 := natOfBits_lt l
      have h2 := natOfBits_lt m
      rw [hl'] at h1
      cases b <;> cases c <;> simp at h ⊢ <;> first | exact ih hl' h | omega

theorem bit_ok_iff {s : State} {p : Nat} {b : Bool} : bit s p = .ok b ↔ BitAt s p b := by
  unfold bit BitAt
  constructor
  · intro h
    split at h
    · exact ⟨_, readCell_ok_iff.mp ‹_›, by simpa using h⟩
    · cases h
  · rintro ⟨v, h1, h2⟩
    rw [readCell_of_read h1, ← h2]

theorem bit_error {s : State} {p : Nat} {e : Stop} (h : bit s p = .error e) :
    s.buf.read (p / 8) = none ∧ e = .fault (.unwritten .buf (p / 8)) := by
  unfold bit at h
  split at h
  · cases h
  · cases h; exact readCell_error_iff.mp ‹_›

theorem bitsAt_nil (s : State) (p : Nat) : BitsAt s p [] := fun k hk => absurd hk (by simp)

theorem bitsAt_cons {s : State} {p : Nat} {b : Bool} {l : List Bool} :
    BitsAt s p (b :: l) ↔ BitAt s p b ∧ BitsAt s (p + 1) l := by
  constructor
  · refine fun h => ⟨h 0 (Nat.succ_pos _), fun k hk => ?_⟩
    have := h (k + 1) (by simpa using hk)
    simpa [Nat.add_assoc, Nat.add_comm 1] using this
  · rintro ⟨h0, h⟩ k hk
    cases k with
    | zero => simpa using h0
    | succ k =>
      have := h k (by simpa using hk)
      simpa [Nat.add_assoc, Nat.add_comm 1] using this

theorem bitsAt_append {s : State} {p : Nat} {l m : List Bool} :
    BitsAt s p (l ++ m) ↔ BitsAt s p l ∧ BitsAt s (p + l.length) m := by
  induction l generalizing p with
  | nil => simp [bitsAt_nil]
  | cons b l ih =>
    rw [List.cons_append, bitsAt_cons, bitsAt_cons, ih, and_assoc]
    simp [Nat.add_assoc, Nat.add_comm 1]

theorem bitAt_unique {s : State} {p : Nat} {b c : Bool} (hb : BitAt s p b) (hc : BitAt s p c) :
    b = c := by
  obtain ⟨v, h1, h2⟩ := hb
  obtain ⟨w, h3, h4⟩ := hc
  rw [h1] at h3
  cases h3
  exact h2 ▸ h4

theorem bitsOnto_ok_iff {s : State} {v p n w : Nat} : bitsOnto s v p n = .ok w
    ↔ ∃ l, l.length = n ∧ BitsAt s p l ∧ w = v * 2 ^ n + natOfBits l := by
  induction n generalizing v p with
  | zero =>
    constructor
    · intro h; cases h; exact ⟨[], rfl, bitsAt_nil s p, by simp⟩
    · rintro ⟨l, h1, -, h3⟩
      rw [List.length_eq_zero_iff.mp h1] at h3
      simp [bitsOnto, h3]
  | succ n ih =>
    rw [bitsOnto]
    constructor
    · intro h
      split at h
      · cases h
      · rename_i b hb
        obtain ⟨l, h1, h2, h3⟩ := ih.mp h
        refine ⟨b :: l, by simp [h1], bitsAt_cons.mpr ⟨bit_ok_iff.mp hb, h2⟩, ?_⟩
        rw [h3, natOfBits_cons, h1]; ring
    · rintro ⟨l, h1, h2, h3⟩
      cases l with
      | nil => simp at h1
      | cons b l =>
        obtain ⟨hb, h2⟩ := bitsAt_cons.mp h2
        have h1 : l.length = n := by simpa using h1
        rw [bit_ok_iff.mpr hb]
        refine ih.mpr ⟨l, h1, h2, ?_⟩
        rw [h3, natOfBits_cons, h1]; ring

/-- `bits(p, n)` is the value of the n bits that stand there. -/
theorem bits_ok_iff {s : State} {p n v : Nat} :
    bits s p n = .ok v ↔ ∃ l, l.length = n ∧ BitsAt s p l ∧ v = natOfBits l := by
  simp [bits, bitsOnto_ok_iff]

theorem bitsOnto_error {s : State} {v p n : Nat} {e : Stop} (h : bitsOnto s v p n = .error e) :
    ∃ k, k < n ∧ s.buf.read ((p + k) / 8) = none
      ∧ e = .fault (.unwritten .buf ((p + k) / 8)) := by
  induction n generalizing v p with
  | zero => cases h
  | succ n ih =>
    rw [bitsOnto] at h
    split at h
    · cases h; exact ⟨0, by omega, bit_error ‹_›⟩
    · obtain ⟨k, h1, h2⟩ := ih h
      refine ⟨k + 1, by omega, ?_⟩
      rwa [show p + 1 + k = p + (k + 1) by omega] at h2

theorem bits_error {s : State} {p n : Nat} {e : Stop} (h : bits s p n = .error e) :
    ∃ k, k < n ∧ s.buf.read ((p + k) / 8) = none
      ∧ e = .fault (.unwritten .buf ((p + k) / 8)) := bitsOnto_error h

theorem bits_of_bitsAt {s : State} {p n : Nat} {l : List Bool} (hl : l.length = n)
    (h : BitsAt s p l) : bits s p n = .ok (natOfBits l) := bits_ok_iff.mpr ⟨l, hl, h, rfl⟩

/-- `raw(p, n)`, every case (40_bitstream.md R103). -/
theorem raw_cases (s : State) (p n : Nat) :
    (s.bitend.toNat < p + n ∧ raw s p n = .error (.raise .bitsShort (asWord p)))
      ∨ (p + n ≤ s.bitend.toNat ∧ raw s p n = bits s p n) := by
  by_cases h : s.bitend.toNat < p + n
  · exact .inl ⟨h, by simp [raw, short_iff.mpr h]⟩
  · exact .inr ⟨by omega, by simp [raw, short_false (s := s) (p := p) (n := n) (by omega)]⟩

theorem raw_ok_iff {s : State} {p n v : Nat} : raw s p n = .ok v
    ↔ p + n ≤ s.bitend.toNat ∧ ∃ l, l.length = n ∧ BitsAt s p l ∧ v = natOfBits l := by
  rcases raw_cases s p n with ⟨h1, h2⟩ | ⟨h1, h2⟩
  · rw [h2]; constructor
    · intro h; cases h
    · rintro ⟨h, -⟩; omega
  · rw [h2, bits_ok_iff]; simp [h1]

/-! ## Sign pairs -/

theorem bits_two {s : State} {p v : Nat} : bits s p 2 = .ok v
    ↔ ∃ a b, BitsAt s p [a, b] ∧ v = 2 * a.toNat + b.toNat := by
  rw [bits_ok_iff]
  constructor
  · rintro ⟨l, h1, h2, h3⟩
    match l, h1 with
    | [a, b], _ => exact ⟨a, b, h2, by rw [h3, natOfBits_cons, natOfBits_cons]; simp; ring⟩
  · rintro ⟨a, b, h1, h2⟩
    exact ⟨[a, b], rfl, h1, by rw [h2, natOfBits_cons, natOfBits_cons]; simp; ring⟩

/-- `sign2(p, m)` on the two bits that stand there (40_bitstream.md R108). -/
theorem sign2_of_bits {s : State} {p : Nat} {a b : Bool} (m : SignMode)
    (hp : p + 2 ≤ s.bitend.toNat) (h : BitsAt s p [a, b]) :
    sign2 s p m = match a, b with
      | false, false => .ok .plus
      | false, true => .ok .minus
      | true, true => if m = .terminator then .ok .term else .error (.raise .signBad (asWord p))
      | true, false => .error (.raise .signBad (asWord p)) := by
  have hb : bits s p 2 = .ok (2 * a.toNat + b.toNat) := bits_two.mpr ⟨a, b, h, rfl⟩
  simp only [sign2, short_false hp, hb]
  cases a <;> cases b <;> simp

theorem sign2_short {s : State} {p : Nat} (m : SignMode) (h : s.bitend.toNat < p + 2) :
    sign2 s p m = .error (.raise .signShort (asWord p)) := by simp [sign2, short_iff.mpr h]

/-- Every case of `sign2(p, m)`. -/
theorem sign2_cases (s : State) (p : Nat) (m : SignMode) :
    (s.bitend.toNat < p + 2 ∧ sign2 s p m = .error (.raise .signShort (asWord p)))
      ∨ (p + 2 ≤ s.bitend.toNat ∧ ∃ k, k < 2 ∧ s.buf.read ((p + k) / 8) = none
          ∧ sign2 s p m = .error (.fault (.unwritten .buf ((p + k) / 8))))
      ∨ (SignAt s p 1 ∧ sign2 s p m = .ok .plus)
      ∨ (SignAt s p (-1) ∧ sign2 s p m = .ok .minus)
      ∨ (p + 2 ≤ s.bitend.toNat ∧ BitsAt s p [true, true] ∧ m = .terminator
          ∧ sign2 s p m = .ok .term)
      ∨ (p + 2 ≤ s.bitend.toNat
          ∧ (BitsAt s p [true, false] ∨ (BitsAt s p [true, true] ∧ m = .strict))
          ∧ sign2 s p m = .error (.raise .signBad (asWord p))) := by
  by_cases hp : s.bitend.toNat < p + 2
  · exact .inl ⟨hp, sign2_short m hp⟩
  have hp : p + 2 ≤ s.bitend.toNat := by omega
  cases hb : bits s p 2 with
  | error e =>
    obtain ⟨k, h1, h2, h3⟩ := bits_error hb
    refine .inr (.inl ⟨hp, k, h1, h2, ?_⟩)
    simp [sign2, short_false hp, hb, h3]
  | ok v =>
    obtain ⟨a, b, h1, -⟩ := bits_two.mp hb
    have h := sign2_of_bits m hp h1
    cases a <;> cases b <;> simp only at h
    · exact .inr (.inr (.inl ⟨⟨hp, .inl ⟨h1, rfl⟩⟩, h⟩))
    · exact .inr (.inr (.inr (.inl ⟨⟨hp, .inr ⟨h1, rfl⟩⟩, h⟩)))
    · exact .inr (.inr (.inr (.inr (.inr ⟨hp, .inl h1, h⟩))))
    · cases m with
      | strict => exact .inr (.inr (.inr (.inr (.inr ⟨hp, .inr ⟨h1, rfl⟩, by simpa using h⟩))))
      | terminator => exact .inr (.inr (.inr (.inr (.inl ⟨hp, h1, rfl, by simpa using h⟩))))

/-- The sign of a delta, as the relation of the statements. -/
theorem sign2_of_signAt {s : State} {p : Nat} {sg : Int} (m : SignMode) (h : SignAt s p sg) :
    ∃ g, sign2 s p m = .ok g ∧ g.toInt = sg ∧ g ≠ .term := by
  obtain ⟨hp, ⟨h1, rfl⟩ | ⟨h1, rfl⟩⟩ := h
  · exact ⟨.plus, by simpa using sign2_of_bits m hp h1, rfl, by simp⟩
  · exact ⟨.minus, by simpa using sign2_of_bits m hp h1, rfl, by simp⟩

/-! ## Huffman codes -/

theorem matchesKey_iff {bank : HuffBank} {i : Fin 256} {l : List Bool} :
    bank[i].matchesKey l.length (natOfBits l) = true ↔ IsKey bank i l := by
  simp [HuffEntry.matchesKey, IsKey, Fin.getElem_fin]

theorem hmatch_eq_none_iff {bank : HuffBank} {l : List Bool} :
    hmatch bank l.length (natOfBits l) = none ↔ ∀ i, ¬ IsKey bank i l := by
  rw [hmatch, List.find?_eq_none]
  constructor
  · intro h i hi
    refine h bank[i] ?_ (matchesKey_iff.mpr hi)
    simp
  · intro h e he hm
    obtain ⟨i, hi, rfl⟩ := Vector.getElem_of_mem (xs := bank) (by simpa using he)
    exact h ⟨i, hi⟩ (matchesKey_iff.mp hm)

theorem hmatch_eq_some_iff {bank : HuffBank} {l : List Bool} {e : HuffEntry} :
    hmatch bank l.length (natOfBits l) = some e
      ↔ ∃ i, e = bank[i] ∧ IsKey bank i l ∧ ∀ j, j < i → ¬ IsKey bank j l := by
  rw [hmatch, List.find?_eq_some_iff_getElem]
  constructor
  · rintro ⟨hm, i, hi, he, hj⟩
    have hi' : i < 256 := by simpa using hi
    refine ⟨⟨i, hi'⟩, by simpa using he.symm, ?_, ?_⟩
    · have : bank[(⟨i, hi'⟩ : Fin 256)] = e := by simpa using he
      rw [← matchesKey_iff, this]; exact hm
    · intro j hj' hk
      have := hj j hj'
      rw [← matchesKey_iff] at hk
      simp at this hk
      simp [hk] at this
  · rintro ⟨i, he, hk, hj⟩
    refine ⟨he ▸ matchesKey_iff.mpr hk, i, by simp, by simp [he], ?_⟩
    intro j hji
    have := hj ⟨j, by omega⟩ hji
    rw [← matchesKey_iff] at this
    simpa using this

theorem hufFrom_succ (s : State) (t : Bank) (p left v : Nat) :
    hufFrom s t p (left + 1) v
      = if short s p (Config.hufMaxLen - left) then .error (.raise .hufShort (asWord p))
        else match bit s (p + (Config.hufMaxLen - left - 1)) with
          | .error e => .error e
          | .ok b => match hmatch (s.bank t) (Config.hufMaxLen - left) (2 * v + b.toNat) with
            | some e => .ok (e.code, Config.hufMaxLen - left)
            | none => hufFrom s t p left (2 * v + b.toNat) := rfl

end Sys2Proof.Machine
end

