-- ==== Sys2Proof/Laws/Huffman.lean ====
section
/-! SUPPORT. What `huf(t, p)` answers (40_bitstream.md R106): the shortest key the bits begin with, or the
error that says why there is none. -/

namespace Sys2Proof.Machine

open Sys2Proof.Safety

theorem noKey_nil (bank : HuffBank) : NoKeyAmongPrefixes bank [] := by
  intro k h1 h2; simp at h2; omega

/-- One more bit that completes no key. -/
theorem noKey_snoc {bank : HuffBank} {l : List Bool} {b : Bool} (h : NoKeyAmongPrefixes bank l)
    (hb : ∀ i, ¬ IsKey bank i (l ++ [b])) : NoKeyAmongPrefixes bank (l ++ [b]) := by
  intro k h1 h2 i
  by_cases hk : k = l.length + 1
  · subst hk; rw [List.take_of_length_le (by simp)]; exact hb i
  · have : k ≤ l.length := by simp at h2; omega
    rw [List.take_append_of_le_length this]
    exact h k h1 this i

theorem noKey_of_isFirstKey {bank : HuffBank} {i : Fin 256} {l : List Bool}
    (h : IsFirstKey bank i l) {k : Nat} (hk : k < l.length) : NoKeyAmongPrefixes bank (l.take k) := by
  intro j h1 h2
  have hj : j ≤ k := by simp at h2; omega
  rw [List.take_take, min_eq_left hj]
  exact h.2.2 j h1 (by omega)

theorem bitsAt_snoc {s : State} {p : Nat} {l : List Bool} {b : Bool} :
    BitsAt s p (l ++ [b]) ↔ BitsAt s p l ∧ BitAt s (p + l.length) b := by
  rw [bitsAt_append, bitsAt_cons]; simp [bitsAt_nil]

theorem bitsAt_take {s : State} {p : Nat} {l : List Bool} (h : BitsAt s p l) (k : Nat) :
    BitsAt s p (l.take k) := by
  rw [← List.take_append_drop k l, bitsAt_append] at h; exact h.1

/-- One length of the search: the bits `l` have been read and none of their prefixes is a key. -/
theorem hufFrom_step {s : State} {t : Bank} {p left : Nat} {l : List Bool}
    (hl : l.length + (left + 1) = Config.hufMaxLen) :
    hufFrom s t p (left + 1) (natOfBits l)
      = if short s p (l.length + 1) then .error (.raise .hufShort (asWord p))
        else match bit s (p + l.length) with
          | .error e => .error e
          | .ok b => match hmatch (s.bank t) (l ++ [b]).length (natOfBits (l ++ [b])) with
            | some e => .ok (e.code, l.length + 1)
            | none => hufFrom s t p left (natOfBits (l ++ [b])) := by
  have h1 : Config.hufMaxLen - left = l.length + 1 := by omega
  rw [hufFrom_succ, h1]
  simp only [natOfBits_snoc, List.length_append, List.length_singleton, Nat.add_sub_cancel]
  all_goals cases bit s (p + l.length) <;> rfl

/-- Every outcome of the search from the bits `l` on. -/
theorem hufFrom_cases {s : State} {t : Bank} {p : Nat} (left : Nat) (l : List Bool)
    (hl : l.length + left = Config.hufMaxLen) (hb : BitsAt s p l)
    (hle : l = [] ∨ p + l.length ≤ s.bitend.toNat) (hn : NoKeyAmongPrefixes (s.bank t) l) :
    (∃ c q, CodeAt s t p c q ∧ hufFrom s t p left (natOfBits l) = .ok (c, q - p))
      ∨ (∃ m : List Bool, m.length < Config.hufMaxLen ∧ BitsAt s p m ∧ (m = [] ∨ p + m.length ≤ s.bitend.toNat)
          ∧ s.bitend.toNat < p + m.length + 1 ∧ NoKeyAmongPrefixes (s.bank t) m
          ∧ hufFrom s t p left (natOfBits l) = .error (.raise .hufShort (asWord p)))
      ∨ (∃ m : List Bool, m.length = Config.hufMaxLen ∧ BitsAt s p m ∧ p + m.length ≤ s.bitend.toNat
          ∧ NoKeyAmongPrefixes (s.bank t) m
          ∧ hufFrom s t p left (natOfBits l) = .error (.raise .hufLong (asWord p)))
      ∨ (∃ k, k < Config.hufMaxLen ∧ p + k < s.bitend.toNat ∧ s.buf.read ((p + k) / 8) = none
          ∧ hufFrom s t p left (natOfBits l) = .error (.fault (.unwritten .buf ((p + k) / 8)))) := by
  induction left generalizing l with
  | zero =>
    refine .inr (.inr (.inl ⟨l, hl, hb, ?_, hn, rfl⟩))
    rcases hle with rfl | h
    · simp [Config.hufMaxLen] at hl
    · exact h
  | succ left ih =>
    rw [hufFrom_step hl]
    by_cases hs : s.bitend.toNat < p + (l.length + 1)
    · refine .inr (.inl ⟨l, by omega, hb, hle, by omega, hn, ?_⟩)
      rw [short_iff.mpr hs]; rfl
    · have hs' : p + (l.length + 1) ≤ s.bitend.toNat := by omega
      rw [short_false hs']
      cases hbit : bit s (p + l.length) with
      | error e =>
        obtain ⟨h1, h2⟩ := bit_error hbit
        exact .inr (.inr (.inr ⟨l.length, by omega, by omega, h1, by simp [h2]⟩))
      | ok b =>
        have hb' : BitsAt s p (l ++ [b]) := bitsAt_snoc.mpr ⟨hb, bit_ok_iff.mp hbit⟩
        cases hm : hmatch (s.bank t) (l ++ [b]).length (natOfBits (l ++ [b])) with
        | some e =>
          obtain ⟨i, he, hk, hj⟩ := hmatch_eq_some_iff.mp hm
          refine .inl ⟨e.code, p + (l.length + 1), ⟨l ++ [b], i, by simp, by simp; omega, hb',
            by simp, by omega, ⟨hk, hj, ?_⟩, by rw [he]⟩, ?_⟩
          swap
          · simp only [Bool.false_eq_true, if_false, hm, Nat.add_sub_cancel_left]
          intro k h1 h2 j
          have h2 : k ≤ l.length := by simp at h2; omega
          rw [List.take_append_of_le_length h2]
          exact hn k h1 h2 j
        | none =>
          simp only [Bool.false_eq_true, if_false, hm]
          exact ih (l ++ [b]) (by simp; omega) hb' (.inr (by simpa using hs'))
            (noKey_snoc hn (hmatch_eq_none_iff.mp hm))

/-- Every outcome of `huf(t, p)`. -/
theorem huf_cases (s : State) (t : Bank) (p : Nat) :
    (∃ c q, CodeAt s t p c q ∧ huf s t p = .ok (c, q - p))
      ∨ (∃ m : List Bool, m.length < Config.hufMaxLen ∧ BitsAt s p m ∧ (m = [] ∨ p + m.length ≤ s.bitend.toNat)
          ∧ s.bitend.toNat < p + m.length + 1 ∧ NoKeyAmongPrefixes (s.bank t) m
          ∧ huf s t p = .error (.raise .hufShort (asWord p)))
      ∨ (∃ m : List Bool, m.length = Config.hufMaxLen ∧ BitsAt s p m ∧ p + m.length ≤ s.bitend.toNat
          ∧ NoKeyAmongPrefixes (s.bank t) m
          ∧ huf s t p = .error (.raise .hufLong (asWord p)))
      ∨ (∃ k, k < Config.hufMaxLen ∧ p + k < s.bitend.toNat ∧ s.buf.read ((p + k) / 8) = none
          ∧ huf s t p = .error (.fault (.unwritten .buf ((p + k) / 8)))) :=
  hufFrom_cases Config.hufMaxLen [] (by simp) (bitsAt_nil s p) (.inl rfl) (noKey_nil _)

/-- Bits that stand at one place and have one length are the same. -/
theorem bitsAt_unique {s : State} {p : Nat} {l m : List Bool} (hl : BitsAt s p l) (hm : BitsAt s p m)
    (h : l.length = m.length) : l = m := by
  refine List.ext_getElem h fun k h1 h2 => bitAt_unique (hl k h1) (hm k h2)

/-- The bits that stand at one place are comparable: the shorter is the beginning of the longer. -/
theorem bitsAt_prefix {s : State} {p : Nat} {l m : List Bool} (hl : BitsAt s p l) (hm : BitsAt s p m)
    (h : l.length ≤ m.length) : l = m.take l.length :=
  bitsAt_unique hl (bitsAt_take hm _) (by simp [h])

/-- The shortest key determines the code and its end. -/
theorem codeAt_unique {s : State} {t : Bank} {p : Nat} {c d : Byte} {q r : Nat}
    (hc : CodeAt s t p c q) (hd : CodeAt s t p d r) : c = d ∧ q = r := by
  obtain ⟨l, i, l1, -, l3, rfl, -, l6, rfl⟩ := hc
  obtain ⟨m, j, m1, -, m3, rfl, -, m6, rfl⟩ := hd
  have hlen : l.length = m.length := by
    rcases lt_trichotomy l.length m.length with h | h | h
    · have := bitsAt_prefix l3 m3 h.le
      exact absurd (this ▸ l6.1) (m6.2.2 l.length l1 h i)
    · exact h
    · have := bitsAt_prefix m3 l3 h.le
      exact absurd (this ▸ m6.1) (l6.2.2 m.length m1 h j)
  obtain rfl := bitsAt_unique l3 m3 hlen
  have : i = j := by
    rcases lt_trichotomy i j with h | h | h
    · exact absurd l6.1 (m6.2.1 i h)
    · exact h
    · exact absurd m6.1 (l6.2.1 j h)
  subst this
  exact ⟨rfl, rfl⟩

/-- A key in the stream rules out the error that fewer bits than a key remain, and the one that no key
begins there. -/
theorem codeAt_not_noKey {s : State} {t : Bank} {p : Nat} {c : Byte} {q : Nat} (hc : CodeAt s t p c q)
    {m : List Bool} (hm : BitsAt s p m) (hl : q ≤ p + m.length) :
    ¬ NoKeyAmongPrefixes (s.bank t) m := by
  obtain ⟨l, i, l1, -, l3, rfl, -, l6, -⟩ := hc
  intro hn
  have h : l.length ≤ m.length := by omega
  exact hn l.length l1 h i ((bitsAt_prefix l3 hm h) ▸ l6.1)

/-- `huf(t, p)` answers the shortest key's code. -/
theorem huf_of_codeAt {s : State} {t : Bank} {p : Nat} {c : Byte} {q : Nat} (h : CodeAt s t p c q) :
    huf s t p = .ok (c, q - p) := by
  have hq : q ≤ s.bitend.toNat := by obtain ⟨l, i, -, -, -, -, h, -⟩ := h; exact h
  have hqp : q ≤ p + Config.hufMaxLen := by obtain ⟨l, i, -, h2, -, h4, -⟩ := h; omega
  rcases huf_cases s t p with ⟨d, r, hd, he⟩ | ⟨m, -, h2, -, h4, h5, -⟩ | ⟨m, h1, h2, -, h4, -⟩
      | ⟨k, h1, h2, h3, he⟩
  · obtain ⟨rfl, rfl⟩ := codeAt_unique h hd
    exact he
  · exact absurd h5 (codeAt_not_noKey h h2 (by omega))
  · exact absurd h4 (codeAt_not_noKey h h2 (by omega))
  · obtain ⟨l, i, l1, l2, l3, rfl, l5, l6, rfl⟩ := h
    by_cases hk : k < l.length
    · obtain ⟨v, hv, -⟩ := l3 k hk
      rw [h3] at hv; cases hv
    · exfalso
      have key : ∀ j, j ≤ l.length → ∀ left, j + left = Config.hufMaxLen →
          hufFrom s t p left (natOfBits (l.take j)) = .error (.fault (.unwritten .buf ((p + k) / 8))) →
          j < l.length → False := by
        intro j
        induction hrem : l.length - j generalizing j with
        | zero => intros; omega
        | succ n ih =>
          intro hj left hleft hf hlt
          obtain ⟨left', rfl⟩ : ∃ left', left = left' + 1 := ⟨left - 1, by omega⟩
          have hlen : (l.take j).length = j := by simp; omega
          rw [hufFrom_step (by omega), hlen,
            short_false (by omega), bit_ok_iff.mpr (l3 j hlt)] at hf
          have htake : l.take j ++ [l[j]] = l.take (j + 1) := by
            rw [List.take_succ_eq_append_getElem hlt]
          simp only [htake, Bool.false_eq_true, if_false] at hf
          split at hf
          · cases hf
          · rename_i hnone
            by_cases hj1 : j + 1 < l.length
            · exact ih (j + 1) (by omega) (by omega) left' (by omega) hf hj1
            · have : l.take (j + 1) = l := List.take_of_length_le (by omega)
              rw [this] at hnone
              exact hmatch_eq_none_iff.mp hnone i l6.1
      exact key 0 (by omega) Config.hufMaxLen (by simp) (by exact he) (by omega)

/-- What an answer of `huf(t, p)` says. -/
theorem codeAt_of_huf {s : State} {t : Bank} {p : Nat} {c : Byte} {L : Nat}
    (h : huf s t p = .ok (c, L)) : CodeAt s t p c (p + L) ∧ 1 ≤ L ∧ L ≤ Config.hufMaxLen := by
  rcases huf_cases s t p with ⟨d, r, hd, he⟩ | ⟨m, -, -, -, -, -, he⟩ | ⟨m, -, -, -, -, he⟩
      | ⟨k, -, -, -, he⟩
  · rw [h] at he
    have hr : p < r ∧ r ≤ p + Config.hufMaxLen := by
      obtain ⟨l, i, h1, h2, -, rfl, -⟩ := hd; omega
    cases he
    rw [show p + (r - p) = r by omega]
    exact ⟨hd, by omega, by omega⟩
  all_goals rw [h] at he; cases he

/-- What an error of `huf(t, p)` can be. -/
theorem huf_error {s : State} {t : Bank} {p : Nat} {e : Stop} (h : huf s t p = .error e) :
    e = .raise .hufShort (asWord p) ∨ e = .raise .hufLong (asWord p)
      ∨ ∃ a, s.buf.read a = none ∧ 8 * a < s.bitend.toNat ∧ e = .fault (.unwritten .buf a) := by
  rcases huf_cases s t p with ⟨d, r, hd, he⟩ | ⟨m, -, -, -, -, -, he⟩ | ⟨m, -, -, -, -, he⟩
      | ⟨k, -, h2, h3, he⟩ <;> rw [h] at he <;> cases he
  · exact .inl rfl
  · exact .inr (.inl rfl)
  · exact .inr (.inr ⟨_, h3, by omega, rfl⟩)

/-- Fewer than 12 bits remain and none of their prefixes is a key: HUF_SHORT. -/
theorem huf_short {s : State} {t : Bank} {p : Nat} {l : List Bool} (hl : l.length < Config.hufMaxLen)
    (hb : BitsAt s p l) (he : s.bitend.toNat = p + l.length)
    (hn : NoKeyAmongPrefixes (s.bank t) l) : huf s t p = .error (.raise .hufShort (asWord p)) := by
  rcases huf_cases s t p with ⟨d, r, hd, -⟩ | ⟨m, -, -, -, -, -, h⟩ | ⟨m, h1, -, h3, -⟩
      | ⟨k, -, h2, h3, -⟩
  · have hr : r ≤ s.bitend.toNat := by obtain ⟨_, _, -, -, -, -, h, -⟩ := hd; exact h
    exact absurd hn (codeAt_not_noKey hd hb (by omega))
  · exact h
  · omega
  · obtain ⟨v, hv, -⟩ := hb k (by omega)
    rw [h3] at hv; cases hv

/-- Twelve bits none of whose prefixes is a key: HUF_LONG. -/
theorem huf_long {s : State} {t : Bank} {p : Nat} {l : List Bool} (hl : l.length = Config.hufMaxLen)
    (hb : BitsAt s p l) (he : p + l.length ≤ s.bitend.toNat)
    (hn : NoKeyAmongPrefixes (s.bank t) l) : huf s t p = .error (.raise .hufLong (asWord p)) := by
  rcases huf_cases s t p with ⟨d, r, hd, -⟩ | ⟨m, h1, -, -, h4, -⟩ | ⟨m, -, -, -, -, h⟩
      | ⟨k, h1, -, h3, -⟩
  · have hr : r ≤ p + Config.hufMaxLen := by obtain ⟨_, _, -, h, -, h', -⟩ := hd; omega
    exact absurd hn (codeAt_not_noKey hd hb (by omega))
  · omega
  · exact h
  · obtain ⟨v, hv, -⟩ := hb k (by omega)
    rw [h3] at hv; cases hv

end Sys2Proof.Machine
end

