-- ==== Sys2Proof/Laws/Commands.lean ====
section
/-! SUPPORT. How each command can end: every outcome of the bitstream, byte-order and CRC commands, said
once. -/

namespace Sys2Proof.Machine

open Sys2Proof.Safety

/-! ## Error entry and completion, in the words of the statements -/

theorem complete_eq_succeeded (s : State) : complete s = succeeded s := rfl

theorem recordError_of_fatal {e : ErrCode} (h : e.fatal = true) (op : Byte) (ptr : Word) (s : State) :
    recordError op e ptr s = afterFatalError op e.code ptr s := by
  simp [recordError, afterFatalError, h, Status.failed]

theorem recordError_of_decode {e : ErrCode} (h : e.fatal = false) (op : Byte) (ptr : Word) (s : State) :
    recordError op e ptr s = afterDecodeError op e.code ptr s := by
  simp [recordError, afterDecodeError, h, Status.failed]

/-! ## Stops -/

/-- A stop is one of the given errors, or the fault of an unwritten byte of BUF. -/
def StopIn (s : State) (codes : List ErrCode) (e : Stop) : Prop :=
  (∃ c ptr, e = .raise c ptr ∧ c ∈ codes)
    ∨ ∃ a, a < Config.bufBytes ∧ s.buf.read a = none ∧ e = .fault (.unwritten .buf a)

theorem StopIn.mono {s : State} {cs ds : List ErrCode} {e : Stop} (h : StopIn s cs e)
    (hs : ∀ c ∈ cs, c ∈ ds) : StopIn s ds e := by
  rcases h with ⟨c, p, rfl, hc⟩ | h
  · exact .inl ⟨c, p, rfl, hs c hc⟩
  · exact .inr h

theorem stopIn_raise {s : State} {codes : List ErrCode} {c : ErrCode} {ptr : Word} (h : c ∈ codes) :
    StopIn s codes (.raise c ptr) := .inl ⟨c, ptr, rfl, h⟩

theorem stopIn_checkInbuf {s : State} {a : Word} {n : Nat} {e : Stop} (h : checkInbuf a n = .error e) :
    StopIn s [.addr] e := by
  rw [checkInbuf_eq] at h; split at h
  · cases h
  · cases h; exact stopIn_raise (by simp)

theorem inbuf_of_checkInbuf {a : Word} {n : Nat} (h : checkInbuf a n = .ok ()) :
    a.toNat + n ≤ Config.bufBytes := by
  rw [checkInbuf_eq] at h; split at h
  · assumption
  · cases h

theorem stopIn_bsCheck {s : State} {e : Stop} (h : bsCheck s = .error e) : StopIn s [.addr] e := by
  rw [bsCheck_eq] at h; split at h
  · cases h; exact stopIn_raise (by simp)
  · split at h
    · cases h; exact stopIn_raise (by simp)
    · cases h

theorem stopIn_bufBytes {s : State} {a n : Nat} {e : Stop} (ha : a + n ≤ Config.bufBytes)
    (h : bufBytes s a n = .error e) : StopIn s [] e := by
  obtain ⟨i, h1, h2, h3, h4⟩ := readCells_error h
  exact .inr ⟨i, by omega, h3, h4⟩

theorem stopIn_loadBytes {s : State} {a : Word} {n : Nat} {e : Stop} (h : loadBytes s a n = .error e) :
    StopIn s [.addr] e := by
  rw [loadBytes_eq] at h; split at h
  · exact (stopIn_bufBytes ‹_› h).mono (by simp)
  · cases h; exact stopIn_raise (by simp)

theorem stopIn_raw {s : State} {p n : Nat} {e : Stop} (hs : StreamOk s) (h : raw s p n = .error e) :
    StopIn s [.bitsShort] e := by
  rcases raw_cases s p n with ⟨-, h2⟩ | ⟨h1, h2⟩
  · rw [h2] at h; cases h; exact stopIn_raise (by simp)
  · rw [h2] at h
    obtain ⟨k, h3, h4, h5⟩ := bits_error h
    have := hs.2
    exact .inr ⟨_, by omega, h4, h5⟩

theorem stopIn_huf {s : State} {t : Bank} {p : Nat} {e : Stop} (hs : StreamOk s)
    (h : huf s t p = .error e) : StopIn s [.hufShort, .hufLong] e := by
  rcases huf_error h with rfl | rfl | ⟨a, h1, h2, h3⟩
  · exact stopIn_raise (by simp)
  · exact stopIn_raise (by simp)
  · have := hs.2
    exact .inr ⟨a, by omega, h1, h3⟩

theorem stopIn_sign2 {s : State} {p : Nat} {m : SignMode} {e : Stop} (hs : StreamOk s)
    (h : sign2 s p m = .error e) : StopIn s [.signShort, .signBad] e := by
  have := hs.2
  rcases sign2_cases s p m with ⟨-, h2⟩ | ⟨h1, k, h2, h3, h4⟩ | ⟨-, h2⟩ | ⟨-, h2⟩ | ⟨-, -, -, h2⟩
    | ⟨-, -, h2⟩ <;> rw [h] at *
  · cases h2; exact stopIn_raise (by simp)
  · cases h4; exact .inr ⟨_, by omega, h3, rfl⟩
  · cases h2
  · cases h2
  · cases h2
  · cases h2; exact stopIn_raise (by simp)

/-- Inside a stream that is long enough, a sign pair can only be bad. -/
theorem stopIn_sign2_long {s : State} {p : Nat} {m : SignMode} {e : Stop} (hs : StreamOk s)
    (hp : p + 2 ≤ s.bitend.toNat) (h : sign2 s p m = .error e) : StopIn s [.signBad] e := by
  have := hs.2
  rcases sign2_cases s p m with ⟨h1, h2⟩ | ⟨h1, k, h2, h3, h4⟩ | ⟨-, h2⟩ | ⟨-, h2⟩ | ⟨-, -, -, h2⟩
    | ⟨-, -, h2⟩ <;> rw [h] at *
  · omega
  · cases h4; exact .inr ⟨_, by omega, h3, rfl⟩
  · cases h2
  · cases h2
  · cases h2
  · cases h2; exact stopIn_raise (by simp)

/-! ## The ends of an atomic command -/

/-- How an atomic command ends: it completes in a state with P, records one of the given errors and
nothing else, or faults at an unwritten byte of BUF. -/
inductive AtomicEnd (op : Byte) (s : State) (codes : List ErrCode) (P : State → Prop) :
    Host.Outcome State Fault Refusal → Prop where
  | done {t : State} (h : P t) : AtomicEnd op s codes P (.next (complete t))
  | raise {e : ErrCode} {ptr : Word} (h : e ∈ codes) :
      AtomicEnd op s codes P (.next (recordError op e ptr s))
  | fault {a : Nat} (ha : a < Config.bufBytes) (h : s.buf.read a = none) :
      AtomicEnd op s codes P (.fault (.unwritten .buf a))

theorem atomicEnd {i : Instr} {s : State} {codes : List ErrCode} {P : State → Prop}
    {body : Except Stop State} (hok : ∀ t, body = .ok t → P t)
    (herr : ∀ e, body = .error e → StopIn s codes e) :
    AtomicEnd i.opcode s codes P (runAtomic i s body) := by
  cases hb : body with
  | ok t => exact .done (hok t hb)
  | error e =>
    rcases herr e hb with ⟨c, p, rfl, hc⟩ | ⟨a, h1, h2, rfl⟩
    · exact .raise hc
    · exact .fault h1 h2

theorem bind_ok {α β : Type} {x : Except Stop α} {f : α → Except Stop β} {b : β} :
    (x >>= f) = .ok b ↔ ∃ a, x = .ok a ∧ f a = .ok b := by cases x <;> simp [bind, Except.bind]

theorem bind_error {α β : Type} {x : Except Stop α} {f : α → Except Stop β} {e : Stop} :
    (x >>= f) = .error e ↔ x = .error e ∨ ∃ a, x = .ok a ∧ f a = .error e := by
  cases x <;> simp [bind, Except.bind]

theorem execRdbits_end (n : BitVec 5) (s : State) :
    AtomicEnd 0x01#8 s (if (Instr.rdbits n).wf then [.addr, .bitsShort] else [.illegal])
      (fun t => StreamOk s ∧ ∃ v, t = { s with
        res := asWord v, res2 := asWord n.toNat, bitptr := asWord (s.bitptr.toNat + n.toNat) })
      (execRdbits n s) := by
  refine atomicEnd (i := .rdbits n) (fun t h => ?_) (fun e h => ?_)
  · simp only [bind_ok] at h
    obtain ⟨_, -, _, h2, v, -, h4⟩ := h
    cases h4
    exact ⟨bsCheck_ok_iff.mp h2, v, rfl⟩
  · simp only [bind_error] at h
    rw [checkLegal_eq] at h
    by_cases hw : (Instr.rdbits n).wf = true
    · rw [if_pos hw] at h ⊢
      rcases h with h | ⟨_, -, h | ⟨_, h2, h | ⟨_, -, h⟩⟩⟩
      · cases h
      · exact (stopIn_bsCheck h).mono (by simp)
      · exact (stopIn_raw (bsCheck_ok_iff.mp h2) h).mono (by simp)
      · cases h
    · rw [if_neg hw] at h ⊢
      rcases h with h | ⟨_, h, -⟩
      · cases h; exact stopIn_raise (by simp)
      · cases h

theorem execRdhuf_end (t : Bank) (s : State) :
    AtomicEnd 0x02#8 s [.addr, .hufShort, .hufLong]
      (fun u => StreamOk s ∧ ∃ c q, CodeAt s t s.bitptr.toNat c q ∧ u = { s with
        res := c.setWidth 32, res2 := asWord (q - s.bitptr.toNat), bitptr := asWord q })
      (execRdhuf t s) := by
  refine atomicEnd (i := .rdhuf t) (fun u h => ?_) (fun e h => ?_)
  · simp only [bind_ok] at h
    obtain ⟨_, h1, ⟨c, L⟩, h2, h3⟩ := h
    cases h3
    obtain ⟨h4, h5, -⟩ := codeAt_of_huf h2
    exact ⟨bsCheck_ok_iff.mp h1, c, _, h4, by simp⟩
  · simp only [bind_error] at h
    rcases h with h | ⟨_, h1, h | ⟨_, -, h⟩⟩
    · exact (stopIn_bsCheck h).mono (by simp)
    · exact (stopIn_huf (bsCheck_ok_iff.mp h1) h).mono (by simp)
    · cases h

theorem execRdsign_end (m : SignMode) (s : State) :
    AtomicEnd 0x03#8 s [.addr, .signShort, .signBad]
      (fun u => StreamOk s ∧ ∃ r r2 p t, u = { s with
        res := r, res2 := r2, bitptr := p, status := s.status.setTerm t })
      (execRdsign m s) := by
  refine atomicEnd (i := .rdsign m) (fun u h => ?_) (fun e h => ?_)
  · simp only [bind_ok] at h
    obtain ⟨_, h1, g, -, h2⟩ := h
    refine ⟨bsCheck_ok_iff.mp h1, ?_⟩
    cases g <;> cases h2 <;> exact ⟨_, _, _, _, rfl⟩
  · simp only [bind_error] at h
    rcases h with h | ⟨_, h1, h | ⟨g, -, h⟩⟩
    · exact (stopIn_bsCheck h).mono (by simp)
    · exact (stopIn_sign2 (bsCheck_ok_iff.mp h1) h).mono (by simp)
    · cases g <;> cases h

theorem unpack_end (i : Instr) (n : Nat) (value : List Byte → Word) (s : State) :
    AtomicEnd i.opcode s [.addr] (fun t => ∃ w, t = { s with res := w }) (unpack i n value s) := by
  refine atomicEnd (fun t h => ?_) (fun e h => ?_)
  · simp only [bind_ok] at h
    obtain ⟨bs, -, h⟩ := h
    cases h; exact ⟨_, rfl⟩
  · simp only [bind_error] at h
    rcases h with h | ⟨_, -, h⟩
    · exact stopIn_loadBytes h
    · cases h

theorem pack_end (i : Instr) (n : Nat) (fits : Bool) (s : State) :
    AtomicEnd i.opcode s [.addr, .packRange]
      (fun t => ∃ bs : List Byte, s.opa.toNat + bs.length ≤ Config.bufBytes
        ∧ t = { s with buf := s.buf.writeList s.opa.toNat bs }) (pack i n fits s) := by
  refine atomicEnd (fun t h => ?_) (fun e h => ?_)
  · simp only [bind_ok] at h
    obtain ⟨_, h1, h⟩ := h
    split at h
    · cases h; exact ⟨_, by simpa using inbuf_of_checkInbuf h1, rfl⟩
    · cases h
  · simp only [bind_error] at h
    rcases h with h | ⟨_, -, h⟩
    · exact (stopIn_checkInbuf h).mono (by simp)
    · split at h
      · cases h
      · cases h; exact stopIn_raise (by simp)

@[simp] theorem length_swapPairs (bs : List Byte) : (swapPairs bs).length = bs.length := by
  induction bs using swapPairs.induct with
  | case1 x y bs ih => simp [swapPairs, ih]
  | case2 bs h => rw [swapPairs]; exact h

theorem execSwap16_end (s : State) :
    AtomicEnd 0x20#8 s [.addr, .oddLen]
      (fun t => ∃ bs : List Byte, bs.length = s.opb.toNat ∧ bs.length % 2 = 0
        ∧ s.opa.toNat + bs.length ≤ Config.bufBytes ∧ BytesAt s.buf s.opa.toNat bs
        ∧ t = { s with buf := s.buf.writeList s.opa.toNat (swapPairs bs) }) (execSwap16 s) := by
  refine atomicEnd (i := .swap16) (fun t h => ?_) (fun e h => ?_)
  · simp only [bind_ok] at h
    obtain ⟨_, h1, h⟩ := h
    split at h
    · simp only [bind_ok] at h; obtain ⟨_, h, -⟩ := h; cases h
    · rename_i hodd
      simp only [bind_ok] at h
      obtain ⟨bs, hb, h⟩ := h
      obtain ⟨hl, hb⟩ := readCells_ok_iff.mp hb
      have := inbuf_of_checkInbuf h1
      cases h; exact ⟨bs, hl, by omega, by omega, hb, rfl⟩
  · simp only [bind_error] at h
    rcases h with h | ⟨_, h1, h⟩
    · exact (stopIn_checkInbuf h).mono (by simp)
    · split at h
      · simp only [bind_error] at h
        rcases h with h | ⟨_, h, -⟩
        · cases h; exact stopIn_raise (by simp)
        · cases h
      · simp only [bind_error] at h
        rcases h with h | ⟨_, -, h⟩
        · exact (stopIn_bufBytes (inbuf_of_checkInbuf h1) h).mono (by simp)
        · cases h

theorem execCrchdr_end (s : State) :
    AtomicEnd 0x28#8 s [.addr]
      (fun t => ∃ (bs : List Byte) (stored : Byte) (r2 : Word) (odd : Bool), bs.length = 11
        ∧ s.opa.toNat + 13 ≤ Config.bufBytes
        ∧ BytesAt s.buf (s.opa.toNat + 1) bs ∧ s.buf.read (s.opa.toNat + 12) = some stored
        ∧ t = { s with
            res := (crc8 s.crccfg bs).setWidth 32, res2 := r2
            status := s.status.crcResult (crc8 s.crccfg bs == stored) odd }) (execCrchdr s) := by
  refine atomicEnd (i := .crchdr) (fun t h => ?_) (fun e h => ?_)
  · simp only [bind_ok] at h
    obtain ⟨_, h1, bs, hb, st, hs, h⟩ := h
    obtain ⟨hl, hb⟩ := readCells_ok_iff.mp hb
    cases h
    exact ⟨bs, st, _, _, hl, inbuf_of_checkInbuf h1, hb, readCell_ok_iff.mp hs, rfl⟩
  · simp only [bind_error] at h
    rcases h with h | ⟨_, h1, h | ⟨bs, hb, h | ⟨_, -, h⟩⟩⟩
    · exact stopIn_checkInbuf h
    · have := inbuf_of_checkInbuf h1
      exact (stopIn_bufBytes (by omega) h).mono (by simp)
    · have := inbuf_of_checkInbuf h1
      obtain ⟨h2, h3⟩ := readCell_error_iff.mp h
      exact .inr ⟨_, by omega, h2, h3⟩
    · cases h

end Sys2Proof.Machine
end

