-- ==== Sys2Proof/Laws/PdStep.lean ====
section
/-! SUPPORT. PD_STEP: what the integration of a continuation computes, and every way the command can
end. -/

namespace Sys2Proof.Machine

open Sys2Proof.Safety

/-! ## The integration of a continuation (43_pd_integrator.md R157) -/

theorem pdIntegrate_cons (s : State) (slot : Byte) (slots : List Byte) (p : Nat) :
    pdIntegrate s (slot :: slots) p = (do
      let sg ← sign2 s p .strict
      let (d1, L1) ← huf s .pd (p + 2)
      let (d2, L2) ← huf s .pd (p + 2 + L1)
      let v : Int := slot.toNat + sg.toInt * (d1.toNat * 16 + d2.toNat : Nat)
      if v < 0 ∨ 255 < v then .error (.raise .pdRange (asWord p))
      else do
        let (rest, q) ← pdIntegrate s slots (p + 2 + L1 + L2)
        .ok (BitVec.ofInt 8 v :: rest, q)) := rfl

/-- The integration reads the stream and bank 0 only: the flags of the packet do not matter. -/
theorem pdIntegrate_setPdFlags (a b : Bool) (s : State) (slots : List Byte) (p : Nat) :
    pdIntegrate (setPdFlags a b s) slots p = pdIntegrate s slots p := by
  induction slots generalizing p with
  | nil => rfl
  | cons slot slots ih => rw [pdIntegrate_cons, pdIntegrate_cons]; simp only [ih]; rfl

theorem codeAt_le {s : State} {t : Bank} {p : Nat} {c : Byte} {q : Nat} (h : CodeAt s t p c q) :
    p < q ∧ q ≤ s.bitend.toNat := by
  obtain ⟨l, i, h1, -, -, h4, h5, -⟩ := h; omega

theorem huf_error_of_fails {s : State} {t : Bank} {p : Nat} {code : Byte} (h : CodeFails s t p code) :
    ∃ e : ErrCode, e.code = code ∧ e.fatal = false ∧ huf s t p = .error (.raise e (asWord p)) := by
  rcases h with ⟨rfl, l, h1, h2, h3, h4⟩ | ⟨rfl, l, h1, h2, h3, h4⟩
  · exact ⟨.hufShort, rfl, rfl, huf_short h1 h2 h3 h4⟩
  · exact ⟨.hufLong, rfl, rfl, huf_long h1 h2 (by omega) h4⟩

/-- The slot's new value, when it stays in a byte. -/
theorem slot_value {v v' d1 d2 : Byte} {sg : Int}
    (h : (v'.toNat : Int) = v.toNat + sg * (16 * d1.toNat + d2.toNat : Int)) :
    (v.toNat : Int) + sg * ((d1.toNat * 16 + d2.toNat : Nat) : Int) = v'.toNat := by
  rw [h]; push_cast; ring

theorem pdIntegrate_of_deltas {s : State} {p q : Nat} {vs vs' : List Byte}
    (h : PdDeltas s p vs vs' q) : pdIntegrate s vs p = .ok (vs', q) := by
  induction h with
  | done p => rfl
  | slot hs h1 h2 hv hr ih =>
    obtain ⟨g, hg, rfl, -⟩ := sign2_of_signAt .strict hs
    have l1 := (codeAt_le h1).1
    have l2 := (codeAt_le h2).1
    rw [pdIntegrate_cons, hg, huf_of_codeAt h1]
    simp only [bind, Except.bind]
    rw [Nat.add_sub_cancel' l1.le, huf_of_codeAt h2]
    simp only
    rw [slot_value hv, if_neg (by omega), Nat.add_sub_cancel' l2.le, ih]
    simp

theorem pdIntegrate_failure {s : State} {p : Nat} {v : Byte} {vs : List Byte} {code : Byte} {ptr : Nat}
    (h : PdFailure s p v code ptr) : ∃ e : ErrCode, e.code = code ∧ e.fatal = false
      ∧ pdIntegrate s (v :: vs) p = .error (.raise e (asWord ptr)) := by
  rw [pdIntegrate_cons]
  cases h with
  | signShort h => exact ⟨.signShort, rfl, rfl, by rw [sign2_short _ h]; rfl⟩
  | signBad b h hb =>
    refine ⟨.signBad, rfl, rfl, ?_⟩
    rw [sign2_of_bits .strict h hb]
    cases b <;> rfl
  | first hs h =>
    obtain ⟨g, hg, -, -⟩ := sign2_of_signAt .strict hs
    obtain ⟨e, h1, h2, h3⟩ := huf_error_of_fails h
    exact ⟨e, h1, h2, by rw [hg, h3]; rfl⟩
  | second hs h1 h =>
    obtain ⟨g, hg, -, -⟩ := sign2_of_signAt .strict hs
    obtain ⟨e, h2, h3, h4⟩ := huf_error_of_fails h
    refine ⟨e, h2, h3, ?_⟩
    rw [hg, huf_of_codeAt h1]
    simp only [bind, Except.bind]
    rw [Nat.add_sub_cancel' (codeAt_le h1).1.le, h4]
  | range hs h1 h2 h =>
    obtain ⟨g, hg, rfl, -⟩ := sign2_of_signAt .strict hs
    refine ⟨.pdRange, rfl, rfl, ?_⟩
    rw [hg, huf_of_codeAt h1]
    simp only [bind, Except.bind]
    rw [Nat.add_sub_cancel' (codeAt_le h1).1.le, huf_of_codeAt h2]
    simp only
    rw [if_pos]
    push_cast at h ⊢
    rw [Int.mul_comm (_ : Int) 16] at *
    exact h

/-- Good slots before a bad one change nothing about it. -/
theorem pdIntegrate_append_error {s : State} {p q : Nat} {vs vs' rest : List Byte} {e : Stop}
    (h : PdDeltas s p vs vs' q) (he : pdIntegrate s rest q = .error e) :
    pdIntegrate s (vs ++ rest) p = .error e := by
  induction h with
  | done p => exact he
  | slot hs h1 h2 hv hr ih =>
    obtain ⟨g, hg, rfl, -⟩ := sign2_of_signAt .strict hs
    rw [List.cons_append, pdIntegrate_cons, hg, huf_of_codeAt h1]
    simp only [bind, Except.bind]
    rw [Nat.add_sub_cancel' (codeAt_le h1).1.le, huf_of_codeAt h2]
    simp only
    rw [slot_value hv, if_neg (by omega), Nat.add_sub_cancel' (codeAt_le h2).1.le, ih he]

theorem pdDeltas_length {s : State} {p q : Nat} {vs vs' : List Byte} (h : PdDeltas s p vs vs' q) :
    vs'.length = vs.length := by induction h <;> simp_all

theorem length_pdIntegrate {s : State} {vs : List Byte} {p : Nat} {r : List Byte × Nat}
    (h : pdIntegrate s vs p = .ok r) : r.1.length = vs.length := by
  induction vs generalizing p r with
  | nil => cases h; rfl
  | cons v vs ih =>
    rw [pdIntegrate_cons] at h
    simp only [bind_ok] at h
    obtain ⟨_, -, ⟨_, _⟩, -, ⟨_, _⟩, -, h⟩ := h
    split at h
    · cases h
    · simp only [bind_ok] at h
      obtain ⟨⟨_, _⟩, h1, h2⟩ := h
      cases h2
      simpa using ih h1

/-- The errors a continuation can raise. -/
def pdDecodeErrors : List ErrCode := [.signShort, .signBad, .hufShort, .hufLong, .pdRange]

theorem stopIn_pdIntegrate {s : State} (hs : StreamOk s) {vs : List Byte} {p : Nat} {e : Stop}
    (h : pdIntegrate s vs p = .error e) : StopIn s pdDecodeErrors e := by
  induction vs generalizing p with
  | nil => cases h
  | cons v vs ih =>
    rw [pdIntegrate_cons] at h
    simp only [bind_error] at h
    rcases h with h | ⟨_, -, h | ⟨⟨_, _⟩, -, h | ⟨⟨_, _⟩, -, h⟩⟩⟩
    · exact (stopIn_sign2 hs h).mono (by simp [pdDecodeErrors])
    · exact (stopIn_huf hs h).mono (by simp [pdDecodeErrors])
    · exact (stopIn_huf hs h).mono (by simp [pdDecodeErrors])
    · split at h
      · cases h; exact stopIn_raise (by simp [pdDecodeErrors])
      · simp only [bind_error] at h
        rcases h with h | ⟨⟨_, _⟩, -, h⟩
        · exact ih h
        · cases h

/-! ## The ends of PD_STEP -/

theorem pdCfgCheck_ok_iff {s : State} : pdCfgCheck s = .ok () ↔ PdConfigOk s := by
  have hl : Config.ltidxMax = 0x55 := rfl
  unfold pdCfgCheck PdConfigOk
  split
  · rename_i h
    simp only [reduceCtorEq, false_iff]; rintro ⟨h1, -⟩; exact h1.elim h.1 h.2
  · split
    · simp only [reduceCtorEq, false_iff]; omega
    · rename_i h h'
      simp only [true_iff]
      refine ⟨?_, by omega⟩
      by_contra hc; simp only [not_or] at hc; exact h hc

theorem stopIn_pdCfgCheck {s : State} {e : Stop} (h : pdCfgCheck s = .error e) :
    StopIn s [.cfgSect, .cfgLtidx] e := by
  unfold pdCfgCheck at h
  split at h
  · cases h; exact stopIn_raise (by simp)
  · split at h
    · cases h; exact stopIn_raise (by simp)
    · cases h

theorem slotCount_le {s : State} (h : PdConfigOk s) : slotCount s ≤ 256 := by
  unfold slotCount Config.binsPerSector
  rcases h.1 with h | h <;> rw [h] <;> decide

theorem readCell_bind_ok {α : Type} {sp : Space} {m : Memory} {a : Nat} {f : Byte → Except Stop α} {r : α}
    (h : (readCell sp m a >>= f) = .ok r) : ∃ v, m.read a = some v ∧ f v = .ok r := by
  obtain ⟨v, h1, h2⟩ := bind_ok.mp h
  exact ⟨v, readCell_ok_iff.mp h1, h2⟩

theorem isHeader_ok_iff {s : State} {b : Bool} : isHeader s = .ok b
    ↔ ∃ v, s.buf.read s.pdMark.toNat = some v ∧ b = (v.toNat == markerByte s) := by
  unfold isHeader
  constructor
  · intro h
    obtain ⟨v, h1, h2⟩ := readCell_bind_ok h
    cases h2; exact ⟨v, h1, rfl⟩
  · rintro ⟨v, h1, rfl⟩; rw [readCell_of_read h1]; rfl

theorem isHeader_of_marked {s : State} (h : HeaderMarked s) : isHeader s = .ok true := by
  obtain ⟨-, v, h1, h2⟩ := h
  exact isHeader_ok_iff.mpr ⟨v, h1, by simp [markerByte, Config.markerBase, h2]⟩

theorem isHeader_of_continuation {s : State} (h : ContinuationMarked s) : isHeader s = .ok false := by
  obtain ⟨-, v, h1, h2⟩ := h
  exact isHeader_ok_iff.mpr ⟨v, h1, by simp [markerByte, Config.markerBase, h2]⟩

theorem innerTagOk_outer {s : State} (h : s.ctrl.inner = false) : innerTagOk s = .ok true := by
  simp [innerTagOk, h]; rfl

theorem innerTagOk_inner {s : State} {side : Byte} (h : s.ctrl.inner = true)
    (hs : s.buf.read s.pdTag.toNat = some side) :
    innerTagOk s = .ok (nibble s.ctrl.taghi side == s.ctrl.subtag) := by
  simp [innerTagOk, h, readCell_of_read hs]; rfl

theorem stopIn_innerTagOk {s : State} {e : Stop} (h : innerTagOk s = .error e)
    (ht : s.ctrl.inner = true → s.pdTag.toNat < Config.bufBytes) : StopIn s [] e := by
  unfold innerTagOk at h
  split at h
  · rename_i hi
    simp only [bind_error] at h
    rcases h with h | ⟨_, -, h⟩
    · obtain ⟨h1, h2⟩ := readCell_error_iff.mp h
      exact .inr ⟨_, ht hi, h1, h2⟩
    · cases h
  · cases h

/-- The address checks of a header leave room for what it reads (43_pd_integrator.md R154). -/
theorem pdHeaderChecks_ok {s : State} (h : pdHeaderChecks s = .ok ()) :
    (s.ctrl.inner = true → s.pdTag.toNat < Config.bufBytes)
      ∧ ∃ b, innerTagOk s = .ok b ∧ (b = true → s.pdVlen.toNat = slotCount s →
        s.pdVals.toNat + slotCount s ≤ Config.bufBytes) := by
  unfold pdHeaderChecks at h
  have key : ∀ {b : Bool}, (if (b && s.pdVlen.toNat == slotCount s) = true
      then checkInbuf s.pdVals (slotCount s) else (pure () : Except Stop Unit)) = .ok () →
      b = true → s.pdVlen.toNat = slotCount s →
        s.pdVals.toNat + slotCount s ≤ Config.bufBytes := by
    intro b h hb hv
    rw [if_pos (by simp [hb, hv])] at h
    exact inbuf_of_checkInbuf h
  by_cases hi : s.ctrl.inner = true
  · rw [if_pos hi] at h
    simp only [bind_ok] at h
    obtain ⟨_, h1, b, h2, h3⟩ := h
    exact ⟨fun _ => inbuf_of_checkInbuf h1, b, h2, key h3⟩
  · rw [if_neg hi] at h
    simp only [bind_ok] at h
    obtain ⟨b, h2, h3⟩ := h
    exact ⟨fun h => absurd h hi, b, h2, key h3⟩

theorem stopIn_pdHeaderChecks {s : State} {e : Stop} (h : pdHeaderChecks s = .error e) :
    StopIn s [.addr] e := by
  unfold pdHeaderChecks at h
  have key : ∀ {b : Bool}, (if (b && s.pdVlen.toNat == slotCount s) = true
      then checkInbuf s.pdVals (slotCount s) else (pure () : Except Stop Unit)) = .error e →
      StopIn s [.addr] e := by
    intro b h
    split at h
    · exact stopIn_checkInbuf h
    · cases h
  by_cases hi : s.ctrl.inner = true
  · rw [if_pos hi] at h
    simp only [bind_error] at h
    rcases h with h | ⟨_, h1, h | ⟨b, -, h⟩⟩
    · exact stopIn_checkInbuf h
    · exact (stopIn_innerTagOk h fun _ => inbuf_of_checkInbuf h1).mono (by simp)
    · exact key h
  · rw [if_neg hi] at h
    simp only [bind_error] at h
    rcases h with h | ⟨b, -, h⟩
    · exact (stopIn_innerTagOk h fun h => absurd h hi).mono (by simp)
    · exact key h

theorem pdPreconditions_ok {s : State} {hdr : Bool} (h : pdPreconditions s = .ok hdr) :
    PdConfigOk s ∧ (hdr = true → pdHeaderChecks s = .ok ())
      ∧ (hdr = false → s.pdstate.inChain = true → StreamOk s) := by
  unfold pdPreconditions at h
  simp only [bind_ok] at h
  obtain ⟨_, h1, _, -, b, -, h⟩ := h
  refine ⟨pdCfgCheck_ok_iff.mp h1, ?_⟩
  cases b with
  | true =>
    simp only [if_true, bind_ok] at h
    obtain ⟨_, h2, h3⟩ := h
    cases h3; exact ⟨fun _ => h2, nofun⟩
  | false =>
    simp only [Bool.false_eq_true, if_false] at h
    by_cases hc : s.pdstate.inChain = true
    · rw [if_pos hc] at h
      simp only [bind_ok] at h
      obtain ⟨_, h2, h3⟩ := h
      cases h3; exact ⟨nofun, fun _ _ => bsCheck_ok_iff.mp h2⟩
    · rw [if_neg hc] at h
      cases h; exact ⟨nofun, fun _ h => absurd h hc⟩

/-- The errors of PD_STEP's preconditions. -/
def pdFatalErrors : List ErrCode := [.cfgSect, .cfgLtidx, .addr]

theorem stopIn_pdPreconditions {s : State} {e : Stop} (h : pdPreconditions s = .error e) :
    StopIn s pdFatalErrors e := by
  unfold pdPreconditions at h
  simp only [bind_error] at h
  rcases h with h | ⟨_, -, h | ⟨_, hm, h | ⟨b, -, h⟩⟩⟩
  · exact (stopIn_pdCfgCheck h).mono (by simp [pdFatalErrors])
  · exact (stopIn_checkInbuf h).mono (by simp [pdFatalErrors])
  · have hm := inbuf_of_checkInbuf hm
    unfold isHeader at h
    simp only [bind_error] at h
    rcases h with h | ⟨_, -, h⟩
    · obtain ⟨h1, h2⟩ := readCell_error_iff.mp h
      exact .inr ⟨_, by omega, h1, h2⟩
    · cases h
  · cases b with
    | true =>
      simp only [if_true, bind_error] at h
      rcases h with h | ⟨_, -, h⟩
      · exact (stopIn_pdHeaderChecks h).mono (by simp [pdFatalErrors])
      · cases h
    | false =>
      simp only [Bool.false_eq_true, if_false] at h
      by_cases hc : s.pdstate.inChain = true
      · rw [if_pos hc] at h
        simp only [bind_error] at h
        rcases h with h | ⟨_, -, h⟩
        · exact (stopIn_bsCheck h).mono (by simp [pdFatalErrors])
        · cases h
      · rw [if_neg hc] at h; cases h

/-- How PD_STEP ends (43_pd_integrator.md R154 to R160, 60_exceptions.md R206). -/
inductive PdStepEnd (s : State) : Host.Outcome State Fault Refusal → Prop where
  | fatal {e : ErrCode} {ptr : Word} (h : e ∈ pdFatalErrors) :
      PdStepEnd s (.next (recordError 0x31#8 e ptr s))
  | badHeader {e : ErrCode} {ptr : Word} (h : e = .pdHdrSubtype ∨ e = .pdHdrLen) :
      PdStepEnd s (.next (recordError 0x31#8 e ptr (seek (setPdFlags false true s))))
  | header {values : List Byte} {spin : BitVec 4} (hc : PdConfigOk s)
      (hl : values.length = slotCount s) :
      PdStepEnd s (.next (complete (emitPeriod { setPdFlags false true s with
        acc := s.acc.writeList 0 values, spin := spin, pdstate := { inChain := true, ccount := 0#4 } })))
  | badContinuation {e : ErrCode} {ptr : Word} (h : e ∈ pdDecodeErrors) :
      PdStepEnd s (.next (recordError 0x31#8 e ptr (seek (setPdFlags false false s))))
  | continuation {new : List Byte} {q : Nat} (hc : PdConfigOk s) (hi : s.pdstate.inChain = true)
      (hl : new.length = slotCount s) :
      PdStepEnd s (.next (complete (emitPeriod { setPdFlags false false s with
        acc := s.acc.writeList 0 new, bitptr := asWord q, pdstate := advanceChain s.pdstate })))
  | skip (hi : s.pdstate.inChain = false) :
      PdStepEnd s (.next (complete (setPdFlags false false s)))
  | faultBuf {a : Nat} (ha : a < Config.bufBytes) (h : s.buf.read a = none) :
      PdStepEnd s (.fault (.unwritten .buf a))
  | faultAcc {a : Nat} (hc : PdConfigOk s) (hi : s.pdstate.inChain = true) (ha : a < slotCount s)
      (h : s.acc.read a = none) : PdStepEnd s (.fault (.unwritten .acc a))

theorem execPdStep_end (s : State) : PdStepEnd s (execPdStep s) := by
  unfold execPdStep
  cases hp : pdPreconditions s with
  | error e =>
    rcases stopIn_pdPreconditions hp with ⟨c, ptr, rfl, hc⟩ | ⟨a, h1, h2, rfl⟩
    · exact .fatal hc
    · exact .faultBuf h1 h2
  | ok hdr =>
    obtain ⟨hc, h1, h2⟩ := pdPreconditions_ok hp
    cases hdr with
    | true =>
      obtain ⟨ht, b, hb, hv⟩ := pdHeaderChecks_ok (h1 rfl)
      have hb' : innerTagOk (setPdFlags false true s) = .ok b := hb
      simp only [orAt_ok, bind, Except.bind, pdPacket, if_true, pdHeader, hb']
      cases b with
      | false => exact .badHeader (.inl rfl)
      | true =>
        simp only [Bool.not_true, Bool.false_eq_true, if_false]
        by_cases hl : s.pdVlen.toNat = slotCount s
        · rw [if_neg (show ¬ (setPdFlags false true s).pdVlen.toNat ≠ slotCount (setPdFlags false true s) from not_not_intro hl)]
          have hv := hv rfl hl
          cases hr : bufBytes s s.pdVals.toNat (slotCount s) with
          | error e =>
            rcases stopIn_bufBytes hv hr with ⟨c, ptr, rfl, hc⟩ | ⟨a, h3, h4, rfl⟩
            · cases hc
            · have hr' : bufBytes (setPdFlags false true s) s.pdVals.toNat (slotCount s)
                  = .error (.fault (.unwritten .buf a)) := hr
              simp only [setPdFlags_pdVals, show slotCount (setPdFlags false true s) = slotCount s from rfl,
                hr', orAt_error]
              exact .faultBuf h3 h4
          | ok values =>
            have hr' : bufBytes (setPdFlags false true s) s.pdVals.toNat (slotCount s) = .ok values := hr
            have hlen := (readCells_ok_iff.mp hr).1
            simp only [setPdFlags_pdVals, show slotCount (setPdFlags false true s) = slotCount s from rfl,
              hr', orAt_ok]
            cases hsp : headerSpin (setPdFlags false true s) with
            | ok sp => exact .header hc hlen
            | error e =>
              unfold headerSpin at hsp
              split at hsp
              · rename_i hi
                rcases bind_error.mp hsp with h | ⟨_, -, h⟩
                · obtain ⟨h3, rfl⟩ := readCell_error_iff.mp h
                  exact .faultBuf (ht hi) h3
                · cases h
              · cases hsp
        · rw [if_pos (show (setPdFlags false true s).pdVlen.toNat ≠ slotCount (setPdFlags false true s) from hl)]
          exact .badHeader (.inr rfl)
    | false =>
      simp only [orAt_ok, bind, Except.bind, pdPacket, Bool.false_eq_true, if_false]
      by_cases hi : s.pdstate.inChain = true
      · have hs := h2 rfl hi
        rw [if_pos (show (setPdFlags false false s).pdstate.inChain = true from hi)]
        unfold pdContinuation
        cases ho : readCells .acc s.acc 0 (slotCount s) with
        | error e =>
          obtain ⟨a, -, h3, h4, rfl⟩ := readCells_error ho
          have ho' : readCells .acc (setPdFlags false false s).acc 0 (slotCount (setPdFlags false false s))
              = .error (.fault (.unwritten .acc a)) := ho
          rw [ho']
          exact .faultAcc hc hi (by omega) h4
        | ok old =>
          have ho' : readCells .acc (setPdFlags false false s).acc 0 (slotCount (setPdFlags false false s))
              = .ok old := ho
          rw [ho']
          simp only [orAt_ok, bind, Except.bind, pdIntegrate_setPdFlags]
          cases hint : pdIntegrate s old s.bitptr.toNat with
          | error e =>
            have hint' : pdIntegrate s old (setPdFlags false false s).bitptr.toNat = .error e := hint
            rw [hint']
            rcases stopIn_pdIntegrate hs hint with ⟨c, ptr, rfl, hc⟩ | ⟨a, h3, h4, rfl⟩
            · exact .badContinuation hc
            · exact .faultBuf h3 h4
          | ok r =>
            have hint' : pdIntegrate s old (setPdFlags false false s).bitptr.toNat = .ok r := hint
            rw [hint']
            exact .continuation hc hi ((length_pdIntegrate hint).trans (readCells_ok_iff.mp ho).1)
      · rw [if_neg (show ¬ (setPdFlags false false s).pdstate.inChain = true from hi)]
        exact .skip (by simpa using hi)

end Sys2Proof.Machine
end

