-- ==== Sys2Proof/Laws/MagPkt.lean ====
section
/-! SUPPORT. MAG_PKT: one delta, one turn of the loop, what the loop keeps, and every way the command can
end. -/

namespace Sys2Proof.Machine

open Sys2Proof.Safety

/-! ## One delta (44_mag_integrator.md R183, R185) -/

theorem magDelta_eq (s : State) (p : Nat) : magDelta s p = (do
    let sg ← sign2 s p .terminator
    if sg = .term then return none
    let (h16, L1) ← huf s .mag (p + 2)
    let (h12, L2) ← huf s .mag (p + 2 + L1)
    let h8 ← raw s (p + 2 + L1 + L2) 4
    let h4 ← raw s (p + 2 + L1 + L2 + 4) 4
    return some (sg.toInt * (magnitude s.ctrl.mshift h16.toNat h12.toNat h8 h4 : Nat),
      p + 2 + L1 + L2 + 8)) := rfl

theorem magnitude_eq (b : Bool) (h16 h12 h8 h4 : Nat) : magnitude b h16 h12 h8 h4
    = (65536 * h16 + 4096 * h12 + 256 * h8 + 16 * h4) * (if b then 2 else 1) := by
  cases b <;> simp [magnitude] <;> ring

theorem magDelta_of_deltaAt {s : State} {p q : Nat} {d : Int} (h : MagDeltaAt s p d q) :
    magDelta s p = .ok (some (d, q)) := by
  obtain ⟨sg, h16, h12, p1, p2, n8, n4, hs, h1, h2, l8, l4, b8, b4, rfl, hq, rfl⟩ := h
  obtain ⟨g, hg, rfl, hne⟩ := sign2_of_signAt .terminator hs
  have r8 : raw s p2 4 = .ok (natOfBits n8) := raw_ok_iff.mpr ⟨by omega, n8, l8, b8, rfl⟩
  have r4 : raw s (p2 + 4) 4 = .ok (natOfBits n4) := raw_ok_iff.mpr ⟨by omega, n4, l4, b4, rfl⟩
  rw [magDelta_eq, hg]
  simp only [bind, Except.bind, hne, if_false]
  rw [huf_of_codeAt h1]
  simp only [Nat.add_sub_cancel' (codeAt_le h1).1.le]
  rw [huf_of_codeAt h2]
  simp only [Nat.add_sub_cancel' (codeAt_le h2).1.le, r8, r4]
  rw [magnitude_eq]
  rcases s.ctrl.mshift <;> simp [pure, Except.pure]

/-- A delta read by the loop has at least 12 bits, all inside the stream. -/
theorem magDelta_some {s : State} {p q : Nat} {d : Int} (h : magDelta s p = .ok (some (d, q))) :
    p + 12 ≤ q ∧ q ≤ s.bitend.toNat := by
  rw [magDelta_eq] at h
  simp only [bind_ok] at h
  obtain ⟨g, -, h⟩ := h
  split at h
  · cases h
  · simp only [bind_ok] at h
    obtain ⟨⟨h16, L1⟩, h1, ⟨h12, L2⟩, h2, h8, h3, h4, h5, h6⟩ := h
    cases h6
    have := (codeAt_of_huf h1).2.1
    have := (codeAt_of_huf h2).2.1
    have := (raw_ok_iff.mp h5).1
    omega

theorem magDelta_terminator {s : State} {p : Nat} (hp : p + 2 ≤ s.bitend.toNat)
    (h : BitsAt s p [true, true]) : magDelta s p = .ok none := by
  rw [magDelta_eq, sign2_of_bits .terminator hp h]; rfl

/-- The decode errors of the fields of a delta. -/
def magFieldErrors : List ErrCode := [.signBad, .hufShort, .hufLong, .bitsShort]

theorem stopIn_magDelta {s : State} {p : Nat} {e : Stop} (hs : StreamOk s) (hp : p + 2 ≤ s.bitend.toNat)
    (h : magDelta s p = .error e) : StopIn s magFieldErrors e := by
  rw [magDelta_eq] at h
  simp only [bind_error] at h
  rcases h with h | ⟨g, -, h⟩
  · exact (stopIn_sign2_long hs hp h).mono (by simp [magFieldErrors])
  · split at h
    · cases h
    · simp only [bind_error] at h
      rcases h with h | ⟨⟨_, _⟩, -, h | ⟨⟨_, _⟩, -, h | ⟨_, -, h | ⟨_, -, h⟩⟩⟩⟩
      · exact (stopIn_huf hs h).mono (by simp [magFieldErrors])
      · exact (stopIn_huf hs h).mono (by simp [magFieldErrors])
      · exact (stopIn_raw hs h).mono (by simp [magFieldErrors])
      · exact (stopIn_raw hs h).mono (by simp [magFieldErrors])
      · cases h

theorem magDelta_failure {s : State} {p : Nat} {code : Byte} {ptr : Nat} (h : MagFailure s p code ptr) :
    ∃ e : ErrCode, e.code = code ∧ e.fatal = false
      ∧ magDelta s p = .error (.raise e (asWord ptr)) := by
  rw [magDelta_eq]
  cases h with
  | signBad h hb => exact ⟨.signBad, rfl, rfl, by rw [sign2_of_bits .terminator h hb]; rfl⟩
  | h16 hs h =>
    obtain ⟨g, hg, -, hne⟩ := sign2_of_signAt .terminator hs
    obtain ⟨e, h1, h2, h3⟩ := huf_error_of_fails h
    refine ⟨e, h1, h2, ?_⟩
    simp only [hg, bind, Except.bind, hne, if_false, h3]
  | h12 hs h1 h =>
    obtain ⟨g, hg, -, hne⟩ := sign2_of_signAt .terminator hs
    obtain ⟨e, h2, h3, h4⟩ := huf_error_of_fails h
    refine ⟨e, h2, h3, ?_⟩
    simp only [hg, bind, Except.bind, hne, if_false, huf_of_codeAt h1,
      Nat.add_sub_cancel' (codeAt_le h1).1.le, h4]
  | h8 hs h1 h2 h =>
    obtain ⟨g, hg, -, hne⟩ := sign2_of_signAt .terminator hs
    have hr : ∀ p2, s.bitend.toNat < p2 + 4 → raw s p2 4 = .error (.raise .bitsShort (asWord p2)) := by
      intro p2 h; rcases raw_cases s p2 4 with ⟨-, h⟩ | ⟨h', -⟩ <;> [exact h; omega]
    refine ⟨.bitsShort, rfl, rfl, ?_⟩
    simp only [hg, bind, Except.bind, hne, if_false, huf_of_codeAt h1,
      Nat.add_sub_cancel' (codeAt_le h1).1.le, huf_of_codeAt h2,
      Nat.add_sub_cancel' (codeAt_le h2).1.le, hr _ h]
  | h4 hs h1 h2 hn h h' =>
    obtain ⟨g, hg, -, hne⟩ := sign2_of_signAt .terminator hs
    have hr : ∀ p2, s.bitend.toNat < p2 + 4 → raw s p2 4 = .error (.raise .bitsShort (asWord p2)) := by
      intro p2 h; rcases raw_cases s p2 4 with ⟨-, h⟩ | ⟨h', -⟩ <;> [exact h; omega]
    have r8 := raw_ok_iff.mpr ⟨h, _, hn.1, hn.2, rfl⟩
    refine ⟨.bitsShort, rfl, rfl, ?_⟩
    simp only [hg, bind, Except.bind, hne, if_false, huf_of_codeAt h1,
      Nat.add_sub_cancel' (codeAt_le h1).1.le, huf_of_codeAt h2,
      Nat.add_sub_cancel' (codeAt_le h2).1.le, r8, hr _ (show s.bitend.toNat < _ + 4 + 4 by omega)]

theorem magFailure_le {s : State} {p : Nat} {code : Byte} {ptr : Nat} (h : MagFailure s p code ptr) :
    p + 2 ≤ s.bitend.toNat := by
  cases h with
  | signBad h _ => exact h
  | h16 hs _ => exact hs.1
  | h12 hs _ _ => exact hs.1
  | h8 hs _ _ _ => exact hs.1
  | h4 hs _ _ _ _ _ => exact hs.1

/-! ## What the loop keeps -/

/-- The number of the axis the next delta goes to. -/
def Axis.index : Axis → Nat
  | .x => 0
  | .y => 1
  | .z => 2

/-- Every ORAM word of a memory is written whole or not at all. -/
def WordsWhole (m : Memory) : Prop :=
  ∀ w j k, j < 4 → k < 4 → ((m.read (4 * w + j)).isSome ↔ (m.read (4 * w + k)).isSome)

theorem wordsWhole_writeWord {m : Memory} (h : WordsWhole m) (w : Nat) (v : Word) :
    WordsWhole (m.writeWord w v) := by
  intro u j k hj hk
  by_cases hu : u = w
  · subst hu
    have : ∀ i, i < 4 → ((m.writeWord u v).read (4 * u + i)).isSome := by
      intro i hi
      rw [oramWord_writeWord_same m u v i (by simpa using hi)]; rfl
    simp [this j hj, this k hk]
  · rw [Memory.read_writeWord_outside _ _ _ (by omega), Memory.read_writeWord_outside _ _ _ (by omega)]
    exact h u j k hj hk

/-- What a row does to ORAM: three words, nothing else; the canonical form, the bounds and whole words are
kept. -/
theorem emitRow_oram_outside (r : MagRun) {a : Nat}
    (h : a < 4 * r.owptr.toNat ∨ 4 * (r.owptr.toNat + 3) ≤ a) :
    r.emitRow.oram.read a = r.oram.read a := by
  simp only [MagRun.emitRow]
  rw [Memory.read_writeWord_outside _ _ _ (by omega), Memory.read_writeWord_outside _ _ _ (by omega),
    Memory.read_writeWord_outside _ _ _ (by omega)]

theorem emitRow_oram_words (r : MagRun) :
    OramWord r.emitRow.oram r.owptr.toNat r.x ∧ OramWord r.emitRow.oram (r.owptr.toNat + 1) r.y
      ∧ OramWord r.emitRow.oram (r.owptr.toNat + 2) r.z := by
  refine ⟨?_, ?_, oramWord_writeWord_same _ _ _⟩
  · exact oramWord_writeWord_other (by omega)
      (oramWord_writeWord_other (by omega) (oramWord_writeWord_same _ _ _))
  · exact oramWord_writeWord_other (by omega) (oramWord_writeWord_same _ _ _)

/-- A word away from the row keeps its value. -/
theorem emitRow_oram_other (r : MagRun) {w : Nat} {v : Word}
    (h : w < r.owptr.toNat ∨ r.owptr.toNat + 3 ≤ w) (hw : OramWord r.oram w v) :
    OramWord r.emitRow.oram w v := by
  simp only [MagRun.emitRow]
  exact oramWord_writeWord_other (by omega) (oramWord_writeWord_other (by omega)
    (oramWord_writeWord_other (by omega) hw))

/-- The good form of ORAM: canonical, inside the memory, words whole. -/
def OramGood (m : Memory) : Prop :=
  m.wf ∧ (∀ c ∈ m, c.1 < 4 * Config.oramWords) ∧ WordsWhole m

theorem oramGood_writeWord {m : Memory} (h : OramGood m) {w : Nat} (hw : w < Config.oramWords)
    (v : Word) : OramGood (m.writeWord w v) :=
  ⟨Memory.wf_writeList _ h.1 _, Memory.bound_writeList h.2.1 (by simp; omega),
    wordsWhole_writeWord h.2.2 w v⟩

/-- What holds of a run of MAG_PKT on `s` once the header row is out: rows and pointers agree, nothing
else of ORAM has changed, and each delta took at least 12 bits. -/
structure RunInv (s : State) (r : MagRun) : Prop where
  rows : 1 ≤ r.rowcnt.toNat
  owptr : r.owptr.toNat = s.owptr.toNat + 3 * r.rowcnt.toNat
  room : r.owptr.toNat ≤ Config.oramWords
  bits : s.bitptr.toNat + 36 * (r.rowcnt.toNat - 1) + 12 * r.ax.index ≤ r.p
  stream : r.p ≤ s.bitend.toNat
  frame : ∀ a, a < 4 * s.owptr.toNat ∨ 4 * r.owptr.toNat ≤ a → r.oram.read a = s.oram.read a
  good : OramGood s.oram → OramGood r.oram

theorem room_iff {w : Word} : room w = true ↔ w.toNat + 3 ≤ Config.oramWords := by simp [room]

theorem emitRow_inv {s : State} {r : MagRun} (hr : r.owptr.toNat + 3 ≤ Config.oramWords)
    (ho : r.owptr.toNat = s.owptr.toNat + 3 * r.rowcnt.toNat)
    (hb : s.bitptr.toNat + 36 * r.rowcnt.toNat + 12 * r.ax.index ≤ r.p) (hs : r.p ≤ s.bitend.toNat)
    (hf : ∀ a, a < 4 * s.owptr.toNat ∨ 4 * r.owptr.toNat ≤ a → r.oram.read a = s.oram.read a)
    (hg : OramGood s.oram → OramGood r.oram) : RunInv s r.emitRow := by
  have hw : Config.oramWords = 32768 := rfl
  have h1 : r.emitRow.owptr.toNat = r.owptr.toNat + 3 := by
    simp only [MagRun.emitRow, BitVec.toNat_add, BitVec.toNat_ofNat]; omega
  have h2 : r.emitRow.rowcnt.toNat = r.rowcnt.toNat + 1 := by
    simp only [MagRun.emitRow, BitVec.toNat_add, BitVec.toNat_ofNat]; omega
  have h3 : r.emitRow.p = r.p := rfl
  have h4 : r.emitRow.ax = r.ax := rfl
  refine ⟨by omega, by omega, by omega, by rw [h4]; omega, hs, fun a ha => ?_, fun h => ?_⟩
  · rw [emitRow_oram_outside r (by omega)]
    exact hf a (by omega)
  · exact oramGood_writeWord (oramGood_writeWord (oramGood_writeWord (hg h) (by omega) _) (by omega) _)
      (by omega) _

theorem magStart_inv {s : State} {r : MagRun} (hm : MagReady s) (h : magStart s = .ok r) :
    RunInv s r := by
  unfold magStart at h
  simp only [bind_ok] at h
  obtain ⟨x, -, y, -, z, -, h⟩ := h
  cases h
  obtain ⟨-, hs, hr⟩ := hm
  refine emitRow_inv hr ?_ ?_ hs.1 (fun _ _ => rfl) id
  · simp
  · simp [Axis.index]

theorem stopIn_headerValue {s : State} {a : Nat} {e : Stop} (ha : a + 3 ≤ Config.bufBytes)
    (h : headerValue s a = .error e) : StopIn s [] e := by
  unfold headerValue at h
  rcases bind_error.mp h with h | ⟨_, -, h⟩
  · exact stopIn_bufBytes ha h
  · cases h

theorem stopIn_magStart {s : State} {e : Stop} (hm : MagReady s) (h : magStart s = .error e) :
    StopIn s [] e := by
  have := hm.1
  unfold magStart at h
  simp only [bind_error] at h
  rcases h with h | ⟨_, -, h | ⟨_, -, h | ⟨_, -, h⟩⟩⟩
  · exact stopIn_headerValue (by omega) h
  · exact stopIn_headerValue (by omega) h
  · exact stopIn_headerValue (by omega) h
  · cases h

theorem magPreconditions_ok_iff {s : State} : magPreconditions s = .ok () ↔ MagReady s := by
  unfold magPreconditions MagReady
  rw [checkInbuf_eq]
  split
  · rename_i h1
    cases hb : bsCheck s with
    | error e =>
      have : ¬ StreamOk s := fun h => by rw [bsCheck_ok_iff.mpr h] at hb; cases hb
      simp [bind, Except.bind, this]
    | ok u =>
      have := bsCheck_ok_iff.mp hb
      by_cases hr : room s.owptr = true
      · simp [bind, Except.bind, pure, Except.pure, this, h1, hr, room_iff.mp hr]
      · have hn : ¬ s.owptr.toNat + 3 ≤ Config.oramWords := fun h => hr (room_iff.mpr h)
        simp [bind, Except.bind, hr, hn]
  · rename_i h1; simp [bind, Except.bind, h1]

theorem stopIn_magPreconditions {s : State} {e : Stop} (h : magPreconditions s = .error e) :
    StopIn s [.addr, .oramFull] e := by
  unfold magPreconditions at h
  simp only [bind_error] at h
  rcases h with h | ⟨_, -, h | ⟨_, -, h⟩⟩
  · exact (stopIn_checkInbuf h).mono (by simp)
  · exact (stopIn_bsCheck h).mono (by simp)
  · split at h
    · cases h
    · cases h; exact stopIn_raise (by simp)

/-- The decode errors of the loop. -/
def magLoopErrors : List ErrCode := [.signBad, .hufShort, .hufLong, .bitsShort, .magAccOvf]

theorem accumulate_cases (r : MagRun) (d : Int) (q : Nat) :
    (r.accumulate d q = .error (.raise .magAccOvf (asWord r.p)) ∧ ¬ FitsWord (s32 (r.macc r.ax) + d))
      ∨ (FitsWord (s32 (r.macc r.ax) + d) ∧ r.accumulate d q
          = .ok { r.setMacc r.ax (u32 (s32 (r.macc r.ax) + d)) with p := q, ax := r.ax.next }) := by
  have h31 : (2 : Int) ^ 31 = 2147483648 := by norm_num
  unfold MagRun.accumulate FitsWord
  rw [h31]
  by_cases h : s32 (r.macc r.ax) + d < -2147483648 ∨ 2147483648 - 1 < s32 (r.macc r.ax) + d
  · exact .inl ⟨if_pos h, by omega⟩
  · exact .inr ⟨by omega, if_neg h⟩

/-- One delta and the row it may complete, on the invariant; an ORAM_FULL comes after 36 bits for each row
already written. -/
theorem turn_inv {s : State} {r r1 : MagRun} {d : Int} {q : Nat} (hi : RunInv s r)
    (hq : r.p + 12 ≤ q) (hq' : q ≤ s.bitend.toNat) (h : r.accumulate d q = .ok r1) :
    RunInv s r1 ∧ ((∃ r2, r1.rowIfComplete = .ok r2 ∧ RunInv s r2)
      ∨ (r1.rowIfComplete = .error (.raise .oramFull r1.owptr)
          ∧ Config.oramWords < r1.owptr.toNat + 3
          ∧ s.bitptr.toNat + 36 * r1.rowcnt.toNat ≤ s.bitend.toNat)) := by
  rcases accumulate_cases r d q with ⟨h1, -⟩ | ⟨-, h1⟩
  · rw [h1] at h; cases h
  · rw [h1] at h; cases h
    obtain ⟨p, ax, x, y, z, oram, owptr, rowcnt⟩ := r
    obtain ⟨i1, i2, i3, i4, i5, i6, i7⟩ := hi
    cases ax <;> simp only [Axis.index, MagRun.setMacc, Axis.next] at *
    · have hr : ∀ x, RunInv s { p := q, ax := .y, x := x, y, z, oram, owptr, rowcnt } := fun x =>
        ⟨i1, i2, i3, by simp only [Axis.index]; omega, hq', i6, i7⟩
      exact ⟨hr _, .inl ⟨_, rfl, hr _⟩⟩
    · have hr : ∀ y, RunInv s { p := q, ax := .z, x, y := y, z, oram, owptr, rowcnt } := fun y =>
        ⟨i1, i2, i3, by simp only [Axis.index]; omega, hq', i6, i7⟩
      exact ⟨hr _, .inl ⟨_, rfl, hr _⟩⟩
    · have hr : ∀ z, RunInv s { p := q, ax := .x, x, y, z := z, oram, owptr, rowcnt } := fun z =>
        ⟨i1, i2, i3, by simp only [Axis.index]; omega, hq', i6, i7⟩
      refine ⟨hr _, ?_⟩
      simp only [MagRun.rowIfComplete, if_true]
      by_cases hroom : Machine.room owptr = true
      · rw [if_pos hroom]
        exact .inl ⟨_, rfl, emitRow_inv (room_iff.mp hroom) i2 (by simp only [Axis.index]; omega) hq' i6 i7⟩
      · rw [if_neg hroom]
        have hn : ¬ owptr.toNat + 3 ≤ Config.oramWords := fun h => hroom (room_iff.mpr h)
        exact .inr ⟨rfl, by omega, by omega⟩

/-- How the loop ends: normally or with an error, on the invariant. -/
theorem magLoop_inv {s : State} (hs : StreamOk s) (fuel : Nat) (r : MagRun) (hi : RunInv s r) :
    (∃ r' t, magLoop s fuel r = .ok (r', t) ∧ RunInv s r')
      ∨ ∃ e r', magLoop s fuel r = .error (e, r') ∧ RunInv s r'
          ∧ (StopIn s magLoopErrors e
            ∨ (e = .raise .oramFull r'.owptr ∧ Config.oramWords < r'.owptr.toNat + 3
              ∧ s.bitptr.toNat + 36 * r'.rowcnt.toNat ≤ s.bitend.toNat)) := by
  induction fuel generalizing r with
  | zero => exact .inl ⟨r, false, rfl, hi⟩
  | succ fuel ih =>
    rw [magLoop]
    split
    · exact .inl ⟨r, false, rfl, hi⟩
    · split
      · exact .inl ⟨r, false, rfl, hi⟩
      · rename_i hsh
        have hp : r.p + 2 ≤ s.bitend.toNat := by rw [short_iff] at hsh; omega
        cases hd : magDelta s r.p with
        | error e =>
          exact .inr ⟨e, r, rfl, hi, .inl ((stopIn_magDelta hs hp hd).mono
            (by simp [magFieldErrors, magLoopErrors]))⟩
        | ok o =>
          cases o with
          | none => exact .inl ⟨r, true, rfl, hi⟩
          | some dq =>
            obtain ⟨d, q⟩ := dq
            obtain ⟨hq, hq'⟩ := magDelta_some hd
            simp only
            cases ha : r.accumulate d q with
            | error e =>
              rcases accumulate_cases r d q with ⟨h1, -⟩ | ⟨-, h1⟩ <;> rw [h1] at ha <;> cases ha
              exact .inr ⟨_, r, rfl, hi, .inl (stopIn_raise (by simp [magLoopErrors]))⟩
            | ok r1 =>
              obtain ⟨hi1, ⟨r2, h2, hi2⟩ | ⟨h2, h3, h4⟩⟩ := turn_inv hi hq hq' ha
              · simp only [h2]; exact ih r2 hi2
              · simp only [h2]; exact .inr ⟨_, r1, rfl, hi1, .inr ⟨rfl, h3, h4⟩⟩

/-- How MAG_PKT ends (44_mag_integrator.md R181, R184, R190). -/
inductive MagPktEnd (s : State) : Host.Outcome State Fault Refusal → Prop where
  | fatal {e : ErrCode} {ptr : Word} (hm : ¬ MagReady s) (h : e = .addr ∨ e = .oramFull) :
      MagPktEnd s (.next (recordError 0x38#8 e ptr s))
  | done {r : MagRun} {t : Bool} (hm : MagReady s) (hi : RunInv s r) :
      MagPktEnd s (.next (complete { withMag r t s with bitptr := asWord r.p }))
  | failed {r : MagRun} {e : ErrCode} {ptr : Word} (hm : MagReady s) (hi : RunInv s r)
      (h : e ∈ magLoopErrors) : MagPktEnd s (.next (recordError 0x38#8 e ptr (withMag r false s)))
  | full {r : MagRun} (hm : MagReady s) (hi : RunInv s r) (h : Config.oramWords < r.owptr.toNat + 3)
      (hb : s.bitptr.toNat + 36 * r.rowcnt.toNat ≤ s.bitend.toNat) :
      MagPktEnd s (.next (recordError 0x38#8 .oramFull r.owptr (withMag r false s)))
  | fault {a : Nat} (ha : a < Config.bufBytes) (h : s.buf.read a = none) :
      MagPktEnd s (.fault (.unwritten .buf a))

theorem execMagPkt_end (s : State) : MagPktEnd s (execMagPkt s) := by
  unfold execMagPkt
  cases hp : magPreconditions s with
  | error e =>
    have hm : ¬ MagReady s := fun h => by rw [magPreconditions_ok_iff.mpr h] at hp; cases hp
    rcases stopIn_magPreconditions hp with ⟨c, ptr, rfl, hc⟩ | ⟨a, h1, h2, rfl⟩
    · exact .fatal hm (by simpa using hc)
    · exact .fault h1 h2
  | ok u =>
    have hm := magPreconditions_ok_iff.mp hp
    cases hst : magStart s with
    | error e =>
      rcases stopIn_magStart hm hst with ⟨c, ptr, rfl, hc⟩ | ⟨a, h1, h2, rfl⟩
      · cases hc
      · exact .fault h1 h2
    | ok r0 =>
      have hi := magStart_inv hm hst
      simp only [orAt_ok, bind, Except.bind]
      rcases magLoop_inv hm.2.1 (s.bitend.toNat - s.bitptr.toNat + 1) r0 hi with
        ⟨r, t, h1, h2⟩ | ⟨e, r, h1, h2, h3 | ⟨rfl, h4, h5⟩⟩
      · rw [h1]; exact .done hm h2
      · rw [h1]
        rcases h3 with ⟨c, ptr, rfl, hc⟩ | ⟨a, h3, h4, rfl⟩
        · exact .failed hm h2 hc
        · exact .fault h3 h4
      · rw [h1]; exact .full hm h2 h4 h5

end Sys2Proof.Machine
end

