-- ==== Sys2Proof/Laws/MagSums.lean ====
section
/-! SUPPORT. MAG_PKT on a stream of deltas: the state of the loop after each of them. -/

namespace Sys2Proof.Machine

open Sys2Proof.Safety

theorem axisSum_succ (ds : List Int) (k n : Nat) :
    axisSum ds k (n + 1) = axisSum ds k n + if n % 3 = k then ds.getD n 0 else 0 := by
  simp [axisSum, List.range_succ]

@[simp] theorem axisSum_zero (ds : List Int) (k : Nat) : axisSum ds k 0 = 0 := rfl

/-- The axis the n-th delta goes to. -/
def axisOf (n : Nat) : Axis := if n % 3 = 0 then .x else if n % 3 = 1 then .y else .z

theorem s32_ofInt {v : Int} (h : FitsWord v) : s32 (BitVec.ofInt 32 v) = v := by
  unfold FitsWord at h
  rw [s32, BitVec.toInt_ofInt, Int.bmod_def]
  norm_num
  split <;> omega

/-- The run after the header (x, y, z) and the first n of the deltas `ds`, the last ending before bit p. -/
structure RunAt (s : State) (x y z : Int) (ds : List Int) (n p : Nat) (r : MagRun) : Prop where
  pos : r.p = p
  axis : r.ax = axisOf n
  sumX : r.x = BitVec.ofInt 32 (x + axisSum ds 0 n)
  sumY : r.y = BitVec.ofInt 32 (y + axisSum ds 1 n)
  sumZ : r.z = BitVec.ofInt 32 (z + axisSum ds 2 n)
  owptr : r.owptr = BitVec.ofNat 32 (s.owptr.toNat + 3 * (1 + n / 3))
  rowcnt : r.rowcnt = BitVec.ofNat 32 (1 + n / 3)
  room : s.owptr.toNat + 3 * (1 + n / 3) ≤ Config.oramWords
  rows : MagRows s x y z ds (1 + n / 3) r.oram

/-- A row written after the given number of rows extends them. -/
theorem magRows_emit {s : State} {x y z : Int} {ds : List Int} {k : Nat} {r : MagRun}
    (h : MagRows s x y z ds k r.oram) (ho : r.owptr.toNat = s.owptr.toNat + 3 * k)
    (hx : r.x = BitVec.ofInt 32 (x + axisSum ds 0 (3 * k)))
    (hy : r.y = BitVec.ofInt 32 (y + axisSum ds 1 (3 * k)))
    (hz : r.z = BitVec.ofInt 32 (z + axisSum ds 2 (3 * k))) :
    MagRows s x y z ds (k + 1) r.emitRow.oram := by
  obtain ⟨e1, e2, e3⟩ := emitRow_oram_words r
  rw [ho, hx] at e1
  rw [ho, hy] at e2
  rw [ho, hz] at e3
  refine ⟨fun i hi => ?_, fun a ha => ?_⟩
  · by_cases hk : i = k
    · subst hk; exact ⟨e1, e2, e3⟩
    · obtain ⟨w1, w2, w3⟩ := h.1 i (by omega)
      exact ⟨emitRow_oram_other r (by omega) w1, emitRow_oram_other r (by omega) w2,
        emitRow_oram_other r (by omega) w3⟩
  · rw [emitRow_oram_outside r (by omega)]; exact h.2 a (by omega)

theorem headerValue_of_axis {s : State} {k : Nat} {v : Int} (h : HeaderAxis s k v) :
    headerValue s (s.opa.toNat + 3 * k) = .ok (BitVec.ofInt 32 v) := by
  obtain ⟨b0, b1, b2, hb, rfl⟩ := h
  have hr : bufBytes s (s.opa.toNat + 3 * k) 3 = .ok [b0, b1, b2] := readCells_of_bytesAt rfl hb
  unfold headerValue
  rw [hr]
  have h0 := b0.isLt
  have h1 := b1.isLt
  have h2 := b2.isLt
  show Except.ok _ = _
  congr 2
  rw [sext, beNat_three, BitVec.toInt_eq_toNat_cond, BitVec.toNat_ofNat]
  norm_num
  split_ifs <;> omega

theorem magStart_at {s : State} {x y z : Int} (ds : List Int) (hm : MagReady s) (hx : HeaderAxis s 0 x)
    (hy : HeaderAxis s 1 y) (hz : HeaderAxis s 2 z) :
    ∃ r, magStart s = .ok r ∧ RunAt s x y z ds 0 s.bitptr.toNat r := by
  have hw : Config.oramWords = 32768 := rfl
  have hr := hm.2.2
  let r0 : MagRun :=
    { p := s.bitptr.toNat
      ax := .x
      x := BitVec.ofInt 32 x
      y := BitVec.ofInt 32 y
      z := BitVec.ofInt 32 z
      oram := s.oram
      owptr := s.owptr
      rowcnt := 0#32 }
  refine ⟨r0.emitRow, ?_, ?_⟩
  · have hx := headerValue_of_axis hx
    have hy := headerValue_of_axis hy
    have hz := headerValue_of_axis hz
    simp only [Nat.mul_zero, Nat.add_zero] at hx
    simp only [magStart, hx, hy, hz, bind, Except.bind]
    rfl
  · have hrows : MagRows s x y z ds 0 s.oram := ⟨fun r h => absurd h (by omega), fun _ _ => rfl⟩
    refine ⟨rfl, rfl, by simp [r0, MagRun.emitRow], by simp [r0, MagRun.emitRow],
      by simp [r0, MagRun.emitRow], ?_, by simp [r0, MagRun.emitRow], by simpa using hr, ?_⟩
    · apply BitVec.eq_of_toNat_eq
      simp [r0, MagRun.emitRow]
    · exact magRows_emit (r := r0) hrows (by simp [r0]) (by simp [r0]) (by simp [r0]) (by simp [r0])

/-- The delta of the n-th place added to its axis. -/
theorem runAt_macc {s : State} {x y z : Int} {ds : List Int} {n p : Nat} {r : MagRun}
    (h : RunAt s x y z ds n p r) (hx : FitsWord (x + axisSum ds 0 n))
    (hy : FitsWord (y + axisSum ds 1 n)) (hz : FitsWord (z + axisSum ds 2 n)) :
    s32 (r.macc r.ax)
      = (if n % 3 = 0 then x else if n % 3 = 1 then y else z) + axisSum ds (n % 3) n := by
  rw [h.axis]
  unfold axisOf
  rcases (by omega : n % 3 = 0 ∨ n % 3 = 1 ∨ n % 3 = 2) with h3 | h3 | h3 <;>
    simp only [h3, if_true, if_false, MagRun.macc, Nat.reduceEqDiff, h.sumX, h.sumY, h.sumZ]
  · exact s32_ofInt hx
  · exact s32_ofInt hy
  · exact s32_ofInt hz

theorem getD_append_self (a : List Int) (d : Int) (b : List Int) :
    (a ++ d :: b).getD a.length 0 = d := by simp

/-- The run with the n-th delta added, before its row: the sums of n + 1 deltas, the rows of n. -/
theorem accumulate_at {s : State} {x y z : Int} {ds : List Int} {n p q : Nat} {r : MagRun}
    (h : RunAt s x y z ds n p r)
    (hf : FitsWord (x + axisSum ds 0 n) ∧ FitsWord (y + axisSum ds 1 n) ∧ FitsWord (z + axisSum ds 2 n))
    (hf' : FitsWord (x + axisSum ds 0 (n + 1)) ∧ FitsWord (y + axisSum ds 1 (n + 1))
      ∧ FitsWord (z + axisSum ds 2 (n + 1))) :
    ∃ r1, r.accumulate (ds.getD n 0) q = .ok r1 ∧ r1.p = q ∧ r1.ax = axisOf (n + 1)
      ∧ r1.x = BitVec.ofInt 32 (x + axisSum ds 0 (n + 1))
      ∧ r1.y = BitVec.ofInt 32 (y + axisSum ds 1 (n + 1))
      ∧ r1.z = BitVec.ofInt 32 (z + axisSum ds 2 (n + 1))
      ∧ r1.owptr = r.owptr ∧ r1.rowcnt = r.rowcnt ∧ r1.oram = r.oram := by
  have hm := runAt_macc h hf.1 hf.2.1 hf.2.2
  rcases accumulate_cases r (ds.getD n 0) q with ⟨-, h2⟩ | ⟨-, h2⟩
  · exfalso
    apply h2
    rw [hm]
    rw [axisSum_succ, axisSum_succ, axisSum_succ] at hf'
    rcases (by omega : n % 3 = 0 ∨ n % 3 = 1 ∨ n % 3 = 2) with h3 | h3 | h3 <;>
      simp only [h3, if_true, Nat.reduceEqDiff, if_false] at hf' ⊢
    · simpa [add_assoc] using hf'.1
    · simpa [add_assoc] using hf'.2.1
    · simpa [add_assoc] using hf'.2.2
  · refine ⟨_, h2, rfl, ?_, ?_⟩
    · show r.ax.next = _
      rw [h.axis]; unfold axisOf
      rcases (by omega : n % 3 = 0 ∨ n % 3 = 1 ∨ n % 3 = 2) with h3 | h3 | h3
      · simp [h3, show (n + 1) % 3 = 1 by omega, Axis.next]
      · simp [h3, show (n + 1) % 3 = 2 by omega, Axis.next]
      · simp [h3, show (n + 1) % 3 = 0 by omega, Axis.next]
    · rw [axisSum_succ, axisSum_succ, axisSum_succ, hm, h.axis]
      unfold axisOf
      rcases (by omega : n % 3 = 0 ∨ n % 3 = 1 ∨ n % 3 = 2) with h3 | h3 | h3 <;>
        simp [h3, MagRun.setMacc, u32, h.sumX, h.sumY, h.sumZ, add_assoc]

/-- The row of the n-th delta, where it completes a triple. -/
theorem rowIfComplete_at {s : State} {x y z : Int} {ds : List Int} {n p q : Nat} {r r1 : MagRun}
    (h : RunAt s x y z ds n p r) (hp : r1.p = q) (ha : r1.ax = axisOf (n + 1))
    (hx : r1.x = BitVec.ofInt 32 (x + axisSum ds 0 (n + 1)))
    (hy : r1.y = BitVec.ofInt 32 (y + axisSum ds 1 (n + 1)))
    (hz : r1.z = BitVec.ofInt 32 (z + axisSum ds 2 (n + 1))) (ho : r1.owptr = r.owptr)
    (hc : r1.rowcnt = r.rowcnt) (hm : r1.oram = r.oram)
    (hroom : s.owptr.toNat + 3 * (1 + (n + 1) / 3) ≤ Config.oramWords) :
    ∃ r2, r1.rowIfComplete = .ok r2 ∧ RunAt s x y z ds (n + 1) q r2 := by
  have hw : Config.oramWords = 32768 := rfl
  have hon : r1.owptr.toNat = s.owptr.toNat + 3 * (1 + n / 3) := by
    rw [ho, h.owptr, BitVec.toNat_ofNat]; have := h.room; omega
  unfold MagRun.rowIfComplete
  by_cases hn : (n + 1) % 3 = 0
  · have hk : (n + 1) / 3 = 1 + n / 3 := by omega
    have hk3 : 3 * (1 + n / 3) = n + 1 := by omega
    rw [if_pos (by rw [ha]; simp [axisOf, hn]), if_pos (room_iff.mpr (by omega))]
    refine ⟨_, rfl, hp, ha, hx, hy, hz, ?_, ?_, hroom, ?_⟩
    · apply BitVec.eq_of_toNat_eq
      simp only [MagRun.emitRow, BitVec.toNat_add, BitVec.toNat_ofNat]; omega
    · show r1.rowcnt + 1#32 = _
      rw [hc, h.rowcnt, hk]
      apply BitVec.eq_of_toNat_eq
      simp only [BitVec.toNat_add, BitVec.toNat_ofNat]; omega
    · rw [hk, Nat.add_comm 1 (1 + n / 3)]
      exact magRows_emit (hm ▸ h.rows) hon (by rw [hk3]; exact hx) (by rw [hk3]; exact hy)
        (by rw [hk3]; exact hz)
  · have hk : (n + 1) / 3 = n / 3 := by omega
    rw [if_neg (by rw [ha]; unfold axisOf; rw [if_neg hn]; split <;> simp)]
    exact ⟨r1, rfl, hp, ha, hx, hy, hz, by rw [ho, h.owptr, hk], by rw [hc, h.rowcnt, hk], hroom,
      by rw [hk, hm]; exact h.rows⟩

/-- The loop goes on to read a delta exactly when neither end of the packet is reached. -/
theorem magLoop_enter {s : State} {x y z : Int} {ds : List Int} {n p : Nat} {r : MagRun} (fuel : Nat)
    (h : RunAt s x y z ds n p r) (hl : ¬ LimitReached s (1 + n / 3)) (hp : p + 2 ≤ s.bitend.toNat) :
    magLoop s (fuel + 1) r = match magDelta s p with
      | .error e => .error (e, r)
      | .ok none => .ok (r, true)
      | .ok (some (delta, q)) =>
        match r.accumulate delta q with
        | .error e => .error (e, r)
        | .ok r1 =>
          match r1.rowIfComplete with
          | .error e => .error (e, r1)
          | .ok r2 => magLoop s fuel r2 := by
  have hw : Config.oramWords = 32768 := rfl
  have hroom := h.room
  have hlim : ¬ (s.opb ≠ 0#32 ∧ r.rowcnt = s.opb) := by
    rintro ⟨h1, h2⟩
    refine hl ⟨h1, ?_⟩
    have := congrArg BitVec.toNat h2
    rw [h.rowcnt, BitVec.toNat_ofNat] at this
    omega
  rw [magLoop, if_neg hlim, if_neg (by rw [h.pos, short_iff]; omega), h.pos]
  all_goals rfl

/-- The loop stops normally at the row limit or with fewer than 2 bits left. -/
theorem magLoop_stop {s : State} {x y z : Int} {ds : List Int} {n p : Nat} {r : MagRun} (fuel : Nat)
    (h : RunAt s x y z ds n p r) (hl : LimitReached s (1 + n / 3) ∨ s.bitend.toNat < p + 2) :
    magLoop s fuel r = .ok (r, false) := by
  cases fuel with
  | zero => rfl
  | succ fuel =>
    rw [magLoop]
    rcases hl with ⟨h1, h2⟩ | hl
    · rw [if_pos ⟨h1, by rw [h.rowcnt, ← h2]; simp⟩]
    · split
      · rfl
      · rw [if_pos (by rw [h.pos, short_iff]; exact hl)]

theorem magDeltaAt_bits {s : State} {p q : Nat} {d : Int} (h : MagDeltaAt s p d q) :
    p + 12 ≤ q ∧ q ≤ s.bitend.toNat := magDelta_some (magDelta_of_deltaAt h)

/-- One delta of the list: the loop turns once. -/
theorem magLoop_turn {s : State} {x y z : Int} {ds : List Int} {n p q : Nat} {r : MagRun} (fuel : Nat)
    (h : RunAt s x y z ds n p r) (hd : MagDeltaAt s p (ds.getD n 0) q)
    (hl : ¬ LimitReached s (1 + n / 3))
    (hf : ∀ m, m ≤ n + 1 → FitsWord (x + axisSum ds 0 m) ∧ FitsWord (y + axisSum ds 1 m)
      ∧ FitsWord (z + axisSum ds 2 m))
    (hroom : s.owptr.toNat + 3 * (1 + (n + 1) / 3) ≤ Config.oramWords) :
    ∃ r2, magLoop s (fuel + 1) r = magLoop s fuel r2 ∧ RunAt s x y z ds (n + 1) q r2 := by
  have hb := magDeltaAt_bits hd
  obtain ⟨r1, h1, h2, h3, h4, h5, h6, h7, h8, h9⟩ :=
    accumulate_at (q := q) h (hf n (by omega)) (hf (n + 1) (by omega))
  obtain ⟨r2, h10, h11⟩ := rowIfComplete_at h h2 h3 h4 h5 h6 h7 h8 h9 hroom
  refine ⟨r2, ?_, h11⟩
  rw [magLoop_enter fuel h hl (by omega), magDelta_of_deltaAt hd]
  simp only [h1, h10]

/-- Some of the deltas of a list, from the n-th on: the loop turns once for each and still has fuel for every
bit left. -/
theorem magLoop_deltas {s : State} {x y z : Int} {ds : List Int} {rest : List Int} {p q : Nat}
    (hd : MagDeltas s p rest q) {n : Nat} (hr : rest <+: ds.drop n)
    (hf : ∀ m, m ≤ n + rest.length → FitsWord (x + axisSum ds 0 m) ∧ FitsWord (y + axisSum ds 1 m)
      ∧ FitsWord (z + axisSum ds 2 m))
    (hl : ∀ j, j < n + rest.length → ¬ LimitReached s (1 + j / 3))
    (hroom : s.owptr.toNat + 3 * (1 + (n + rest.length) / 3) ≤ Config.oramWords)
    {fuel : Nat} (hfuel : s.bitend.toNat - p < fuel) {r : MagRun} (h : RunAt s x y z ds n p r) :
    ∃ fuel' r', s.bitend.toNat - q < fuel' ∧ magLoop s fuel r = magLoop s fuel' r'
      ∧ RunAt s x y z ds (n + rest.length) q r' := by
  induction hd generalizing n fuel r with
  | done p => exact ⟨fuel, r, hfuel, rfl, h⟩
  | @delta p p1 q d rest hd hds ih =>
    have hnl : n < ds.length := by
      have := hr.length_le; simp at this; omega
    rw [List.drop_eq_getElem_cons hnl, List.cons_prefix_cons] at hr
    obtain ⟨hr1, hr2⟩ := hr
    have hg : ds.getD n 0 = d := by
      rw [List.getD_eq_getElem?_getD, List.getElem?_eq_getElem hnl, hr1]; rfl
    have hb := magDeltaAt_bits hd
    have hlen : n + (d :: rest).length = n + 1 + rest.length := by simp; omega
    rw [hlen] at hf hl hroom ⊢
    have h3 : (n + 1) / 3 ≤ (n + 1 + rest.length) / 3 := Nat.div_le_div_right (by omega)
    obtain ⟨fuel, rfl⟩ : ∃ k, fuel = k + 1 := ⟨fuel - 1, by omega⟩
    obtain ⟨r2, h2, h3⟩ := magLoop_turn fuel h (hg ▸ hd) (hl n (by omega))
      (fun m hm => hf m (by omega)) (by omega)
    obtain ⟨fuel', r', h4, h5, h6⟩ := ih (fuel := fuel) hr2 hf hl hroom (by omega) h3
    exact ⟨fuel', r', h4, h2.trans h5, h6⟩

theorem magDeltas_snoc {s : State} {p q : Nat} {ds : List Int} {d : Int}
    (h : MagDeltas s p (ds ++ [d]) q) : ∃ m, MagDeltas s p ds m ∧ MagDeltaAt s m d q := by
  induction ds generalizing p with
  | nil =>
    cases h with
    | delta h hr => cases hr; exact ⟨p, .done p, h⟩
  | cons e ds ih =>
    cases h with
    | delta h hr =>
      obtain ⟨m, h1, h2⟩ := ih hr
      exact ⟨m, .delta h h1, h2⟩

/-- The run at the end of a list of deltas, as the state of the statements. -/
theorem withMag_at {s : State} {x y z : Int} {ds : List Int} {n p : Nat} {r : MagRun} {term : Bool}
    (h : RunAt s x y z ds n p r) (hn : n = ds.length) :
    withMag r term s = magState s x y z ds (1 + n / 3) r.oram term := by
  subst hn
  simp only [withMag, magState, h.sumX, h.sumY, h.sumZ, h.owptr, h.rowcnt, Status.setTerm]

/-- MAG_PKT on a packet in progress: what is left is the end of the loop. -/
theorem execMagPkt_progress {s : State} {x y z : Int} {ds : List Int} {q : Nat}
    (h : MagProgress s x y z ds q) (hroom : s.owptr.toNat + 3 * (1 + ds.length / 3) ≤ Config.oramWords) :
    ∃ fuel r, s.bitend.toNat - q < fuel ∧ RunAt s x y z ds ds.length q r
      ∧ execMagPkt s = finish 0x38#8 (match magLoop s fuel r with
        | .error (e, r) => .error (e, withMag r false s)
        | .ok (r, term) => .ok { withMag r term s with bitptr := asWord r.p }) := by
  obtain ⟨hm, hx, hy, hz, hd, hf, hl⟩ := h
  obtain ⟨r0, h0, hr0⟩ := magStart_at ds hm hx hy hz
  obtain ⟨fuel, r, h1, h2, h3⟩ := magLoop_deltas hd (ds := ds) (n := 0) (by simp)
    (by simpa using hf) (by simpa using hl) (by simpa using hroom)
    (fuel := s.bitend.toNat - s.bitptr.toNat + 1) (by omega) hr0
  rw [Nat.zero_add] at h3
  refine ⟨fuel, r, h1, h3, ?_⟩
  rw [← h2]
  simp only [execMagPkt, magPreconditions_ok_iff.mpr hm, h0, orAt_ok, bind, Except.bind]
  rfl

end Sys2Proof.Machine
end

