-- ==== Sys2Proof/Laws/Exec.lean ====
section
/-! SUPPORT. Every end of every command, by instruction. -/

namespace Sys2Proof.Machine

open Sys2Proof.Safety

/-- The errors an atomic command can raise; PD_STEP and MAG_PKT are not atomic. -/
def atomicErrors : Instr → List ErrCode
  | .rdbits n => if (Instr.rdbits n).wf then [.addr, .bitsShort] else [.illegal]
  | .rdhuf _ => [.addr, .hufShort, .hufLong]
  | .rdsign _ => [.addr, .signShort, .signBad]
  | .ldu16b => [.addr]
  | .lds16b => [.addr]
  | .ldu24b => [.addr]
  | .lds24b => [.addr]
  | .ldu16l => [.addr]
  | .stu16b => [.addr, .packRange]
  | .sts16b => [.addr, .packRange]
  | .stu24b => [.addr, .packRange]
  | .sts24b => [.addr, .packRange]
  | .swap16 => [.addr, .oddLen]
  | .crchdr => [.addr]
  | .pdInit => []
  | .pdStep => []
  | .pdGap => []
  | .magPkt => []

/-- Only RES is written. -/
def WritesRes (s t : State) : Prop := ∃ w, t = { s with res := w }

/-- Only bytes of BUF at OPA are written, inside the buffer. -/
def WritesBuf (s t : State) : Prop :=
  ∃ bs : List Byte, s.opa.toNat + bs.length ≤ Config.bufBytes
    ∧ t = { s with buf := s.buf.writeList s.opa.toNat bs }

/-- What an atomic command that completes may have changed, but for LASTOK. -/
def AtomicEffect (s t : State) : Instr → Prop
  | .rdbits _ => ∃ r r2 p, t = { s with res := r, res2 := r2, bitptr := p }
  | .rdhuf _ => ∃ r r2 p, t = { s with res := r, res2 := r2, bitptr := p }
  | .rdsign _ => ∃ r r2 p b, t = { s with
      res := r, res2 := r2, bitptr := p, status := s.status.setTerm b }
  | .ldu16b => WritesRes s t
  | .lds16b => WritesRes s t
  | .ldu24b => WritesRes s t
  | .lds24b => WritesRes s t
  | .ldu16l => WritesRes s t
  | .stu16b => WritesBuf s t
  | .sts16b => WritesBuf s t
  | .stu24b => WritesBuf s t
  | .sts24b => WritesBuf s t
  | .swap16 => WritesBuf s t
  | .crchdr => ∃ r r2 ok odd, t = { s with
      res := r, res2 := r2, status := s.status.crcResult ok odd }
  | .pdInit => t = { setPdFlags false false (seek s) with pcount := 0#32 }
  | .pdStep => False
  | .pdGap => t = setPdFlags false false (seek s)
  | .magPkt => False

theorem AtomicEnd.imp {op : Byte} {s : State} {codes : List ErrCode} {P Q : State → Prop}
    {o : Host.Outcome State Fault Refusal} (h : AtomicEnd op s codes P o) (hpq : ∀ t, P t → Q t) :
    AtomicEnd op s codes Q o := by
  cases h with
  | done h => exact .done (hpq _ h)
  | raise h => exact .raise h
  | fault h1 h2 => exact .fault h1 h2

/-- The ends of every command but PD_STEP (`execPdStep_end`) and MAG_PKT (`execMagPkt_end`). -/
theorem exec_atomic_end (i : Instr) (s : State) (hp : i ≠ .pdStep) (hm : i ≠ .magPkt) :
    AtomicEnd i.opcode s (atomicErrors i) (AtomicEffect s · i) (exec i s) := by
  have pack_imp : ∀ (i : Instr) (n : Nat) (f : Bool),
      AtomicEnd i.opcode s [.addr, .packRange] (WritesBuf s) (pack i n f s) := fun i n f =>
    (pack_end i n f s).imp fun _ h => h
  cases i with
  | rdbits n => exact (execRdbits_end n s).imp fun t ⟨_, v, h⟩ => ⟨_, _, _, h⟩
  | rdhuf b => exact (execRdhuf_end b s).imp fun t ⟨_, c, q, _, h⟩ => ⟨_, _, _, h⟩
  | rdsign m => exact (execRdsign_end m s).imp fun t ⟨_, h⟩ => h
  | ldu16b => exact unpack_end _ _ _ s
  | lds16b => exact unpack_end _ _ _ s
  | ldu24b => exact unpack_end _ _ _ s
  | lds24b => exact unpack_end _ _ _ s
  | ldu16l => exact unpack_end _ _ _ s
  | stu16b => exact pack_imp _ _ _
  | sts16b => exact pack_imp _ _ _
  | stu24b => exact pack_imp _ _ _
  | sts24b => exact pack_imp _ _ _
  | swap16 =>
    exact (execSwap16_end s).imp fun t ⟨bs, _, _, h, _, ht⟩ => ⟨swapPairs bs, by simpa using h, ht⟩
  | crchdr => exact (execCrchdr_end s).imp fun t ⟨_, _, _, _, _, _, _, _, h⟩ => ⟨_, _, _, _, h⟩
  | pdInit => exact .done rfl
  | pdStep => exact absurd rfl hp
  | pdGap => exact .done rfl
  | magPkt => exact absurd rfl hm

/-- The next states of an atomic command. -/
theorem exec_atomic_next {i : Instr} {s t : State} (hp : i ≠ .pdStep) (hm : i ≠ .magPkt)
    (h : exec i s = .next t) : (∃ u, AtomicEffect s u i ∧ t = complete u)
      ∨ ∃ e ptr, e ∈ atomicErrors i ∧ t = recordError i.opcode e ptr s := by
  have hend := exec_atomic_end i s hp hm
  rw [h] at hend
  clear h
  cases hend with
  | done hu => exact .inl ⟨_, hu, rfl⟩
  | raise he => exact .inr ⟨_, _, he, rfl⟩

theorem execPdStep_next {s t : State} (h : exec .pdStep s = .next t) : PdStepEnd s (.next t) :=
  h ▸ execPdStep_end s

theorem execMagPkt_next {s t : State} (h : exec .magPkt s = .next t) : MagPktEnd s (.next t) :=
  h ▸ execMagPkt_end s

end Sys2Proof.Machine
end

