-- ==== Sys2Proof/Laws/Bus.lean ====
section
/-! SUPPORT. The host bus: where an access goes, what a step on each event is, and every next state of a
step. -/

namespace Sys2Proof.Machine

open Sys2Proof.Safety

/-! ## Where an access goes (20_memory.md R61, R64) -/

theorem target_acc {i : Nat} (h : i < 256) :
    target (BitVec.ofNat 18 (0x2000 + 4 * i)) .b4 = some (.acc i) := by
  have ha : (BitVec.ofNat 18 (0x2000 + 4 * i)).toNat = 0x2000 + 4 * i := by simp; omega
  have hs : Config.accSlots = 256 := rfl
  simp only [target, ha, AccessSize.bytes, Config.bufBytes]
  rw [if_neg (by omega), if_neg (by omega), if_pos True.intro]
  unfold wordTarget
  rw [if_neg (by omega), if_neg (by omega), if_neg (by omega), if_pos (by omega)]
  congr 2; omega

theorem target_oram {i : Nat} (h : i < 32768) :
    target (BitVec.ofNat 18 (0x20000 + 4 * i)) .b4 = some (.oram i) := by
  have ha : (BitVec.ofNat 18 (0x20000 + 4 * i)).toNat = 0x20000 + 4 * i := by simp; omega
  have hs : Config.accSlots = 256 := rfl
  have hs2 : Config.oramWords = 32768 := rfl
  simp only [target, ha, AccessSize.bytes, Config.bufBytes]
  rw [if_neg (by omega), if_neg (by omega), if_pos True.intro]
  unfold wordTarget
  rw [if_neg (by omega), if_neg (by omega), if_neg (by omega), if_neg (by omega), if_pos (by omega)]
  congr 2; omega

theorem target_buf {a : Nat} {n : AccessSize} (h : a < 32768) (hn : a % n.bytes = 0) :
    target (BitVec.ofNat 18 (0x10000 + a)) n = some (.buf a) := by
  have ha : (BitVec.ofNat 18 (0x10000 + a)).toNat = 0x10000 + a := by simp; omega
  simp only [target, ha, Config.bufBytes]
  have h1 : ¬ (0x10000 + a) % n.bytes ≠ 0 := by
    cases n <;> simp [AccessSize.bytes] at hn ⊢ <;> omega
  rw [if_neg h1, if_pos (by omega), show 0x10000 + a - 0x10000 = a by omega]

theorem target_huff (t : Bank) (i : Fin 256) :
    target (BitVec.ofNat 18 ((if t = .pd then 0x1000 else 0x1400) + 4 * i.val)) .b4
      = some (.huff t i) := by
  have hi := i.isLt
  have ha : (BitVec.ofNat 18 ((if t = .pd then 0x1000 else 0x1400) + 4 * i.val)).toNat
      = (if t = .pd then 0x1000 else 0x1400) + 4 * i.val := by cases t <;> simp <;> omega
  have hf : ∀ k, k = i.val → Fin.ofNat 256 k = i := by rintro k rfl; simp
  simp only [target, ha, AccessSize.bytes, Config.bufBytes]
  cases t
  · rw [if_neg (by simp; try omega), if_neg (by simp; try omega), if_pos True.intro]
    simp only [wordTarget, if_true]
    rw [if_neg (by omega), if_pos (by omega), hf _ (by omega)]
  · rw [if_neg (by simp; try omega), if_neg (by simp; try omega), if_pos True.intro]
    simp only [wordTarget, reduceCtorEq, if_false]
    rw [if_neg (by omega), if_neg (by omega), if_pos (by omega), hf _ (by omega)]

theorem isSome_csrAt (o : Nat) :
    (csrAt o).isSome = (decide (o % 4 = 0) && decide (o < 0x68)) := by
  have hl : csrMap.length = 26 := rfl
  unfold csrAt
  split
  · rename_i h4
    by_cases hk : o / 4 < csrMap.length
    · rw [List.getElem?_eq_getElem hk]; simp [h4]; omega
    · rw [List.getElem?_eq_none (by omega)]; simp; omega
  · rename_i h4; simp [h4]

/-- An access of 4 bytes outside BUF reaches something exactly where the map of R61 has it. -/
theorem wordTarget_isSome {a : Nat} (h4 : a % 4 = 0) :
    wordTarget a ≠ none ↔ a < 0x68 ∨ (0x1000 ≤ a ∧ a < 0x1800) ∨ (0x2000 ≤ a ∧ a < 0x2400)
      ∨ (0x20000 ≤ a ∧ a < 0x40000) := by
  have hs : Config.accSlots = 256 := rfl
  have hs2 : Config.oramWords = 32768 := rfl
  unfold wordTarget
  split
  · have := isSome_csrAt a
    cases hc : csrAt a <;> simp [hc] at this ⊢ <;> omega
  · split_ifs <;> simp <;> omega

theorem wordTarget_bound {a : Nat} {t : Target} (h : wordTarget a = some t) :
    (∀ x, t ≠ .buf x) ∧ ∀ w, t = .oram w → w < Config.oramWords := by
  unfold wordTarget at h
  split at h
  · obtain ⟨c, -, rfl⟩ := Option.map_eq_some_iff.mp h
    exact ⟨nofun, nofun⟩
  · split_ifs at h <;> rw [Option.some_inj] at h <;> subst h <;> refine ⟨nofun, ?_⟩
    · nofun
    · nofun
    · nofun
    · rintro w ⟨⟩; omega

/-- A target is inside its memory, and only BUF takes an access of fewer than 4 bytes. -/
theorem target_bound {a : HostAddr} {n : AccessSize} {t : Target} (h : target a n = some t) :
    (∀ x, t = .buf x → x + n.bytes ≤ Config.bufBytes) ∧ (∀ w, t = .oram w → w < Config.oramWords)
      ∧ (n = .b4 ∨ ∃ x, t = .buf x) := by
  have hb : Config.bufBytes = 32768 := rfl
  unfold target at h
  split at h
  · cases h
  · rename_i hn
    split at h
    · rw [Option.some_inj] at h; subst h
      refine ⟨?_, nofun, .inr ⟨_, rfl⟩⟩
      intro x hx
      rw [Target.buf.injEq] at hx; subst hx
      cases n <;> simp only [AccessSize.bytes] at hn ⊢ <;> omega
    · split at h
      · obtain ⟨h1, h2⟩ := wordTarget_bound h
        exact ⟨fun x hx => absurd hx (h1 x), h2, .inl ‹_›⟩
      · cases h

/-! ## The lanes of an access (20_memory.md R62) -/

theorem length_laneBytes (d : BusData) : (laneBytes d).length = d.size.bytes := by cases d <;> rfl

/-- What a write stores, in lane order. -/
theorem leBytes_toNat (d : BusData) : leBytes d.toNat d.size.bytes = laneBytes d := by
  cases d with
  | b1 v => simp [leBytes, BusData.toNat, BusData.size, AccessSize.bytes, laneBytes]
  | b2 v =>
    simp only [leBytes, BusData.toNat, BusData.size, AccessSize.bytes, laneBytes, List.cons.injEq, and_true]
    refine ⟨?_, ?_⟩ <;> apply BitVec.eq_of_toNat_eq <;>
      simp [BitVec.extractLsb'_toNat, Nat.shiftRight_eq_div_pow]
  | b4 v => exact leBytes_word v

/-- What a read answers, from the bytes in lane order. -/
theorem ofBytes_laneBytes (d : BusData) : BusData.ofBytes d.size (laneBytes d) = d := by
  have h := leNat_leBytes d.toNat d.size.bytes
  rw [leBytes_toNat] at h
  cases d <;> simp only [BusData.ofBytes, BusData.size, h, BusData.toNat, AccessSize.bytes] <;> congr 1 <;>
    exact BitVec.eq_of_toNat_eq (by simp; omega)

/-- A read of BUF where the bytes stand. -/
theorem readTarget_buf {s : State} {a : Nat} {d : BusData} (h : BytesAt s.buf a (laneBytes d)) :
    readTarget s d.size (.buf a) = .ok d := by
  simp only [readTarget, readCells_of_bytesAt (length_laneBytes d) h, Except.map, ofBytes_laneBytes]

/-- A read of ORAM where the word stands. -/
theorem readTarget_oram {s : State} {k : Nat} {w : Word} (h : OramWord s.oram k w) :
    readTarget s .b4 (.oram k) = .ok (.b4 w) := by
  simp only [readTarget, readCells_of_bytesAt (bs := laneBytes (.b4 w)) (n := 4) rfl h, Except.map]
  exact congrArg Except.ok (ofBytes_laneBytes (.b4 w))

/-! ## A step on each event -/

theorem step_write {s : State} {a : HostAddr} {d : BusData} {rest : List BusEvent} {t : Target}
    (h : s.hostQueue = .write a d :: rest) (ht : target a d.size = some t) :
    step s = writeTarget d (takeEvent rest s) t := by
  simp only [step, h, perform, ht]

theorem step_read {s : State} {a : HostAddr} {n : AccessSize} {rest : List BusEvent} {t : Target}
    (h : s.hostQueue = .read a n :: rest) (ht : target a n = some t) :
    step s = answer (readTarget (takeEvent rest s) n t) (takeEvent rest s) := by
  simp only [step, h, perform, ht]

theorem step_writeCsr {s : State} {a : HostAddr} {w : Word} {rest : List BusEvent} {c : Csr}
    (h : s.hostQueue = .write a (.b4 w) :: rest) (ht : target a .b4 = some (.csr c)) :
    step s = writeCsr c w (takeEvent rest s) := by
  rw [step_write h ht]; simp [writeTarget, BusData.toNat]

theorem step_readCsr {s : State} {a : HostAddr} {rest : List BusEvent} {c : Csr}
    (h : s.hostQueue = .read a .b4 :: rest) (ht : target a .b4 = some (.csr c)) :
    step s = .next { s with hostQueue := rest, readData := some (.b4 (readCsr s c)) } := by
  rw [step_read h ht]; cases c <;> rfl

theorem step_cmd {s : State} {w : Word} {rest : List BusEvent}
    (h : s.hostQueue = issueEvent w :: rest) : step s = issue w (takeEvent rest s) :=
  step_writeCsr (c := .cmd) h (by decide)

/-- A read of a target answers data of its own size, or faults at an unwritten cell. -/
theorem readTarget_cases (s : State) {n : AccessSize} {a : HostAddr} {t : Target}
    (ht : target a n = some t) : (∃ d, d.size = n ∧ readTarget s n t = .ok d)
      ∨ ∃ sp i, readTarget s n t = .error (.fault (.unwritten sp i)) := by
  have hn := (target_bound ht).2.2
  cases t with
  | csr c => rcases hn with rfl | ⟨_, h⟩; exact .inl ⟨_, rfl, rfl⟩; cases h
  | huff b i => rcases hn with rfl | ⟨_, h⟩; exact .inl ⟨_, rfl, rfl⟩; cases h
  | acc i =>
    rcases hn with rfl | ⟨_, h⟩
    · cases hr : readCell .acc s.acc i with
      | ok b => exact .inl ⟨.b4 (b.setWidth 32), rfl, by simp [readTarget, hr, Except.map]⟩
      | error e =>
        obtain ⟨-, rfl⟩ := readCell_error_iff.mp hr
        exact .inr ⟨_, _, by simp only [readTarget, hr, Except.map]; rfl⟩
    · cases h
  | buf x =>
    cases hr : readCells .buf s.buf x n.bytes with
    | ok b =>
      exact .inl ⟨BusData.ofBytes n b, by cases n <;> rfl, by simp only [readTarget, hr, Except.map]⟩
    | error e =>
      obtain ⟨i, -, -, -, rfl⟩ := readCells_error hr
      exact .inr ⟨_, _, by simp only [readTarget, hr, Except.map]; rfl⟩
  | oram w =>
    rcases hn with rfl | ⟨_, h⟩
    · cases hr : readCells .oram s.oram (4 * w) 4 with
      | ok b => exact .inl ⟨_, rfl, by simp only [readTarget, hr, Except.map]; rfl⟩
      | error e =>
        obtain ⟨i, -, -, -, rfl⟩ := readCells_error hr
        exact .inr ⟨_, _, by simp only [readTarget, hr, Except.map]; rfl⟩
    · cases h

/-! ## Every next state of a step -/

/-- The next states of a step: nothing to do, a host read or an ignored access, the reset input, a
command, an illegal command word, or a host write. -/
inductive StepEnd (s : State) : State → Prop where
  | idle : StepEnd s s
  | access (rest : List BusEvent) (d : Option BusData) :
      StepEnd s { s with hostQueue := rest, readData := d }
  | reset (rest : List BusEvent) : StepEnd s { State.reset with hostQueue := rest }
  | command (rest : List BusEvent) {w : Word} {i : Instr} {t : State}
      (h : exec i (takeEvent rest s) = .next t) (hd : decode w = .ok i) : StepEnd s t
  | illegal (rest : List BusEvent) (w : Word) :
      StepEnd s (recordError (opcodeField w) .illegal w (takeEvent rest s))
  | ctrl (rest : List BusEvent) (w : Word) : StepEnd s (writeCtrl w (takeEvent rest s))
  | status (rest : List BusEvent) (w : Word) : StepEnd s (clearErrors w (takeEvent rest s))
  | opa (rest : List BusEvent) (w : Word) : StepEnd s { takeEvent rest s with opa := w }
  | opb (rest : List BusEvent) (w : Word) : StepEnd s { takeEvent rest s with opb := w }
  | bitptr (rest : List BusEvent) (w : Word) : StepEnd s { takeEvent rest s with bitptr := w }
  | bitend (rest : List BusEvent) (w : Word) : StepEnd s { takeEvent rest s with bitend := w }
  | crccfg (rest : List BusEvent) (c : CrcCfg) : StepEnd s { takeEvent rest s with crccfg := c }
  | derrcnt (rest : List BusEvent) : StepEnd s { takeEvent rest s with derrcnt := 0#32 }
  | owptr (rest : List BusEvent) (w : Word) : StepEnd s { takeEvent rest s with owptr := w }
  | pdMark (rest : List BusEvent) (w : Word) : StepEnd s { takeEvent rest s with pdMark := w }
  | pdTag (rest : List BusEvent) (w : Word) : StepEnd s { takeEvent rest s with pdTag := w }
  | pdVals (rest : List BusEvent) (w : Word) : StepEnd s { takeEvent rest s with pdVals := w }
  | pdVlen (rest : List BusEvent) (w : Word) : StepEnd s { takeEvent rest s with pdVlen := w }
  | huff (rest : List BusEvent) (t : Bank) (i : Fin 256) (e : HuffEntry) :
      StepEnd s ((takeEvent rest s).setHuff t i e)
  | buf (rest : List BusEvent) (a : Nat) (bs : List Byte) (h : a + bs.length ≤ Config.bufBytes) :
      StepEnd s { takeEvent rest s with buf := s.buf.writeList a bs }
  | oram (rest : List BusEvent) (w : Nat) (v : Word) (h : w < Config.oramWords) :
      StepEnd s { takeEvent rest s with oram := s.oram.writeWord w v }

theorem stepEnd_issue {s t : State} {rest : List BusEvent} {w : Word}
    (h : issue w (takeEvent rest s) = .next t) : StepEnd s t := by
  unfold issue at h
  split at h
  · cases h; exact .access rest none
  · split at h
    · cases h; exact .illegal rest w
    · exact .command rest h ‹_›

theorem stepEnd_writeCsr {s t : State} {rest : List BusEvent} {c : Csr} {w : Word}
    (h : writeCsr c w (takeEvent rest s) = .next t) : StepEnd s t := by
  cases c
  case ctrl => cases h; exact .ctrl rest w
  case status => cases h; exact .status rest w
  case cmd => exact stepEnd_issue h
  case opa => cases h; exact .opa rest w
  case opb => cases h; exact .opb rest w
  case bitptr => cases h; exact .bitptr rest w
  case bitend => cases h; exact .bitend rest w
  case crccfg => cases h; exact .crccfg rest _
  case derrcnt => cases h; exact .derrcnt rest
  case owptr => cases h; exact .owptr rest w
  case pdMark => cases h; exact .pdMark rest w
  case pdTag => cases h; exact .pdTag rest w
  case pdVals => cases h; exact .pdVals rest w
  case pdVlen => cases h; exact .pdVlen rest w
  all_goals cases h; exact .access rest none

theorem step_next {s t : State} (h : step s = .next t) : StepEnd s t := by
  unfold step at h
  split at h
  · cases h; exact .idle
  · rename_i e rest hq
    cases e with
    | reset => cases h; exact .reset rest
    | read a n =>
      simp only [perform] at h
      split at h
      · cases h
      · rename_i tg ht
        rcases readTarget_cases (takeEvent rest s) ht with ⟨d, -, hr⟩ | ⟨sp, i, hr⟩ <;>
          rw [hr] at h <;> cases h
        exact .access rest (some d)
    | write a d =>
      simp only [perform] at h
      split at h
      · cases h
      · rename_i tg ht
        obtain ⟨hb, ho, -⟩ := target_bound ht
        cases tg with
        | csr c => exact stepEnd_writeCsr h
        | huff b i => cases h; exact .huff rest b i _
        | acc i => cases h; exact .access rest none
        | buf x => cases h; exact .buf rest x _ (by simpa using hb x rfl)
        | oram w => cases h; exact .oram rest w _ (ho w rfl)

end Sys2Proof.Machine
end

