-- ==== Sys2Proof/Laws/Crc.lean ====
section
/-! SUPPORT. With an odd polynomial the CRC register update loses nothing: one shift, one byte and a whole
string of bytes are injective in the register and in each byte. -/

namespace Sys2Proof.Machine

theorem xor_right_cancel {a b c : Byte} (h : a ^^^ c = b ^^^ c) : a = b := by
  have := congrArg (· ^^^ c) h
  simpa [BitVec.xor_assoc] using this

theorem xor_left_cancel {a b c : Byte} (h : c ^^^ a = c ^^^ b) : a = b := by
  rw [BitVec.xor_comm c a, BitVec.xor_comm c b] at h; exact xor_right_cancel h

theorem rev8_inj {a b : Byte} (h : rev8 a = rev8 b) : a = b := by
  have := congrArg BitVec.reverse h
  simpa [rev8] using this

/-- A shift to the left loses only bit 7. -/
theorem shiftLeft_one_inj {x y : Byte} (h7 : x.getLsbD 7 = y.getLsbD 7) (h : x <<< 1 = y <<< 1) :
    x = y := by
  apply BitVec.eq_of_getLsbD_eq
  intro k hk
  by_cases hk7 : k = 7
  · subst hk7; exact h7
  · have := congrArg (fun v : Byte => v.getLsbD (k + 1)) h
    simp only [BitVec.getLsbD_shiftLeft] at this
    simpa [show k + 1 < 8 by omega] using this

/-- An odd polynomial marks in bit 0 whether bit 7 fell out. -/
theorem crcShift_inj {poly a b : Byte} (hp : poly.getLsbD 0 = true)
    (h : crcShift poly a = crcShift poly b) : a = b := by
  have h0 : ∀ x : Byte, ((x <<< 1) ^^^ poly).getLsbD 0 ≠ (x <<< 1).getLsbD 0 := by
    intro x; rw [BitVec.getLsbD_xor, hp]; simp
  have hz : ∀ x y : Byte, (x <<< 1).getLsbD 0 = (y <<< 1).getLsbD 0 := by intro x y; simp
  unfold crcShift at h
  by_cases ha : a.getLsbD 7 = true <;> by_cases hb : b.getLsbD 7 = true
  · rw [if_pos ha, if_pos hb] at h
    exact shiftLeft_one_inj (by rw [ha, hb]) (xor_right_cancel h)
  · rw [if_pos ha, if_neg hb] at h
    exact absurd ((congrArg (·.getLsbD 0) h).trans (hz b a)) (h0 a)
  · rw [if_neg ha, if_pos hb] at h
    exact absurd ((congrArg (·.getLsbD 0) h.symm).trans (hz a b)) (h0 b)
  · rw [if_neg ha, if_neg hb] at h
    exact shiftLeft_one_inj (by simp only [Bool.not_eq_true] at ha hb; rw [ha, hb]) h

theorem crcByte_inj_register {c : CrcCfg} {r r' b : Byte} (hp : c.poly.getLsbD 0 = true)
    (h : crcByte c r b = crcByte c r' b) : r = r' :=
  xor_right_cancel ((Function.Injective.iterate (fun _ _ => crcShift_inj hp) 8) h)

theorem crcByte_inj_byte {c : CrcCfg} {r b b' : Byte} (hp : c.poly.getLsbD 0 = true)
    (h : crcByte c r b = crcByte c r b') : b = b' := by
  have hx := xor_left_cancel ((Function.Injective.iterate (fun _ _ => crcShift_inj hp) 8) h)
  split at hx
  · exact rev8_inj hx
  · exact hx

theorem crcBytes_inj_register {c : CrcCfg} (hp : c.poly.getLsbD 0 = true) (bs : List Byte)
    (r r' : Byte) (h : bs.foldl (crcByte c) r = bs.foldl (crcByte c) r') : r = r' := by
  induction bs generalizing r r' with
  | nil => exact h
  | cons b bs ih => exact crcByte_inj_register hp (ih _ _ h)

end Sys2Proof.Machine
end

