-- ==== Sys2Proof/Laws/Encode.lean ====
section
/-! SUPPORT. The fields of a command word and of its encoding, and what each operand format decodes to. -/

namespace Sys2Proof

theorem toNat_opcode (w : Word) : (opcodeField w).toNat = w.toNat / 2^24 := by
  simp [opcodeField, BitVec.extractLsb'_toNat, Nat.shiftRight_eq_div_pow]; omega
theorem toNat_arg (w : Word) : (argField w).toNat = w.toNat % 2^24 := by
  simp [argField, BitVec.extractLsb'_toNat]
theorem toNat_encode (i : Instr) : (encode i).toNat = i.opcode.toNat * 2^24 + i.arg.toNat := by
  rw [encode, BitVec.toNat_append, ← Nat.shiftLeft_add_eq_or_of_lt i.arg.isLt, Nat.shiftLeft_eq]

theorem opcode_encode (i : Instr) : opcodeField (encode i) = i.opcode := by
  apply BitVec.eq_of_toNat_eq
  rw [toNat_opcode, toNat_encode]; have := i.arg.isLt; omega

theorem arg_encode (i : Instr) : argField (encode i) = i.arg := by
  apply BitVec.eq_of_toNat_eq
  rw [toNat_arg, toNat_encode]; have := i.arg.isLt; omega

theorem encode_eq_iff (i : Instr) (w : Word) :
    encode i = w ↔ opcodeField w = i.opcode ∧ argField w = i.arg := by
  constructor
  · rintro rfl; exact ⟨opcode_encode i, arg_encode i⟩
  · rintro ⟨h1, h2⟩
    apply BitVec.eq_of_toNat_eq
    rw [toNat_encode, ← h1, ← h2, toNat_opcode, toNat_arg]; omega

theorem decodeZ_iff (i j : Instr) (a : BitVec 24) :
    decodeZ i a = .ok j ↔ a = 0#24 ∧ j = i := by
  unfold decodeZ
  by_cases h : a = 0#24
  · rw [if_pos h]; simp [h, eq_comm]
  · rw [if_neg h]; simp [h]

theorem decodeBit_iff (z o j : Instr) (a : BitVec 24) :
    decodeBit z o a = .ok j ↔ (a = 0#24 ∧ j = z) ∨ (a = 1#24 ∧ j = o) := by
  have h : a.extractLsb' 1 23 = 0#23 ↔ a = 0#24 ∨ a = 1#24 := by
    simp only [← BitVec.toNat_inj, BitVec.extractLsb'_toNat, Nat.shiftRight_eq_div_pow]
    simp; omega
  unfold decodeBit
  split
  · rename_i ha
    rcases h.mp ha with rfl | rfl <;> simp [eq_comm]
  · rename_i ha
    rw [h] at ha
    simp; tauto

theorem decodeB_iff (j : Instr) (a : BitVec 24) :
    decodeB a = .ok j ↔ ∃ n, bitCountLegal n = true ∧ a = n.setWidth 24 ∧ j = .rdbits n := by
  have h : a.extractLsb' 5 19 = 0#19 ↔ a = (a.extractLsb' 0 5).setWidth 24 := by
    simp only [← BitVec.toNat_inj, BitVec.extractLsb'_toNat, BitVec.toNat_setWidth,
      Nat.shiftRight_eq_div_pow]
    simp; omega
  have h2 : ∀ n : BitVec 5, (n.setWidth 24).extractLsb' 0 5 = n := by
    intro n
    apply BitVec.eq_of_toNat_eq
    simp [BitVec.extractLsb'_toNat]; omega
  unfold decodeB
  split
  · rename_i ha
    split
    · rename_i hn
      constructor
      · intro hj; cases hj; exact ⟨_, hn, h.mp ha, rfl⟩
      · rintro ⟨n, h3, rfl, rfl⟩; rw [h2]
    · rename_i hn
      constructor
      · intro hj; cases hj
      · rintro ⟨n, h3, rfl, rfl⟩; rw [h2] at hn; exact absurd h3 hn
  · rename_i ha
    constructor
    · intro hj; cases hj
    · rintro ⟨n, h3, rfl, rfl⟩
      rw [h, h2] at ha; exact absurd rfl ha

end Sys2Proof
end

