-- ==== Sys2Proof/Laws/Results.lean ====
section
/-! SUPPORT. What the byte-order commands, SWAP16 and PD_STEP give once their checks have passed or one of
them has failed: the shared operations behind several commands, each said once. -/

namespace Sys2Proof.Machine

open Sys2Proof.Safety

/-! ## The bitstream -/

theorem asWord_toNat (w : Word) : asWord w.toNat = w := by simp [asWord]

/-! ## The byte-order mux -/

theorem unpack_ok {i : Instr} {n : Nat} {v : List Byte → Word} {s : State} {bs : List Byte}
    (ha : s.opa.toNat + n ≤ Config.bufBytes) (hl : bs.length = n) (h : BytesAt s.buf s.opa.toNat bs) :
    unpack i n v s = .next { succeeded s with res := v bs } := by
  have hb : loadBytes s s.opa n = .ok bs := by
    rw [loadBytes_eq, if_pos ha]; exact readCells_of_bytesAt hl h
  simp only [unpack, hb]; rfl

theorem unpack_addr {i : Instr} {n : Nat} {v : List Byte → Word} {s : State}
    (ha : Config.bufBytes < s.opa.toNat + n) :
    unpack i n v s = .next (afterFatalError i.opcode 0x13#8 s.opa s) := by
  have hb : loadBytes s s.opa n = .error (.raise .addr s.opa) := by
    rw [loadBytes_eq, if_neg (by omega)]
  rw [unpack, runAtomic_raise (e := .addr) (ptr := s.opa) (by simp [bind, Except.bind, hb]),
    recordError_of_fatal rfl]; rfl

theorem pack_addr {i : Instr} {n : Nat} {f : Bool} {s : State}
    (ha : Config.bufBytes < s.opa.toNat + n) :
    pack i n f s = .next (afterFatalError i.opcode 0x13#8 s.opa s) := by
  rw [pack, runAtomic_raise (e := .addr) (ptr := s.opa)
    (by simp [bind, Except.bind, checkInbuf_raise ha]), recordError_of_fatal rfl]; rfl

theorem pack_range {i : Instr} {n : Nat} {f : Bool} {s : State}
    (ha : s.opa.toNat + n ≤ Config.bufBytes) (hf : f = false) :
    pack i n f s = .next (afterFatalError i.opcode 0x15#8 s.opb s) := by
  rw [pack, runAtomic_raise (e := .packRange) (ptr := s.opb)
    (by simp [bind, Except.bind, checkInbuf_ok ha, hf]; rfl), recordError_of_fatal rfl]; rfl

theorem pack_ok {i : Instr} {n : Nat} {f : Bool} {s : State}
    (ha : s.opa.toNat + n ≤ Config.bufBytes) (hf : f = true) :
    pack i n f s
      = .next { succeeded s with buf := s.buf.writeList s.opa.toNat (beBytes s.opb.toNat n) } := by
  rw [pack, runAtomic_ok (by simp [bind, Except.bind, checkInbuf_ok ha, hf]; rfl)]; rfl

/-- A pack command that completes has passed both checks. -/
theorem pack_succeeded {i : Instr} {n : Nat} {f : Bool} {s t : State} (h : pack i n f s = .next t)
    (hl : t.status.lastOk = true) : s.opa.toNat + n ≤ Config.bufBytes ∧ f = true
      ∧ t = { succeeded s with buf := s.buf.writeList s.opa.toNat (beBytes s.opb.toNat n) } := by
  by_cases ha : s.opa.toNat + n ≤ Config.bufBytes
  · cases f with
    | true => rw [pack_ok ha rfl] at h; cases h; exact ⟨ha, rfl, rfl⟩
    | false => rw [pack_range ha rfl] at h; cases h; cases hl
  · rw [pack_addr (by omega)] at h; cases h; cases hl

theorem beBytes_word_two (v : Word) :
    beBytes v.toNat 2 = [v.extractLsb' 8 8, v.extractLsb' 0 8] := by
  simp only [beBytes, leBytes, List.reverse_cons, List.reverse_nil, List.nil_append,
    List.cons_append, List.cons.injEq, and_true]
  refine ⟨?_, ?_⟩ <;> apply BitVec.eq_of_toNat_eq <;>
    simp [BitVec.extractLsb'_toNat, Nat.shiftRight_eq_div_pow]

theorem beBytes_word_three (v : Word) :
    beBytes v.toNat 3 = [v.extractLsb' 16 8, v.extractLsb' 8 8, v.extractLsb' 0 8] := by
  simp only [beBytes, leBytes, List.reverse_cons, List.reverse_nil, List.nil_append,
    List.cons_append, List.cons.injEq, and_true]
  refine ⟨?_, ?_, ?_⟩ <;> apply BitVec.eq_of_toNat_eq <;>
    simp [BitVec.extractLsb'_toNat, Nat.shiftRight_eq_div_pow, Nat.div_div_eq_div_mul]

theorem fitsSigned_iff (w : Nat) (v : Word) : fitsSigned w v = true
    ↔ -(2 : Int) ^ (w - 1) ≤ v.toInt ∧ v.toInt ≤ (2 : Int) ^ (w - 1) - 1 := by
  unfold fitsSigned s32; rw [Bool.and_eq_true, decide_eq_true_iff, decide_eq_true_iff]

/-! ## SWAP16 -/

theorem getElem?_swapPairs (bs : List Byte) (he : bs.length % 2 = 0) (k : Nat)
    (h : 2 * k + 1 < bs.length) :
    (swapPairs bs)[2 * k]? = bs[2 * k + 1]? ∧ (swapPairs bs)[2 * k + 1]? = bs[2 * k]? := by
  induction bs using swapPairs.induct generalizing k with
  | case1 x y bs ih =>
    rw [swapPairs]
    cases k with
    | zero => simp
    | succ k =>
      have := ih (by simp at he; omega) k (by simp at h; omega)
      simp only [Nat.mul_add, Nat.mul_one]
      simpa using this
  | case2 bs hb =>
    match bs, hb with
    | [], _ => simp at h
    | [a], _ => simp at he
    | a :: b :: c, hb => exact absurd rfl (hb a b c)

theorem swapPairs_swapPairs (bs : List Byte) : swapPairs (swapPairs bs) = bs := by
  induction bs using swapPairs.induct with
  | case1 x y bs ih => simp [swapPairs, ih]
  | case2 bs hb => rw [swapPairs.eq_2 bs hb, swapPairs.eq_2 bs hb]

theorem execSwap16_ok {s : State} {bs : List Byte} (ha : s.opa.toNat + s.opb.toNat ≤ Config.bufBytes)
    (he : s.opb.toNat % 2 = 0) (hl : bs.length = s.opb.toNat) (hb : BytesAt s.buf s.opa.toNat bs) :
    execSwap16 s
      = .next { succeeded s with buf := s.buf.writeList s.opa.toNat (swapPairs bs) } := by
  have hr : bufBytes s s.opa.toNat s.opb.toNat = .ok bs := readCells_of_bytesAt hl hb
  rw [execSwap16, runAtomic_ok (t := { s with buf := s.buf.writeList s.opa.toNat (swapPairs bs) })]
  · rfl
  · simp [bind, Except.bind, checkInbuf_ok ha, he, hr]; rfl

/-! ## PD_STEP by kind of packet -/

theorem execPdStep_fatal {s : State} {e : ErrCode} {ptr : Word} (hf : e.fatal = true)
    (h : pdPreconditions s = .error (.raise e ptr)) :
    execPdStep s = .next (afterFatalError 0x31#8 e.code ptr s) := by
  simp only [execPdStep, h]
  exact congrArg _ (recordError_of_fatal hf _ _ _)

theorem pdPreconditions_of_header {s : State} (hc : PdConfigOk s) (hm : HeaderMarked s) :
    pdPreconditions s = (do pdHeaderChecks s; return true) := by
  have hm' : s.pdMark.toNat < Config.bufBytes := hm.1
  simp only [pdPreconditions, pdCfgCheck_ok_iff.mpr hc,
    checkInbuf_ok (a := s.pdMark) (n := 1) (by omega), isHeader_of_marked hm, bind, Except.bind,
    if_true]

theorem pdPreconditions_of_continuation {s : State} (hc : PdConfigOk s) (hm : ContinuationMarked s) :
    pdPreconditions s
      = if s.pdstate.inChain then (do bsCheck s; return false) else return false := by
  have hm' : s.pdMark.toNat < Config.bufBytes := hm.1
  simp only [pdPreconditions, pdCfgCheck_ok_iff.mpr hc,
    checkInbuf_ok (a := s.pdMark) (n := 1) (by omega), isHeader_of_continuation hm, bind, Except.bind]
  rfl

theorem innerTagOk_of_accepted {s : State} (h : TagAccepted s) :
    innerTagOk s = .ok true ∧ (s.ctrl.inner = true → s.pdTag.toNat < Config.bufBytes) := by
  rcases h with h | ⟨side, ⟨h1, h2⟩, h3⟩
  · exact ⟨innerTagOk_outer h, by simp [h]⟩
  · by_cases hi : s.ctrl.inner = true
    · exact ⟨by rw [innerTagOk_inner hi h2, h3]; simp, fun _ => h1⟩
    · exact ⟨innerTagOk_outer (by simpa using hi), fun h => absurd h hi⟩

theorem pdHeaderChecks_eq {s : State} {b : Bool}
    (ht : s.ctrl.inner = true → s.pdTag.toNat < Config.bufBytes) (hb : innerTagOk s = .ok b) :
    pdHeaderChecks s = if (b && s.pdVlen.toNat == slotCount s) = true
      then checkInbuf s.pdVals (slotCount s) else .ok () := by
  unfold pdHeaderChecks
  by_cases hi : s.ctrl.inner = true
  · have := ht hi
    rw [if_pos hi, checkInbuf_ok (a := s.pdTag) (n := 1) (by omega), hb]; rfl
  · rw [if_neg hi, hb]; rfl

/-- A header whose addresses are in the buffer is judged and loaded by `pdHeader`. -/
theorem execPdStep_header {s : State} {b : Bool} (hc : PdConfigOk s) (hm : HeaderMarked s)
    (ht : s.ctrl.inner = true → s.pdTag.toNat < Config.bufBytes) (hb : innerTagOk s = .ok b)
    (hv : b = true → s.pdVlen.toNat = slotCount s →
      s.pdVals.toNat + slotCount s ≤ Config.bufBytes) :
    execPdStep s = finish 0x31#8 (pdHeader (setPdFlags false true s)) := by
  have hp : pdPreconditions s = .ok true := by
    rw [pdPreconditions_of_header hc hm, pdHeaderChecks_eq ht hb]
    split
    · rename_i h; simp at h; rw [checkInbuf_ok (hv h.1 h.2)]; rfl
    · rfl
  simp only [execPdStep, hp]; rfl

/-- A continuation inside a chain ends as its integration does. -/
theorem execPdStep_continuation {s : State} {old : List Byte} (hc : PdConfigOk s)
    (hm : ContinuationMarked s) (hi : s.pdstate.inChain = true) (hs : StreamOk s)
    (hl : old.length = slotCount s) (hb : BytesAt s.acc 0 old) :
    execPdStep s = finish 0x31#8 (match pdIntegrate s old s.bitptr.toNat with
      | .error e => .error (e, seek (setPdFlags false false s))
      | .ok (new, p) => .ok (emitPeriod { setPdFlags false false s with
          acc := s.acc.writeList 0 new
          bitptr := asWord p
          pdstate := advanceChain s.pdstate })) := by
  have hp : pdPreconditions s = .ok false := by
    rw [pdPreconditions_of_continuation hc hm, if_pos hi, bsCheck_ok_iff.mpr hs]; rfl
  have ho : readCells .acc (setPdFlags false false s).acc 0 (slotCount (setPdFlags false false s))
      = .ok old := readCells_of_bytesAt hl hb
  simp only [execPdStep, hp, orAt_ok, bind, Except.bind, pdPacket, Bool.false_eq_true, if_false]
  rw [if_pos (show (setPdFlags false false s).pdstate.inChain = true from hi)]
  simp only [pdContinuation, ho, orAt_ok, bind, Except.bind, pdIntegrate_setPdFlags]
  simp only [setPdFlags_bitptr]
  cases pdIntegrate s old s.bitptr.toNat <;> rfl

end Sys2Proof.Machine
end

