-- ==== Sys2Proof/Laws/Evaluate.lean ====
section
/-! SUPPORT. From what the readers answer on a given state to what the statements say of it: each lemma
turns an evaluation into a fact about memory, the bitstream or the deltas. -/

namespace Sys2Proof.Machine

open Sys2Proof.Safety

theorem bytesAt_of_readCells {sp : Space} {m : Memory} {a n : Nat} {bs : List Byte}
    (h : readCells sp m a n = .ok bs) : BytesAt m a bs := (readCells_ok_iff.mp h).2

theorem bitsAt_of_bits {s : State} {p : Nat} {l : List Bool}
    (h : bits s p l.length = .ok (natOfBits l)) : BitsAt s p l := by
  obtain ⟨m, hm, hb, hv⟩ := bits_ok_iff.mp h
  rwa [natOfBits_inj hm.symm hv]

theorem signAt_of_sign2 {s : State} {p : Nat} {m : SignMode} {g : Sign} (h : sign2 s p m = .ok g)
    (hg : g ≠ .term) : SignAt s p g.toInt := by
  rcases sign2_cases s p m with ⟨-, h2⟩ | ⟨-, k, -, -, h2⟩ | ⟨h1, h2⟩ | ⟨h1, h2⟩ | ⟨-, -, -, h2⟩
    | ⟨-, -, h2⟩ <;> rw [h2] at h <;> cases h
  · exact h1
  · exact h1
  · exact absurd rfl hg

theorem codeFails_of_huf {s : State} {t : Bank} {p : Nat} {e : ErrCode} {ptr : Word}
    (h : huf s t p = .error (.raise e ptr)) (hp : p ≤ s.bitend.toNat) :
    CodeFails s t p e.code := by
  rcases huf_cases s t p with ⟨c, q, -, he⟩ | ⟨m, h1, h2, h3, h4, h5, he⟩ | ⟨m, h1, h2, h3, h5, he⟩
      | ⟨k, -, -, -, he⟩ <;> rw [he] at h <;> cases h
  · refine .inl ⟨rfl, m, h1, h2, ?_, h5⟩
    rcases h3 with rfl | h3
    · simp at h4 ⊢; omega
    · omega
  · exact .inr ⟨rfl, m, h1, h2, by rw [h1] at h3; exact h3, h5⟩

theorem pdDeltas_of_pdIntegrate {s : State} {vs vs' : List Byte} {p q : Nat}
    (h : pdIntegrate s vs p = .ok (vs', q)) : PdDeltas s p vs vs' q := by
  induction vs generalizing p vs' with
  | nil => cases h; exact .done _
  | cons v vs ih =>
    simp only [pdIntegrate, bind_ok] at h
    obtain ⟨g, hg, ⟨d1, L1⟩, h1, ⟨d2, L2⟩, h2, h⟩ := h
    have hn : g ≠ .term := by
      rintro rfl
      rcases sign2_cases s p .strict with ⟨-, h2⟩ | ⟨-, k, -, -, h2⟩ | ⟨-, h2⟩ | ⟨-, h2⟩
        | ⟨-, -, h3, -⟩ | ⟨-, -, h2⟩
      all_goals first | (rw [h2] at hg; cases hg) | cases h3
    simp only at h
    split at h
    · cases h
    · rename_i hr
      simp only [bind_ok] at h
      obtain ⟨⟨rest, r⟩, h3, h⟩ := h
      cases h
      refine .slot (signAt_of_sign2 hg hn) (codeAt_of_huf h1).1 (codeAt_of_huf h2).1 ?_ (ih h3)
      rw [BitVec.toNat_ofInt]
      push_cast at hr ⊢
      rw [mul_comm (16 : Int)]
      omega

theorem magDeltaAt_of_magDelta {s : State} {p q : Nat} {d : Int}
    (h : magDelta s p = .ok (some (d, q))) : MagDeltaAt s p d q := by
  rw [magDelta_eq] at h
  simp only [bind_ok] at h
  obtain ⟨g, hg, h⟩ := h
  split at h
  · cases h
  · simp only [bind_ok] at h
    obtain ⟨⟨h16, L1⟩, h1, ⟨h12, L2⟩, h2, h8, h3, h4, h5, h6⟩ := h
    obtain ⟨h31, l, h32, h33, rfl⟩ := raw_ok_iff.mp h3
    obtain ⟨h51, m, h52, h53, rfl⟩ := raw_ok_iff.mp h5
    cases h6
    refine ⟨g.toInt, h16, h12, _, _, l, m, signAt_of_sign2 hg ‹_›, (codeAt_of_huf h1).1,
      (codeAt_of_huf h2).1, h32, h52, h33, h53, rfl, h51, ?_⟩
    rw [magnitude_eq]; push_cast; rfl

end Sys2Proof.Machine
end

