-- ==== Sys2Proof/Laws/PerInstr.lean ====
section
/-! SUPPORT. What the word of each command is, command by command: the families of LAWS.json. -/

namespace Sys2Proof.Laws.EncodedOpcode

open Sys2Proof

/-- The word of a command carries its opcode byte on top and its argument below (30_encoding.md R81), and
a well-formed command uses at most the low 5 bits of the argument (R82). -/
def Statement (i : Instr) : Prop :=
  opcodeField (encode i) = i.opcode ∧ argField (encode i) = i.arg ∧ (i.wf = true → i.arg.toNat ≤ 16)

theorem statement_of_arg {i : Instr} (h : i.wf = true → i.arg.toNat ≤ 16) : Statement i :=
  ⟨opcode_encode i, arg_encode i, h⟩

theorem rdbits (n : BitVec 5) : Statement (.rdbits n) :=
  statement_of_arg fun h => by
    simp [Instr.wf, bitCountLegal] at h
    simp [Instr.arg]; omega

theorem rdhuf (t : Bank) : Statement (.rdhuf t) := statement_of_arg fun _ => by cases t <;> decide

theorem rdsign (m : SignMode) : Statement (.rdsign m) := statement_of_arg fun _ => by cases m <;> decide

theorem ldu16b : Statement .ldu16b := statement_of_arg fun _ => by decide

theorem lds16b : Statement .lds16b := statement_of_arg fun _ => by decide

theorem ldu24b : Statement .ldu24b := statement_of_arg fun _ => by decide

theorem lds24b : Statement .lds24b := statement_of_arg fun _ => by decide

theorem ldu16l : Statement .ldu16l := statement_of_arg fun _ => by decide

theorem stu16b : Statement .stu16b := statement_of_arg fun _ => by decide

theorem sts16b : Statement .sts16b := statement_of_arg fun _ => by decide

theorem stu24b : Statement .stu24b := statement_of_arg fun _ => by decide

theorem sts24b : Statement .sts24b := statement_of_arg fun _ => by decide

theorem swap16 : Statement .swap16 := statement_of_arg fun _ => by decide

theorem crchdr : Statement .crchdr := statement_of_arg fun _ => by decide

theorem pdInit : Statement .pdInit := statement_of_arg fun _ => by decide

theorem pdStep : Statement .pdStep := statement_of_arg fun _ => by decide

theorem pdGap : Statement .pdGap := statement_of_arg fun _ => by decide

theorem magPkt : Statement .magPkt := statement_of_arg fun _ => by decide

end Sys2Proof.Laws.EncodedOpcode
end

