-- ==== Sys2Proof/Tests/Slice0.lean ====
section
/-! SUPPORT. The row's own tests: ill-formed terms, decoding from written words, the spec's test vectors
(95_test_vectors.md), and for every statement with hypotheses a state that meets them. -/

namespace Sys2Proof.Tests

open Sys2Proof Sys2Proof.Machine Sys2Proof.Safety

/-! ## Small states -/

/-- Reset, with CRCCFG written as every vector of 95_test_vectors.md that needs it does. -/
def base : State :=
  { State.reset with
    crccfg := { poly := 0x07#8, init := 0#8, xorout := 0#8, refin := false, refout := false } }

/-- The given host accesses are still to come. -/
def queued (events : List BusEvent) : State := { base with hostQueue := events }

/-- BUF with the given bytes from an address. -/
def bytesFrom (a : Nat) (bs : List Byte) : Memory := Memory.writeList [] a bs

/-- A bitstream of the given bytes at BUF[0..]. -/
def stream (bs : List Byte) (p e : Nat) : State :=
  { base with buf := bytesFrom 0 bs, bitptr := asWord p, bitend := asWord e }

/-- The words of table TV (95_test_vectors.md section 2). -/
def tvWords : List Word :=
  [0x82000000#32, 0x82001001#32, 0x83004002#32, 0x83005003#32, 0x8400C004#32, 0x8400D005#32,
    0x8501C006#32, 0x8501D007#32, 0x8603C008#32, 0x8603D009#32, 0x8707C00A#32, 0x8707D00B#32,
    0x880FC00C#32, 0x880FD00D#32, 0x891FC00E#32, 0x891FD00F#32]

def tv : HuffBank :=
  ⟨(tvWords.map HuffEntry.ofWord ++ List.replicate 240 HuffEntry.empty).toArray, by decide +kernel⟩

/-- A bank of two keys: "0" with code 0 and "1" with code 255. -/
def twoKeys : HuffBank :=
  ((Vector.replicate 256 HuffEntry.empty).set 0
    { valid := true, len := 1#4, pat := 0#12, code := 0x00#8 }).set 1
    { valid := true, len := 1#4, pat := 1#12, code := 0xFF#8 }

/-- What is seen of the state after one step. -/
def stepView {α : Type} (s : State) (view : State → α) : Option α :=
  match step s with
  | .next t => some (view t)
  | .fault _ => none
  | .refused _ => none

/-- What is seen of the state after a command word is issued. -/
def after {α : Type} (w : Word) (s : State) (view : State → α) : Option α :=
  stepView { s with hostQueue := [issueEvent w] } view

/-- Whether a command answers a next state with the given property. -/
def answers (o : Host.Outcome State Fault Refusal) (p : State → Bool) : Bool :=
  match o with
  | .next t => p t
  | .fault _ => false
  | .refused _ => false

theorem next_of_answers {o : Host.Outcome State Fault Refusal} {p : State → Bool}
    (h : answers o p = true) : ∃ t, o = .next t ∧ p t = true := by
  cases o with
  | next t => exact ⟨t, rfl, h⟩
  | fault f => cases h
  | refused r => cases h

/-- RES, RES2, BITPTR, STATUS, ERRINFO and ERRPTR. -/
def regs (s : State) : List Word :=
  [s.res, s.res2, s.bitptr, s.status.toWord, s.errinfo.toWord, s.errptr]

/-! ## Ill-formed terms -/

theorem test_wf_refuses_zero_bits : (Instr.rdbits 0#5).wf = false := by decide

theorem test_wf_refuses_seventeen_bits : (Instr.rdbits 17#5).wf = false := by decide

/-! ## Decoding (words written out from 30_encoding.md R83) -/

theorem test_decode_rdbits : decode 0b00000001000000000000000000010000#32 = .ok (.rdbits 16#5) := by
  decide
theorem test_decode_rdhuf : decode 0b00000010000000000000000000000001#32 = .ok (.rdhuf .mag) := by
  decide
theorem test_decode_rdsign : decode 0b00000011000000000000000000000000#32 = .ok (.rdsign .strict) := by
  decide
theorem test_decode_ldu16b : decode 0b00010000000000000000000000000000#32 = .ok .ldu16b := by decide
theorem test_decode_lds16b : decode 0b00010001000000000000000000000000#32 = .ok .lds16b := by decide
theorem test_decode_ldu24b : decode 0b00010010000000000000000000000000#32 = .ok .ldu24b := by decide
theorem test_decode_lds24b : decode 0b00010011000000000000000000000000#32 = .ok .lds24b := by decide
theorem test_decode_ldu16l : decode 0b00010100000000000000000000000000#32 = .ok .ldu16l := by decide
theorem test_decode_stu16b : decode 0b00011000000000000000000000000000#32 = .ok .stu16b := by decide
theorem test_decode_sts16b : decode 0b00011001000000000000000000000000#32 = .ok .sts16b := by decide
theorem test_decode_stu24b : decode 0b00011010000000000000000000000000#32 = .ok .stu24b := by decide
theorem test_decode_sts24b : decode 0b00011011000000000000000000000000#32 = .ok .sts24b := by decide
theorem test_decode_swap16 : decode 0b00100000000000000000000000000000#32 = .ok .swap16 := by decide
theorem test_decode_crchdr : decode 0b00101000000000000000000000000000#32 = .ok .crchdr := by decide
theorem test_decode_pdInit : decode 0b00110000000000000000000000000000#32 = .ok .pdInit := by decide
theorem test_decode_pdStep : decode 0b00110001000000000000000000000000#32 = .ok .pdStep := by decide
theorem test_decode_pdGap : decode 0b00110010000000000000000000000000#32 = .ok .pdGap := by decide
theorem test_decode_magPkt : decode 0b00111000000000000000000000000000#32 = .ok .magPkt := by decide

/-- The table word of the host and the bus event of a command agree. -/
theorem test_decodeTableWord : decodeTableWord 32 0x01000010 = some (.rdbits 16#5) := by decide

/-! ## Host accesses of BUF (20_memory.md R62, R65) -/

/-- A 2-byte write puts its bits [7:0] at the lower address. -/
theorem test_buf_write_two_bytes :
    stepView (queued [.write 0x10006#18 (.b2 0x1234#16)]) (fun t => (t.buf.read 6, t.buf.read 7))
      = some (some 0x34#8, some 0x12#8) := by decide +kernel

/-- A 2-byte read takes the byte at the lower address into bits [7:0]. -/
theorem test_buf_read_two_bytes :
    stepView { queued [.read 0x10006#18 .b2] with buf := bytesFrom 6 [0x34#8, 0x12#8] } State.readData
      = some (some (.b2 0x1234#16)) := by decide +kernel

/-! ## Vectors of 95_test_vectors.md section 3, by row -/

/-- 3.1 e: across bytes. -/
theorem test_rdbits_spans :
    after 0x01000008#32 (stream [0x0F#8, 0xF0#8] 4 16) regs
      = some [0xFF#32, 8#32, 12#32, 0x04#32, 0#32, 0#32] := by decide +kernel

/-- 3.1 h: n = 17 is ILLEGAL. -/
theorem test_rdbits_illegal :
    after 0x01000011#32 base regs
      = some [0#32, 0#32, 0#32, 0x02#32, 0x0110#32, 0x01000011#32] := by decide +kernel

/-- 1.1: the longest key and trailing bits. -/
theorem test_rdhuf_longest :
    after 0x02000000#32 { stream [0xFE#8, 0xD8#8] 0 13 with ht0 := tv } regs
      = some [15#32, 9#32, 9#32, 0x04#32, 0#32, 0#32] := by decide +kernel

/-- 3.2 b4: an empty bank 1. -/
theorem test_rdhuf_empty_bank :
    after 0x02000001#32 (stream [0#8, 0#8] 0 16) regs
      = some [0#32, 0#32, 0#32, 0x01#32, 0x0202#32, 0#32] := by decide +kernel

/-- 3.3 c: -1 across bytes. -/
theorem test_rdsign_minus :
    after 0x03000000#32 (stream [0x00#8, 0x80#8] 7 16) regs
      = some [0xFFFFFFFF#32, 2#32, 9#32, 0x04#32, 0#32, 0#32] := by decide +kernel

/-- 1.2: the terminator is not consumed. -/
theorem test_rdsign_terminator :
    after 0x03000001#32 (stream [0xC0#8] 0 8) regs
      = some [0#32, 0#32, 0#32, 0x84#32, 0#32, 0#32] := by decide +kernel

/-- A state with bytes at BUF[a..] and OPA = a. -/
def atOpa (a : Nat) (bs : List Byte) : State :=
  { base with buf := bytesFrom a bs, opa := asWord a }

/-- 3.4 a15: the last legal address. -/
theorem test_ldu16b_last :
    after 0x10000000#32 (atOpa 32766 [0x01#8, 0x02#8]) State.res = some 0x102#32 := by decide +kernel

/-- 3.4 a3. -/
theorem test_lds16b_min :
    after 0x11000000#32 (atOpa 0 [0x80#8, 0x00#8]) State.res = some 0xFFFF8000#32 := by decide +kernel

/-- 3.4 a7. -/
theorem test_ldu24b :
    after 0x12000000#32 (atOpa 0 [0x80#8, 0x00#8, 0x01#8]) State.res = some 0x00800001#32 := by
  decide +kernel

/-- 3.4 a12. -/
theorem test_lds24b :
    after 0x13000000#32 (atOpa 0 [0x80#8, 0x00#8, 0x01#8]) State.res = some 0xFF800001#32 := by
  decide +kernel

/-- 3.4 a13. -/
theorem test_ldu16l :
    after 0x14000000#32 (atOpa 0 [0x12#8, 0x34#8]) State.res = some 0x3412#32 := by decide +kernel

/-- 3.4 b1. -/
theorem test_stu16b :
    after 0x18000000#32 { base with opb := 0x1234#32 } State.buf
      = some [(0, 0x12#8), (1, 0x34#8)] := by decide +kernel

/-- 3.4 b18: the address is checked before the range. -/
theorem test_stu16b_order :
    after 0x18000000#32 { base with opa := 32767#32, opb := 0x10000#32 } regs
      = some [0#32, 0#32, 0#32, 0x02#32, 0x1813#32, 0x7FFF#32] := by decide +kernel

/-- 3.4 b4. -/
theorem test_sts16b_min :
    after 0x19000000#32 { base with opb := 0xFFFF8000#32 } State.buf
      = some [(0, 0x80#8), (1, 0x00#8)] := by decide +kernel

/-- 3.4 b8. -/
theorem test_sts16b_below :
    after 0x19000000#32 { base with opb := 0xFFFF7FFF#32 } regs
      = some [0#32, 0#32, 0#32, 0x02#32, 0x1915#32, 0xFFFF7FFF#32] := by decide +kernel

/-- 3.4 b10. -/
theorem test_stu24b :
    after 0x1A000000#32 { base with opb := 0x00ABCDEF#32 } State.buf
      = some [(0, 0xAB#8), (1, 0xCD#8), (2, 0xEF#8)] := by decide +kernel

/-- 3.4 b17. -/
theorem test_sts24b :
    after 0x1B000000#32 { base with opb := 0xFFFFFFF0#32 } State.buf
      = some [(0, 0xFF#8), (1, 0xFF#8), (2, 0xF0#8)] := by decide +kernel

/-- 3.4 c4: pairs are counted from OPA, odd or even. -/
theorem test_swap16_odd_start :
    after 0x20000000#32
        { base with buf := bytesFrom 0 [1#8, 2#8, 3#8, 4#8], opa := 1#32, opb := 2#32 } State.buf
      = some [(0, 1#8), (1, 3#8), (2, 2#8), (3, 4#8)] := by decide +kernel

/-- 3.4 c3: ODD_LEN. -/
theorem test_swap16_odd_length :
    after 0x20000000#32
        { base with buf := bytesFrom 0 [1#8, 2#8, 3#8, 4#8], opb := 3#32 } regs
      = some [0#32, 0#32, 0#32, 0x02#32, 0x2014#32, 3#32] := by decide +kernel

/-- 3.5 c: odd length field, CRC agrees. -/
theorem test_crchdr_odd :
    after 0x28000000#32 (atOpa 0 [0x00#8, 0x45#8, 0x00#8, 0x01#8, 0x02#8, 0x03#8, 0x04#8, 0x05#8,
        0x06#8, 0x07#8, 0x08#8, 0x09#8, 0x33#8]) (fun t => (t.res, t.res2, t.status.toWord))
      = some (0x33#32, 22#32, 0x1C#32) := by decide +kernel

/-- 3.5 d: the length field 0. -/
theorem test_crchdr_zero_length :
    after 0x28000000#32 (atOpa 0 [0x00#8, 0x00#8, 0x00#8, 0x01#8, 0x02#8, 0x03#8, 0x04#8, 0x05#8,
        0x06#8, 0x07#8, 0x08#8, 0x09#8, 0x85#8]) (fun t => (t.res, t.res2, t.status.toWord))
      = some (0x85#32, 0xFFFFFFF4#32, 0x0C#32) := by decide +kernel

/-! ### PD (3.7) -/

def ctrl4 : Ctrl :=
  { sect := 4#5, inner := false, taghi := false, subtag := 0#4, mshift := false, ltidx := 0#8 }

/-- The header of the common setup of 3.7: its marker, 64 values, the registers. -/
def pdHeaderState (ctrl : Ctrl) (marker : Byte) (value : Byte) : State :=
  { base with
    ctrl := ctrl, ht0 := tv, pdVals := 1#32, pdVlen := 64#32
    buf := bytesFrom 0 (marker :: List.replicate 64 value) }

/-- A continuation with the given slots and stream at BUF[0x100..], inside a chain. -/
def pdContState (slots : List Byte) (bs : List Byte) (bitCount : Nat) : State :=
  { base with
    ctrl := ctrl4, ht0 := tv, pdMark := 0x80#32, bitptr := 0x800#32
    bitend := asWord (0x800 + bitCount), pdstate := { inChain := true, ccount := 0#4 }
    pcount := 1#32, acc := bytesFrom 0 slots
    buf := (bytesFrom 0x100 bs).write 0x80 0x00#8 }

def pdView (t : State) : List Word :=
  [t.status.toWord, t.pdstate.toWord, t.pcount, t.bitptr, t.errinfo.toWord, t.errptr]

/-- PD_INIT clears the chain and the count (3.7, before row a). -/
theorem test_pdInit :
    after 0x30000000#32 (pdContState [] [] 0) pdView
      = some [0x04#32, 0#32, 0#32, 0x800#32, 0#32, 0#32] := by decide +kernel

/-- 3.7 ag: PD_GAP keeps the count. -/
theorem test_pdGap :
    after 0x32000000#32 (pdContState [] [] 0) pdView
      = some [0x04#32, 0#32, 1#32, 0x800#32, 0#32, 0#32] := by decide +kernel

/-- 3.7 y: a header with the last legal lossy index. -/
theorem test_pdStep_header :
    after 0x31000000#32 (pdHeaderState { ctrl4 with ltidx := 0x55#8 } 0xFF#8 10#8)
        (fun t => (pdView t, t.acc.read 63, t.acc.read 64))
      = some ([0x64#32, 0x01#32, 1#32, 0#32, 0#32, 0#32], some 10#8, none) := by decide +kernel

/-- By hand from R157 and R158, with the bank `twoKeys`: 4 bits a slot, and the sixth slot's delta of
+(16 · 0 + 255) takes it from 0 to 255. -/
theorem test_pdStep_continuation :
    after 0x31000000#32
        { pdContState (List.replicate 5 10#8 ++ 0#8 :: List.replicate 58 10#8)
            (0#8 :: 0#8 :: 0x01#8 :: List.replicate 29 0#8) 256 with ht0 := twoKeys }
        (fun t => (pdView t, t.acc.read 5, t.acc.read 6))
      = some ([0x24#32, 0x11#32, 2#32, 0x900#32, 0#32, 0#32], some 255#8, some 10#8) := by
  decide +kernel

/-! ### MAG (3.8) -/

/-- The common setup of 3.8 with the stream at BUF[0x100..]. -/
def magStateOf (mshift : Bool) (bank : HuffBank) (header bs : List Byte) (bitCount : Nat) : State :=
  { base with
    ctrl := { State.reset.ctrl with mshift := mshift }, ht1 := bank
    bitptr := 0x800#32, bitend := asWord (0x800 + bitCount)
    buf := (bytesFrom 0x100 bs).writeList 0 header }

def triple : List Byte := [0x00#8, 0x00#8, 0x64#8, 0xFF#8, 0xFF#8, 0x9C#8, 0x00#8, 0x00#8, 0x00#8]

def exStream : List Byte := [0x04#8, 0x8D#8, 0x00#8, 0x11#8, 0x00#8, 0x30#8]

def magView (t : State) : List Word :=
  [t.status.toWord, t.bitptr, t.owptr, t.rowcnt, t.maccX, t.maccY, t.maccZ, t.errinfo.toWord, t.errptr]

/-- 3.8 b: MSHIFT 1, ended by the terminator. -/
theorem test_magPkt_shifted :
    after 0x38000000#32 (magStateOf true tv triple exStream 48) magView
      = some [0x84#32, 0x82A#32, 6#32, 2#32, 9412#32, BitVec.ofInt 32 (-132), 131072#32, 0#32, 0#32] := by
  decide +kernel

/-- 3.8 p: no room for the second row. -/
theorem test_magPkt_full :
    after 0x38000000#32 { magStateOf false tv triple exStream 48 with owptr := 32765#32 } magView
      = some [0x02#32, 0x800#32, 32768#32, 1#32, 4756#32, BitVec.ofInt 32 (-116), 65536#32,
          0x3816#32, 0x8000#32] := by decide +kernel

/-! ## Witnesses: for each statement with hypotheses, a state and operands that meet them -/

/-! ### Encoding and steps -/

theorem witness_DecodeEncodeAgree :
    (Instr.rdbits 16#5).wf = true ∧ encode (.rdbits 16#5) = 0x01000010#32
      ∧ encode (.rdsign .terminator) = 0x03000001#32 := by decide

theorem witness_OpcodeMatchMask :
    (0x01000001#32 &&& 0xFFFFFFE0#32 = 0x01000000#32 ∧ 0x01000010#32 &&& 0xFFFFFFE0#32 = 0x01000000#32
      ∧ ((0x01000001#32).extractLsb' 0 5).toNat = 1 ∧ ((0x01000010#32).extractLsb' 0 5).toNat = 16)
    ∧ 0x02000001#32 &&& 0xFFFFFFFE#32 = 0x02000000#32
    ∧ 0x03000001#32 &&& 0xFFFFFFFE#32 = 0x03000000#32 := by decide

theorem witness_IllegalWordsRecorded :
    (queued [issueEvent 0x01000011#32]).hostQueue = issueEvent 0x01000011#32 :: []
      ∧ (queued [issueEvent 0x01000011#32]).status.fatal = false ∧ ¬ LegalWord 0x01000011#32
      ∧ ¬ LegalWord 0x02000002#32 ∧ LegalWord 0x01000010#32 := by
  unfold LegalWord; exact ⟨rfl, rfl, by decide, by decide, by decide⟩

theorem witness_StepRunsDecodedCommand :
    (queued [issueEvent 0x30000000#32]).hostQueue = .write 0x0000C#18 (.b4 0x30000000#32) :: []
      ∧ (queued [issueEvent 0x30000000#32]).status.fatal = false
      ∧ decode 0x30000000#32 = .ok .pdInit := ⟨rfl, rfl, by decide⟩

theorem witness_IdleStepChangesNothing : base.hostQueue = [] := rfl

/-- The block after a fatal error, with the given host accesses to come. -/
def fatal (events : List BusEvent) : State :=
  { queued events with status := { base.status with fatal := true } }

theorem witness_FatalGate :
    ((fatal [issueEvent 0#32]).status.fatal = true
      ∧ (fatal [issueEvent 0#32]).hostQueue = .write 0x0000C#18 (.b4 0#32) :: [])
    ∧ ((fatal [.write 0x00008#18 (.b4 2#32), issueEvent 0x30000000#32]).hostQueue
        = .write 0x00008#18 (.b4 2#32) :: .write 0x0000C#18 (.b4 0x30000000#32) :: []
      ∧ (2#32).getLsbD 1 = true ∧ (2#32).getLsbD 0 = false ∧ decode 0x30000000#32 = .ok .pdInit) :=
  ⟨⟨rfl, rfl⟩, rfl, by decide, by decide, by decide⟩

theorem witness_ResetValues :
    (queued [.reset, .read 0#18 .b4]).hostQueue = .reset :: [.read 0#18 .b4] ∧ Csr.ctrl ≠ .crccfg :=
  ⟨rfl, by decide⟩

/-- Any host access can be next, so a write at each address of the statement. -/
theorem witness_RegisterWritesOnlyStore (e : BusEvent) : (queued [e]).hostQueue = e :: [] := rfl

theorem witness_StatusWriteClears :
    (queued [.write 0x00008#18 (.b4 3#32)]).hostQueue = .write 0x00008#18 (.b4 3#32) :: [] := rfl

theorem witness_RegisterReadsAnswer :
    (queued [.read 0x00064#18 .b4]).hostQueue = .read 0x00064#18 .b4 :: []
      ∧ (queued [.read 0x017FC#18 .b4]).hostQueue
        = .read (BitVec.ofNat 18 (0x1400 + 4 * (255 : Fin 256).val)) .b4 :: [] := ⟨rfl, rfl⟩

theorem witness_RegisterWritesReadBack :
    ((0x00004#18, 0x00FF1F7F#32) : HostAddr × Word) ∈ [(0x00004#18, 0x00FF1F7F#32)]
      ∧ (queued [.write 0x00004#18 (.b4 0xFFFFFFFF#32), .read 0x00004#18 .b4]).hostQueue
        = .write 0x00004#18 (.b4 0xFFFFFFFF#32) :: .read 0x00004#18 .b4 :: [] := by
  exact ⟨by decide, rfl⟩

/-- A write that changes SECT, and one that changes MSHIFT only. -/
theorem witness_CtrlWriteAbandonsChain :
    ((queued [.write 0x00004#18 (.b4 0x4#32)]).hostQueue = .write 0x00004#18 (.b4 0x4#32) :: []
      ∧ (0x4#32).extractLsb' 0 5 ≠ base.ctrl.sect)
    ∧ ((queued [.write 0x00004#18 (.b4 0x1010#32)]).hostQueue = .write 0x00004#18 (.b4 0x1010#32) :: []
      ∧ (0x1010#32).extractLsb' 0 5 = base.ctrl.sect ∧ (0x1010#32).getLsbD 5 = base.ctrl.inner
      ∧ (0x1010#32).getLsbD 6 = base.ctrl.taghi ∧ (0x1010#32).extractLsb' 8 4 = base.ctrl.subtag
      ∧ (0x1010#32).extractLsb' 16 8 = base.ctrl.ltidx) := by
  exact ⟨⟨rfl, by decide⟩, rfl, by decide, by decide, by decide, by decide, by decide⟩

theorem witness_ReadOnlyWritesIgnored :
    (0x00064#18 : HostAddr) ∈ [0x00064#18]
      ∧ (∃ i : Nat, i < 256 ∧ 0x023FC#18 = BitVec.ofNat 18 (0x2000 + 4 * i))
      ∧ (queued [.write 0x023FC#18 (.b4 1#32)]).hostQueue = .write 0x023FC#18 (.b4 1#32) :: [] :=
  ⟨by decide, ⟨255, by decide, by decide⟩, rfl⟩

/-- Both sides of each boundary of the map. -/
theorem witness_BusErrors :
    (Mapped 0x64 4 ∧ ¬ Mapped 0x68 4 ∧ ¬ Mapped 0x64 1 ∧ ¬ Mapped 0x66 4)
      ∧ (¬ Mapped 0xFFC 4 ∧ Mapped 0x1000 4 ∧ Mapped 0x17FC 4 ∧ ¬ Mapped 0x1800 4)
      ∧ (¬ Mapped 0x1FFC 4 ∧ Mapped 0x23FC 4 ∧ ¬ Mapped 0x2400 4)
      ∧ (¬ Mapped 0xFFFF 1 ∧ Mapped 0x10000 1 ∧ Mapped 0x17FFE 2 ∧ ¬ Mapped 0x17FFE 4
        ∧ ¬ Mapped 0x18000 1)
      ∧ (¬ Mapped 0x1FFFC 4 ∧ Mapped 0x20000 4 ∧ Mapped 0x3FFFC 4 ∧ ¬ Mapped 0x20000 2) := by
  unfold Mapped; omega

theorem witness_ReadsHaveNoSideEffect :
    ∃ t, step (queued [.read 0x00000#18 .b4]) = .next t := ⟨_, rfl⟩

theorem witness_HuffmanEntryWrite :
    (queued [.write 0x017FC#18 (.b4 0x8FFFF0FF#32)]).hostQueue
      = .write (BitVec.ofNat 18 ((if Bank.mag = .pd then 0x1000 else 0x1400) + 4 * (255 : Fin 256).val))
          (.b4 0x8FFFF0FF#32) :: [] := by
  rfl

/-- A 2-byte write at the end of the buffer, a 2-byte read of written bytes, a 4-byte read whose first
unwritten byte is its third, and the two accesses of R65. -/
theorem witness_BufMixedWidth :
    (32766 % (laneBytes (.b2 0x1234#16)).length = 0
        ∧ 32766 + (laneBytes (.b2 0x1234#16)).length ≤ 32768
        ∧ (queued [.write 0x17FFE#18 (.b2 0x1234#16)]).hostQueue
          = .write (BitVec.ofNat 18 (0x10000 + 32766)) (.b2 0x1234#16) :: []
        ∧ (queued [.read 0x17FFE#18 .b2]).hostQueue
          = .read (BitVec.ofNat 18 (0x10000 + 32766)) (BusData.size (.b2 0x1234#16)) :: []
        ∧ BytesAt (bytesFrom 32766 [0x34#8, 0x12#8]) 32766 (laneBytes (.b2 0x1234#16)))
      ∧ FirstUnwritten (bytesFrom 0 [1#8, 2#8]) 0 (laneBytes (.b4 0#32)).length 2
      ∧ 32764 % 4 = 0 ∧ 32764 + 4 ≤ 32768
      ∧ (queued [.write 0x17FFC#18 (.b4 1#32), .read 0x17FFD#18 .b1]).hostQueue
        = .write (BitVec.ofNat 18 (0x10000 + 32764)) (.b4 1#32)
          :: .read (BitVec.ofNat 18 (0x10000 + 32764 + 1)) .b1 :: [] := by
  refine ⟨⟨by decide, by decide, rfl, rfl, bytesAt_writeList _ _ _⟩, ⟨by decide, by decide, rfl, ?_⟩,
    by decide, by decide, rfl⟩
  intro y _ hy
  interval_cases y <;> rfl

theorem witness_OramWriteReadsBack :
    32767 < 32768 ∧ (queued [.write 0x3FFFC#18 (.b4 1#32), .read 0x3FFFC#18 .b4]).hostQueue
      = .write (BitVec.ofNat 18 (0x20000 + 4 * 32767)) (.b4 1#32)
        :: .read (BitVec.ofNat 18 (0x20000 + 4 * 32767)) .b4 :: []
      ∧ (queued [.read 0x3FFFC#18 .b4]).hostQueue
        = .read (BitVec.ofNat 18 (0x20000 + 4 * 32767)) .b4 :: []
      ∧ OramWord (Memory.writeWord [] 32767 1#32) 32767 1#32
      ∧ FirstUnwritten (queued []).oram (4 * 32767) 4 (4 * 32767) :=
  ⟨by decide, rfl, rfl, oramWord_writeWord_same _ _ _, le_refl _, by decide, rfl, fun _ _ _ => by omega⟩

theorem witness_AccWindowReads :
    255 < 256
      ∧ (queued [.read 0x023FC#18 .b4]).hostQueue
        = .read (BitVec.ofNat 18 (0x2000 + 4 * 255)) .b4 :: []
      ∧ Memory.read (bytesFrom 255 [7#8]) 255 = some 7#8 ∧ base.acc.read 255 = none :=
  ⟨by decide, rfl, by decide, rfl⟩

/-! ### The bitstream -/

/-- The bounds of the bitstream broken in the two ways of R101, and held with the bitstream at its
end. -/
theorem witness_StreamOk :
    8 * Config.bufBytes < (stream [] 0 262145).bitend.toNat
      ∧ ((stream [] 9 8).bitend.toNat ≤ 8 * Config.bufBytes
        ∧ (stream [] 9 8).bitend.toNat < (stream [] 9 8).bitptr.toNat)
      ∧ StreamOk (stream [] 262144 262144) := by
  unfold StreamOk; decide

/-- n below, above and at the limit; a stream one bit short, and one that ends with the buffer. -/
theorem witness_RdbitsResult :
    ((0#5).toNat = 0 ∧ 16 < (17#5).toNat ∧ (queued [issueEvent 0x01000011#32]).status.fatal = false
        ∧ (queued [issueEvent 0x01000011#32]).hostQueue
          = issueEvent (0x01000000#32 ||| (17#5).setWidth 32) :: [])
      ∧ (16#5).toNat ≤ 16
      ∧ (StreamOk (stream [0#8, 0#8] 1 16)
        ∧ (stream [0#8, 0#8] 1 16).bitend.toNat - (stream [0#8, 0#8] 1 16).bitptr.toNat < (16#5).toNat)
      ∧ ∃ s : State, s.bitend.toNat = 8 * Config.bufBytes ∧ StreamOk s
        ∧ (List.replicate 16 true).length = (16#5).toNat ∧ BitsAt s s.bitptr.toNat (List.replicate 16 true)
        ∧ s.bitptr.toNat + (16#5).toNat ≤ s.bitend.toNat := by
  refine ⟨⟨by decide, by decide, rfl, rfl⟩, by decide, by unfold StreamOk; decide, ?_⟩
  refine ⟨{ base with buf := bytesFrom 32766 [0xFF#8, 0xFF#8], bitptr := 262128#32, bitend := 262144#32 },
    by decide, by unfold StreamOk; decide, by decide, bitsAt_of_bits (by decide +kernel), by decide⟩

/-- HUF_SHORT, HUF_LONG, and a code of 12 bits. -/
theorem witness_RdhufResult :
    (StreamOk (stream [0#8, 0#8] 0 11) ∧ CodeFails (stream [0#8, 0#8] 0 11) .mag 0 0x01#8)
      ∧ (StreamOk (stream [0#8, 0#8] 0 12) ∧ CodeFails (stream [0#8, 0#8] 0 12) .mag 0 0x02#8)
      ∧ ∃ s, StreamOk s ∧ CodeAt s .pd s.bitptr.toNat 0xCD#8 12 := by
  refine ⟨⟨by unfold StreamOk; decide, ?_⟩, ⟨by unfold StreamOk; decide, ?_⟩, ?_⟩
  · exact codeFails_of_huf (e := .hufShort) (ptr := 0#32) (by decide +kernel) (by decide)
  · exact codeFails_of_huf (e := .hufLong) (ptr := 0#32) (by decide +kernel) (by decide)
  · refine ⟨{ stream [0xAB#8, 0xC0#8] 0 12 with
      ht0 := base.ht0.set 3 (HuffEntry.ofWord 0x8CABC0CD#32) }, by unfold StreamOk; decide, ?_⟩
    exact (codeAt_of_huf (L := 12) (by decide +kernel)).1

theorem isKey_twoKeys {i : Fin 256} {l : List Bool} (h : IsKey twoKeys i l) :
    i = 0 ∧ l = [false] ∨ i = 1 ∧ l = [true] := by
  obtain ⟨h1, h2, h3⟩ := h
  have hi : i = 0 ∨ i = 1 := by
    simp only [twoKeys, Fin.getElem_fin, Vector.getElem_set, Vector.getElem_replicate] at h1
    split at h1
    · exact .inr (Fin.ext (by simp; omega))
    · split at h1
      · exact .inl (Fin.ext (by simp; omega))
      · cases h1
  rcases hi with rfl | rfl
  · have hl : l.length = 1 := h2.symm.trans (by decide +kernel)
    obtain ⟨b, rfl⟩ := List.length_eq_one_iff.mp hl
    have : twoKeys[0].pat.toNat % 2 ^ 1 = natOfBits [b] := h3
    cases b
    · exact .inl ⟨rfl, rfl⟩
    · exact absurd this (by decide +kernel)
  · have hl : l.length = 1 := h2.symm.trans (by decide +kernel)
    obtain ⟨b, rfl⟩ := List.length_eq_one_iff.mp hl
    have : twoKeys[1].pat.toNat % 2 ^ 1 = natOfBits [b] := h3
    cases b
    · exact absurd this (by decide +kernel)
    · exact .inr ⟨rfl, rfl⟩

theorem witness_HuffmanRoundTrip :
    ∃ s : State, BankWellFormed (s.bank .pd) ∧ IsKey (s.bank .pd) 1 [true] ∧ StreamOk s
      ∧ s.bitend.toNat = s.bitptr.toNat + [true].length + [false, true, true].length
      ∧ BitsAt s s.bitptr.toNat ([true] ++ [false, true, true]) := by
  refine ⟨{ stream [0b10110000#8] 0 4 with ht0 := twoKeys }, ?_, ?_, by unfold StreamOk; decide, by decide,
    bitsAt_of_bits (by decide +kernel)⟩
  · intro i j l m _ _ _ _ hi hj hp
    rcases isKey_twoKeys hi with ⟨rfl, rfl⟩ | ⟨rfl, rfl⟩ <;>
      rcases isKey_twoKeys hj with ⟨rfl, rfl⟩ | ⟨rfl, rfl⟩
    · rfl
    · exact absurd hp (by decide)
    · exact absurd hp (by decide)
    · rfl
  · unfold IsKey; decide +kernel

/-- A stream one bit short of a sign pair, and the four pairs at the end of a stream. -/
theorem witness_RdsignResult :
    (StreamOk (stream [0#8] 7 8) ∧ (stream [0#8] 7 8).bitend.toNat < (stream [0#8] 7 8).bitptr.toNat + 2)
      ∧ (StreamOk (stream [0x1B#8] 6 8)
        ∧ (stream [0x1B#8] 6 8).bitptr.toNat + 2 ≤ (stream [0x1B#8] 6 8).bitend.toNat)
      ∧ BitsAt (stream [0x1B#8] 6 8) 0 [false, false] ∧ BitsAt (stream [0x1B#8] 6 8) 2 [false, true]
      ∧ BitsAt (stream [0x1B#8] 6 8) 4 [true, false] ∧ BitsAt (stream [0x1B#8] 6 8) 6 [true, true] :=
  ⟨by unfold StreamOk; decide, by unfold StreamOk; decide, bitsAt_of_bits (by decide +kernel),
    bitsAt_of_bits (by decide +kernel), bitsAt_of_bits (by decide +kernel),
    bitsAt_of_bits (by decide +kernel)⟩

/-! ### The byte-order mux and the CRC -/

theorem witness_Unpack16Result :
    32768 < (atOpa 32767 []).opa.toNat + 2
      ∧ (atOpa 32766 [1#8, 2#8]).opa.toNat + 2 ≤ 32768
      ∧ BytesAt (atOpa 32766 [1#8, 2#8]).buf (atOpa 32766 [1#8, 2#8]).opa.toNat [1#8, 2#8] :=
  ⟨by decide, by decide, bytesAt_of_readCells (sp := .buf) (n := 2) (by decide +kernel)⟩

theorem witness_Unpack24Result :
    32768 < (atOpa 32766 []).opa.toNat + 3
      ∧ (atOpa 32765 [1#8, 2#8, 3#8]).opa.toNat + 3 ≤ 32768
      ∧ BytesAt (atOpa 32765 [1#8, 2#8, 3#8]).buf (atOpa 32765 [1#8, 2#8, 3#8]).opa.toNat
          [1#8, 2#8, 3#8] :=
  ⟨by decide, by decide, bytesAt_of_readCells (sp := .buf) (n := 3) (by decide +kernel)⟩

/-- The ranges of the four pack commands: each has values on both sides of each limit. -/
theorem witness_Pack16Result :
    (0xFFFF < (0x10000#32).toNat ∧ (0xFFFF#32).toNat ≤ 0xFFFF)
      ∧ ((0xFFFF7FFF#32).toInt < -32768 ∧ 32767 < (0x8000#32).toInt)
      ∧ (-32768 ≤ (0xFFFF8000#32).toInt ∧ (0xFFFF8000#32).toInt ≤ 32767) := by decide

theorem witness_Pack24Result :
    (0xFFFFFF < (0x1000000#32).toNat ∧ (0xFFFFFF#32).toNat ≤ 0xFFFFFF)
      ∧ ((0xFF7FFFFF#32).toInt < -8388608 ∧ 8388607 < (0x800000#32).toInt)
      ∧ (-8388608 ≤ (0xFF800000#32).toInt ∧ (0xFF800000#32).toInt ≤ 8388607) := by decide

theorem witness_PackThenUnpack :
    ∃ t, exec .sts24b { base with opb := 0xFFFFFFF0#32 } = .next t ∧ t.status.lastOk = true :=
  ⟨_, rfl, by decide +kernel⟩

theorem witness_Swap16Result :
    32768 < (32767#32).toNat + (2#32).toNat ∧ (32767#32).toNat + (1#32).toNat ≤ 32768
      ∧ (1#32).toNat % 2 = 1 ∧ (32766#32).toNat + (2#32).toNat ≤ 32768 ∧ (2#32).toNat % 2 = 0
      ∧ ∀ k, k < (2#32).toNat → ((bytesFrom 32766 [7#8, 8#8]).read ((32766#32).toNat + k)).isSome := by
  decide +kernel

theorem witness_Swap16TwiceRestores :
    ∃ t, exec .swap16 { base with buf := bytesFrom 0 [1#8, 2#8], opb := 2#32 } = .next t
      ∧ t.status.lastOk = true :=
  ⟨_, rfl, by decide +kernel⟩

/-- A frame header at the last legal address. -/
def lastHeader : State := atOpa 32755 (List.replicate 13 0#8)

theorem witness_CrchdrResult :
    32768 < (atOpa 32756 []).opa.toNat + 13 ∧ lastHeader.opa.toNat + 13 ≤ 32768
      ∧ (List.replicate 11 0#8).length = 11
      ∧ BytesAt lastHeader.buf (lastHeader.opa.toNat + 1) (List.replicate 11 0#8)
      ∧ (List.replicate 11 0#8).take 2 = [0#8, 0#8]
      ∧ lastHeader.buf.read (lastHeader.opa.toNat + 12) = some 0#8 :=
  ⟨by decide, by decide, by decide, bytesAt_of_readCells (sp := .buf) (n := 11) (by decide +kernel),
    by decide, by decide +kernel⟩

/-- The header of 3.5 a, and the same with byte 5 corrupted. -/
def goodHeader (b5 : Byte) : State :=
  atOpa 0 [0x00#8, 0x44#8, 0x00#8, 0x01#8, 0x02#8, b5, 0x04#8, 0x05#8, 0x06#8, 0x07#8, 0x08#8, 0x09#8,
    0x2C#8]

theorem witness_CrcDetectsByteErrors :
    (goodHeader 0x03#8).crccfg.poly.getLsbD 0 = true
      ∧ (goodHeader 0x83#8).buf.read ((goodHeader 0x03#8).opa.toNat + 5)
        ≠ (goodHeader 0x03#8).buf.read ((goodHeader 0x03#8).opa.toNat + 5)
      ∧ (∀ j, j ≤ 12 → j ≠ 5 → (goodHeader 0x83#8).buf.read ((goodHeader 0x03#8).opa.toNat + j)
        = (goodHeader 0x03#8).buf.read ((goodHeader 0x03#8).opa.toNat + j))
      ∧ (∃ t, exec .crchdr (goodHeader 0x03#8) = .next t ∧ t.status.lastOk = true
        ∧ t.status.crcOk = true)
      ∧ ∃ t', exec .crchdr (goodHeader 0x83#8) = .next t' ∧ t'.status.lastOk = true := by
  refine ⟨by decide, by decide +kernel, ?_, ⟨_, rfl, ?_⟩, _, rfl, ?_⟩
  · have h : ∀ j : Fin 13, j.val ≠ 5 → (goodHeader 0x83#8).buf.read ((goodHeader 0x03#8).opa.toNat + j)
        = (goodHeader 0x03#8).buf.read ((goodHeader 0x03#8).opa.toNat + j) := by decide +kernel
    exact fun j hj => h ⟨j, by omega⟩
  · decide +kernel
  · decide +kernel

/-! ### The PD integrator -/

def inner4 : Ctrl := { ctrl4 with inner := true, taghi := true, subtag := 3#4 }

/-- The inner header of 3.7 p with the given side byte. -/
def innerHeader (side : Byte) : State :=
  { base with
    ctrl := inner4, pdTag := 1#32, pdVals := 2#32, pdVlen := 64#32
    buf := bytesFrom 0 (0xAA#8 :: side :: List.replicate 64 7#8) }

theorem witness_PdConfigErrors :
    ((8#5 : BitVec 5) ≠ 4#5 ∧ (8#5 : BitVec 5) ≠ 16#5) ∧ 0x55 < (0x56#8).toNat := by decide

theorem innerHeader_bytes (side : Byte) :
    BytesAt (innerHeader side).buf 0 (0xAA#8 :: side :: List.replicate 64 7#8) := by
  have h : (innerHeader side).buf
      = Memory.writeList [] 0 (0xAA#8 :: side :: List.replicate 64 7#8) := by
    simp only [innerHeader, bytesFrom]
  rw [h]; exact bytesAt_writeList _ _ _

theorem headerMarked_innerHeader (side : Byte) : HeaderMarked (innerHeader side) := by
  have hm : (innerHeader side).pdMark = 0#32 := rfl
  have hl : (innerHeader side).ctrl.ltidx = 0#8 := rfl
  unfold HeaderMarked
  rw [hm, hl]
  exact ⟨by decide, 0xAA#8, by simpa using innerHeader_bytes side 0 (by simp), by decide⟩

theorem sideByte_innerHeader (side : Byte) : SideByte (innerHeader side) side := by
  have ht : (innerHeader side).pdTag = 1#32 := rfl
  unfold SideByte
  rw [ht]
  exact ⟨by decide, by simpa using innerHeader_bytes side 1 (by simp)⟩

theorem pdConfigOk_of_ctrl {s : State} (h : s.ctrl = ctrl4 ∨ s.ctrl = inner4) : PdConfigOk s := by
  unfold PdConfigOk; rcases h with h | h <;> rw [h] <;> decide

/-- A continuation inside a chain, with the given bounds of the bitstream. -/
def contBounds (p e : Word) : State :=
  { pdContState [] [] 0 with bitptr := p, bitend := e }

theorem witness_PdAddressErrors :
    (PdConfigOk { base with ctrl := ctrl4, pdMark := 32768#32 } ∧ 32768 ≤ (32768#32).toNat)
    ∧ (∃ s, PdConfigOk s ∧ HeaderMarked s ∧ s.ctrl.inner = true ∧ 32768 ≤ s.pdTag.toNat)
    ∧ (∃ s, PdConfigOk s ∧ HeaderMarked s ∧ TagAccepted s ∧ s.pdVlen.toNat = slotCount s
        ∧ 32768 < s.pdVals.toNat + slotCount s)
    ∧ (∀ p e, PdConfigOk (contBounds p e) ∧ ContinuationMarked (contBounds p e)
        ∧ (contBounds p e).pdstate.inChain = true)
    ∧ 8 * Config.bufBytes < (contBounds 0#32 262145#32).bitend.toNat
    ∧ (contBounds 100#32 50#32).bitend.toNat < (contBounds 100#32 50#32).bitptr.toNat := by
  refine ⟨⟨pdConfigOk_of_ctrl (.inl rfl), by decide⟩,
    ⟨{ innerHeader 0#8 with pdTag := 32768#32 }, pdConfigOk_of_ctrl (.inr rfl),
      headerMarked_innerHeader 0#8, rfl, by decide⟩,
    ⟨{ pdHeaderState ctrl4 0xAA#8 10#8 with pdVals := 32705#32 }, pdConfigOk_of_ctrl (.inl rfl),
      ⟨by decide, 0xAA#8, by decide +kernel, by decide⟩, .inl rfl, by decide, by decide⟩,
    fun p e => ⟨pdConfigOk_of_ctrl (.inl rfl),
      ⟨show (0x80#32).toNat < 32768 by decide, 0#8, rfl, show (0#8).toNat ≠ 0xAA + (0#8).toNat by decide⟩,
      rfl⟩, by decide, by decide⟩

theorem witness_PdHeaderResult :
    (PdConfigOk (innerHeader 0x45#8) ∧ HeaderMarked (innerHeader 0x45#8)
      ∧ TagRejected (innerHeader 0x45#8))
    ∧ (∃ s, PdConfigOk s ∧ HeaderMarked s ∧ TagAccepted s ∧ s.pdVlen.toNat ≠ slotCount s)
    ∧ (∃ s values, PdConfigOk s ∧ HeaderMarked s ∧ TagAccepted s ∧ s.pdVlen.toNat = slotCount s
        ∧ s.pdVals.toNat + slotCount s ≤ 32768 ∧ values.length = slotCount s
        ∧ BytesAt s.buf s.pdVals.toNat values ∧ s.ctrl.inner = true ∧ SideByte s 0x35#8
        ∧ 5#4 = nibble (!s.ctrl.taghi) 0x35#8)
    ∧ ∃ s : State, PdConfigOk s ∧ HeaderMarked s ∧ TagAccepted s ∧ s.pdVlen.toNat = slotCount s
        ∧ s.pdVals.toNat + slotCount s = 32768
        ∧ BytesAt s.buf s.pdVals.toNat (List.replicate 64 10#8) ∧ s.ctrl.inner = false := by
  refine ⟨⟨pdConfigOk_of_ctrl (.inr rfl), headerMarked_innerHeader _, rfl, 0x45#8,
      sideByte_innerHeader _, by decide⟩,
    ⟨{ pdHeaderState ctrl4 0xAA#8 10#8 with pdVlen := 63#32 }, pdConfigOk_of_ctrl (.inl rfl),
      ⟨by decide, 0xAA#8, by decide +kernel, by decide⟩, .inl rfl, by decide⟩,
    ⟨innerHeader 0x35#8, List.replicate 64 7#8, pdConfigOk_of_ctrl (.inr rfl),
      headerMarked_innerHeader _, .inr ⟨0x35#8, sideByte_innerHeader _, by decide⟩, by decide, by decide,
      by decide, bytesAt_of_readCells (sp := .buf) (n := 64) (by decide +kernel), rfl,
      sideByte_innerHeader _, by decide⟩,
    { pdHeaderState ctrl4 0xAA#8 10#8 with
      pdVals := 32704#32, pdMark := 32703#32
      buf := bytesFrom 32703 (0xAA#8 :: List.replicate 64 10#8) },
    pdConfigOk_of_ctrl (.inl rfl), ⟨by decide, 0xAA#8, by decide +kernel, by decide⟩, .inl rfl, by decide,
    by decide, bytesAt_of_readCells (sp := .buf) (n := 64) (by decide +kernel), rfl⟩

/-- Sixth slot 0, the others 10; each slot's delta takes 4 bits under `twoKeys`. -/
def sixthZero : List Byte := List.replicate 5 10#8 ++ 0#8 :: List.replicate 58 10#8

/-- A continuation over 64 slots with the given stream under `twoKeys`. -/
def twoKeysCont (slots bs : List Byte) (bitCount : Nat) : State :=
  { pdContState slots bs bitCount with ht0 := twoKeys }

theorem twoKeysCont_ready (slots bs : List Byte) (bitCount : Nat) (h : bitCount ≤ 256) :
    PdConfigOk (twoKeysCont slots bs bitCount)
      ∧ (twoKeysCont slots bs bitCount).pdstate.inChain = true
      ∧ StreamOk (twoKeysCont slots bs bitCount) := by
  have hs : (twoKeysCont slots bs bitCount).bitend.toNat = 0x800 + bitCount := by
    simp [twoKeysCont, pdContState, asWord]; omega
  refine ⟨pdConfigOk_of_ctrl (.inl rfl), rfl, ?_, ?_⟩
  · rw [hs]; show 0x800 ≤ _; omega
  · rw [hs]; show _ ≤ 262144; omega

/-- The ninth continuation of a chain. -/
theorem witness_PdContinuationIntegrates :
    ∃ s : State, PdConfigOk s ∧ ContinuationMarked s ∧ s.pdstate.inChain = true
      ∧ s.pdstate.ccount.toNat = 8 ∧ StreamOk s
      ∧ sixthZero.length = 16 * s.ctrl.sect.toNat ∧ BytesAt s.acc 0 sixthZero
      ∧ PdDeltas s s.bitptr.toNat sixthZero
        (List.replicate 5 10#8 ++ 255#8 :: List.replicate 58 10#8) 0x900 := by
  obtain ⟨h1, -, h3⟩ := twoKeysCont_ready sixthZero (0#8 :: 0#8 :: 0x01#8 :: List.replicate 29 0#8) 256
    (le_refl _)
  exact ⟨{ twoKeysCont sixthZero (0#8 :: 0#8 :: 0x01#8 :: List.replicate 29 0#8) 256 with
      pdstate := { inChain := true, ccount := 8#4 } },
    h1, ⟨by decide, 0#8, by decide +kernel, by decide⟩, rfl, rfl, h3, by decide,
    bytesAt_of_readCells (sp := .acc) (n := 64) (by decide +kernel),
    pdDeltas_of_pdIntegrate (by decide +kernel)⟩

/-- A sign pair "10" at slot 2, and a delta of +255 on a slot that holds 10. -/
theorem witness_PdContinuationFailure :
    (∃ s : State, PdConfigOk s ∧ ContinuationMarked s ∧ s.pdstate.inChain = true ∧ StreamOk s
      ∧ ([10#8, 10#8] ++ 10#8 :: List.replicate 61 10#8).length = 16 * s.ctrl.sect.toNat
      ∧ BytesAt s.acc 0 ([10#8, 10#8] ++ 10#8 :: List.replicate 61 10#8)
      ∧ PdDeltas s s.bitptr.toNat [10#8, 10#8] [10#8, 10#8] 0x808
      ∧ PdFailure s 0x808 10#8 0x03#8 0x808)
    ∧ ∃ s : State, PdConfigOk s ∧ ContinuationMarked s ∧ s.pdstate.inChain = true ∧ StreamOk s
      ∧ BytesAt s.acc 0 ([] ++ 10#8 :: List.replicate 63 10#8)
      ∧ PdDeltas s s.bitptr.toNat [] [] 0x800 ∧ PdFailure s 0x800 10#8 0x06#8 0x800 := by
  obtain ⟨h1, h2, h3⟩ := twoKeysCont_ready (List.replicate 64 10#8) [0x00#8, 0x80#8] 10 (by decide)
  obtain ⟨g1, g2, g3⟩ := twoKeysCont_ready (List.replicate 64 10#8) [0x10#8] 8 (by decide)
  refine ⟨⟨_, h1, ⟨by decide, 0#8, by decide +kernel, by decide⟩, h2, h3, by decide,
      bytesAt_of_readCells (sp := .acc) (n := 64) (by decide +kernel),
      pdDeltas_of_pdIntegrate (by decide +kernel), .signBad false (by decide) ?_⟩,
    _, g1, ⟨by decide, 0#8, by decide +kernel, by decide⟩, g2, g3,
    bytesAt_of_readCells (sp := .acc) (n := 64) (by decide +kernel), .done _, ?_⟩
  · exact bitsAt_of_bits (by decide +kernel)
  · exact .range (d1 := 0#8) (d2 := 255#8) (p1 := 0x803) (p2 := 0x804)
      (signAt_of_sign2 (m := .strict) (g := .plus) (by decide +kernel) (by decide))
      (codeAt_of_huf (L := 1) (by decide +kernel)).1 (codeAt_of_huf (L := 1) (by decide +kernel)).1
      (.inr (by decide))

theorem witness_PdSeekingSkips :
    ∃ s : State, PdConfigOk s ∧ ContinuationMarked s ∧ s.pdstate.inChain = false :=
  ⟨pdHeaderState ctrl4 0x12#8 10#8, ⟨by decide, by decide⟩, ⟨by decide, 0x12#8, rfl, by decide⟩, rfl⟩

/-! ### The magnetometer integrator -/

theorem witness_MagPreconditionErrors :
    32768 < (32760#32).toNat + 9 ∧ (32759#32).toNat + 9 ≤ 32768
      ∧ 8 * 32768 < (stream [] 0 262145).bitend.toNat
      ∧ (stream [] 10 5).bitend.toNat < (stream [] 10 5).bitptr.toNat
      ∧ (∃ s, StreamOk s ∧ s.opa.toNat + 9 ≤ 32768 ∧ 32768 < s.owptr.toNat + 3) :=
  ⟨by decide, by decide, by decide, by decide, { base with owptr := 32766#32 },
    by unfold StreamOk; decide, by decide, by decide⟩

/-- The given number of deltas from bit p, read one after the other. -/
def deltasFrom (s : State) : Nat → Nat → Option (List Int × Nat)
  | 0, p => some ([], p)
  | n + 1, p =>
    match magDelta s p with
    | .ok (some (d, q)) => (deltasFrom s n q).map fun r => (d :: r.1, r.2)
    | .ok none => none
    | .error _ => none

theorem magDeltas_of_deltasFrom {s : State} {n p q : Nat} {ds : List Int}
    (h : deltasFrom s n p = some (ds, q)) : MagDeltas s p ds q := by
  induction n generalizing p ds with
  | zero => cases h; exact .done _
  | succ n ih =>
    simp only [deltasFrom] at h
    split at h
    · obtain ⟨⟨es, r⟩, h1, h2⟩ := Option.map_eq_some_iff.mp h
      cases h2
      exact .delta (magDeltaAt_of_magDelta ‹_›) (ih h1)
    · cases h
    · cases h

/-- The state of 3.8 with the given stream, K and OWPTR. -/
def magAt (bs : List Byte) (bitCount : Nat) (k owptr : Word) : State :=
  { magStateOf false tv triple bs bitCount with opb := k, owptr := owptr }

theorem magAt_header (bs : List Byte) (bitCount : Nat) (k owptr : Word) :
    HeaderAxis (magAt bs bitCount k owptr) 0 100 ∧ HeaderAxis (magAt bs bitCount k owptr) 1 (-100)
      ∧ HeaderAxis (magAt bs bitCount k owptr) 2 0 := by
  have h : BytesAt (magAt bs bitCount k owptr).buf 0 triple := bytesAt_writeList _ _ _
  refine ⟨⟨0x00#8, 0x00#8, 0x64#8, fun j hj => ?_, by decide⟩,
    ⟨0xFF#8, 0xFF#8, 0x9C#8, fun j hj => ?_, by decide⟩, ⟨0x00#8, 0x00#8, 0x00#8, fun j hj => ?_, by decide⟩⟩
  · have hj : j < 3 := hj
    interval_cases j
    exacts [h 0 (by decide), h 1 (by decide), h 2 (by decide)]
  · have hj : j < 3 := hj
    interval_cases j
    exacts [h 3 (by decide), h 4 (by decide), h 5 (by decide)]
  · have hj : j < 3 := hj
    interval_cases j
    exacts [h 6 (by decide), h 7 (by decide), h 8 (by decide)]

/-- No delta read yet. -/
theorem magAt_start (bs : List Byte) (bitCount : Nat) (k owptr : Word) (h : bitCount ≤ 256)
    (ho : owptr.toNat + 3 ≤ 32768) :
    MagProgress (magAt bs bitCount k owptr) 100 (-100) 0 [] 0x800 := by
  have hs : (magAt bs bitCount k owptr).bitend.toNat = 0x800 + bitCount := by
    simp [magAt, magStateOf, asWord]; omega
  obtain ⟨h1, h2, h3⟩ := magAt_header bs bitCount k owptr
  refine ⟨⟨show (0#32).toNat + 9 ≤ 32768 by decide, ⟨?_, ?_⟩, ho⟩, h1, h2, h3, .done _, fun n hn => ?_,
    nofun⟩
  · rw [hs]; show 0x800 ≤ _; omega
  · rw [hs]; show _ ≤ 262144; omega
  · have hn : n = 0 := by simpa using hn
    subst hn; unfold FitsWord; decide

/-- The three deltas of EX (3.8). -/
def exDeltas : List Int := [4656, -16, 65536]

theorem magAt_example (bitCount : Nat) (owptr : Word) (h : bitCount ≤ 48)
    (ho : owptr.toNat + 3 ≤ 32768)
    (hd : deltasFrom (magAt exStream bitCount 0#32 owptr) 3 0x800 = some (exDeltas, 0x82A)) :
    MagProgress (magAt exStream bitCount 0#32 owptr) 100 (-100) 0 exDeltas 0x82A := by
  obtain ⟨hr, h1, h2, h3, -⟩ := magAt_start exStream bitCount 0#32 owptr (by omega) ho
  refine ⟨hr, h1, h2, h3, magDeltas_of_deltasFrom hd, ?_, fun j _ h => h.1 rfl⟩
  unfold FitsWord; decide +kernel

/-- The terminator, fewer than 2 bits left, and the row limit. -/
theorem witness_MagRunningSums :
    (MagProgress (magAt exStream 48 0#32 32762#32) 100 (-100) 0 exDeltas 0x82A
      ∧ (32762#32).toNat + 3 * (1 + exDeltas.length / 3) ≤ 32768
      ∧ ¬ LimitReached (magAt exStream 48 0#32 32762#32) (1 + exDeltas.length / 3)
      ∧ 0x82A + 2 ≤ (magAt exStream 48 0#32 32762#32).bitend.toNat
      ∧ BitsAt (magAt exStream 48 0#32 32762#32) 0x82A [true, true])
    ∧ (MagProgress (magAt exStream 43 0#32 0#32) 100 (-100) 0 exDeltas 0x82A
      ∧ (magAt exStream 43 0#32 0#32).bitend.toNat < 0x82A + 2)
    ∧ (MagProgress (magAt exStream 48 1#32 0#32) 100 (-100) 0 [] 0x800
      ∧ LimitReached (magAt exStream 48 1#32 0#32) (1 + ([] : List Int).length / 3)) := by
  refine ⟨⟨magAt_example _ _ (by decide) (by decide) (by decide +kernel), by decide, fun h => h.1 rfl, by decide,
    bitsAt_of_bits (by decide +kernel)⟩, ⟨magAt_example _ _ (by decide) (by decide) (by decide +kernel), by decide⟩,
    magAt_start _ _ _ _ (by decide) (by decide), ⟨by decide, by decide⟩⟩

/-- A sign pair "10", and a Huffman field cut short. -/
theorem witness_MagDecodeFailure :
    (∃ s : State, MagProgress s 100 (-100) 0 [] 0x800 ∧ s.owptr.toNat + 3 * (1 + 0 / 3) ≤ 32768
      ∧ ¬ LimitReached s (1 + 0 / 3) ∧ MagFailure s 0x800 0x03#8 0x800)
    ∧ ∃ s : State, MagProgress s 100 (-100) 0 [] 0x800 ∧ ¬ LimitReached s (1 + 0 / 3)
      ∧ MagFailure s 0x800 0x01#8 0x804 := by
  refine ⟨⟨magAt [0x80#8] 8 0#32 0#32, magAt_start _ _ _ _ (by decide) (by decide), by decide,
      fun h => h.1 rfl, .signBad (by decide) (bitsAt_of_bits (by decide +kernel))⟩,
    magAt [0x04#8] 5 0#32 0#32, magAt_start _ _ _ _ (by decide) (by decide), fun h => h.1 rfl, ?_⟩
  exact .h12 (c := 0#8) (p1 := 0x804)
    (signAt_of_sign2 (m := .terminator) (g := .plus) (by decide +kernel) (by decide))
    (codeAt_of_huf (L := 2) (by decide +kernel)).1
    (codeFails_of_huf (e := .hufShort) (ptr := 0x804#32) (by decide +kernel) (by decide))

/-- Bank 1 of the overflow vector of 3.8: the key "0" with code 255. -/
def oneKey : HuffBank :=
  base.ht1.set 0 { valid := true, len := 1#4, pat := 0#12, code := 0xFF#8 }

def overflowHeader : List Byte := [0x7F#8, 0xFF#8, 0xFF#8, 0#8, 0#8, 0#8, 0#8, 0#8, 0#8]

/-- Pairs of the 12-bit delta "00 0 0 1111 1111". -/
def deltaPairs (n : Nat) : List Byte := (List.replicate n [0x0F#8, 0xF0#8, 0xFF#8]).flatten

theorem length_deltaPairs (n : Nat) : (deltaPairs n).length = 3 * n := by
  induction n with
  | zero => rfl
  | succ n ih => simp [deltaPairs, List.replicate_succ] at ih ⊢; omega

/-- The overflow vector of 3.8: the 181st delta of +35520480 does not fit. -/
def overflowState : State := magStateOf true oneKey overflowHeader
  (deltaPairs 90 ++ [0x0F#8, 0xF0#8, 0xFF#8]) 2184

theorem bitAt_of_byte {s : State} {a k : Nat} {v : Byte} (h : s.buf.read a = some v) (hk : k < 8) :
    BitAt s (8 * a + k) (v.getLsbD (7 - k)) :=
  ⟨v, by rw [show (8 * a + k) / 8 = a by omega]; exact h, by rw [show (8 * a + k) % 8 = k by omega]⟩

theorem codeAt_oneKey {s : State} {p : Nat} (hb : s.ht1 = oneKey) (h : BitAt s p false)
    (hp : p + 1 ≤ s.bitend.toNat) : CodeAt s .mag p 0xFF#8 (p + 1) := by
  refine ⟨[false], 0, by decide, by decide, bitsAt_cons.mpr ⟨h, bitsAt_nil _ _⟩, rfl, hp, ?_, ?_⟩
  · show IsFirstKey s.ht1 0 [false]
    rw [hb]
    refine ⟨by unfold IsKey; decide +kernel, fun j hj => absurd hj (by simp), fun k h1 h2 => ?_⟩
    simp at h2; omega
  · show 0xFF#8 = s.ht1[0].code
    rw [hb]; rfl

theorem magDeltaAt_oneKey {s : State} {p : Nat} (hb : s.ht1 = oneKey) (hm : s.ctrl.mshift = true)
    (hp : p + 12 ≤ s.bitend.toNat)
    (h : BitsAt s p [false, false, false, false, true, true, true, true, true, true, true, true]) :
    MagDeltaAt s p 35520480 (p + 12) := by
  simp only [bitsAt_cons] at h
  obtain ⟨b0, b1, b2, b3, b4, b5, b6, b7, b8, b9, b10, b11, -⟩ := h
  have nil := bitsAt_nil s
  refine ⟨1, 0xFF#8, 0xFF#8, p + 3, p + 4, [true, true, true, true], [true, true, true, true],
    ⟨by omega, .inl ⟨?_, rfl⟩⟩, codeAt_oneKey hb b2 (by omega), codeAt_oneKey hb b3 (by omega), rfl, rfl,
    ?_, ?_, rfl, hp, by rw [hm]; decide⟩
  · exact bitsAt_cons.mpr ⟨b0, bitsAt_cons.mpr ⟨b1, nil _⟩⟩
  · exact bitsAt_cons.mpr ⟨b4, bitsAt_cons.mpr ⟨b5, bitsAt_cons.mpr ⟨b6, bitsAt_cons.mpr ⟨b7, nil _⟩⟩⟩⟩
  · exact bitsAt_cons.mpr ⟨b8, bitsAt_cons.mpr ⟨b9, bitsAt_cons.mpr ⟨b10, bitsAt_cons.mpr ⟨b11, nil _⟩⟩⟩⟩

theorem magDeltas_pairs {s : State} (hb : s.ht1 = oneKey) (hm : s.ctrl.mshift = true) (n a : Nat)
    (h : BytesAt s.buf a (deltaPairs n)) (hp : 8 * a + 24 * n ≤ s.bitend.toNat) :
    MagDeltas s (8 * a) (List.replicate (2 * n) 35520480) (8 * a + 24 * n) := by
  induction n generalizing a with
  | zero => exact .done _
  | succ n ih =>
    have hd : deltaPairs (n + 1) = 0x0F#8 :: 0xF0#8 :: 0xFF#8 :: deltaPairs n := by
      simp [deltaPairs, List.replicate_succ]
    rw [hd, bytesAt_cons, bytesAt_cons, bytesAt_cons] at h
    obtain ⟨h0, h1, h2, h3⟩ := h
    have b0 : ∀ k, k < 8 → BitAt s (8 * a + k) ((0x0F#8).getLsbD (7 - k)) := fun k => bitAt_of_byte h0
    have b1 : ∀ k, k < 8 → BitAt s (8 * a + 8 + k) ((0xF0#8).getLsbD (7 - k)) := fun k => bitAt_of_byte h1
    have b2 : ∀ k, k < 8 → BitAt s (8 * a + 16 + k) ((0xFF#8).getLsbD (7 - k)) := fun k => bitAt_of_byte h2
    have ih := ih (a + 3) h3 (by omega)
    rw [show 2 * (n + 1) = 2 * n + 1 + 1 by omega, List.replicate_succ, List.replicate_succ,
      show 8 * a + 24 * (n + 1) = 8 * (a + 3) + 24 * n by omega]
    refine .delta (p1 := 8 * a + 12) (magDeltaAt_oneKey hb hm (by omega) ?_)
      (.delta (p1 := 8 * (a + 3)) (magDeltaAt_oneKey hb hm (by omega) ?_) ih)
    · simp only [bitsAt_cons]
      exact ⟨b0 0 (by decide), b0 1 (by decide), b0 2 (by decide), b0 3 (by decide), b0 4 (by decide),
        b0 5 (by decide), b0 6 (by decide), b0 7 (by decide), b1 0 (by decide), b1 1 (by decide),
        b1 2 (by decide), b1 3 (by decide), bitsAt_nil _ _⟩
    · simp only [bitsAt_cons]
      exact ⟨b1 4 (by decide), b1 5 (by decide), b1 6 (by decide), b1 7 (by decide), b2 0 (by decide),
        b2 1 (by decide), b2 2 (by decide), b2 3 (by decide), b2 4 (by decide), b2 5 (by decide),
        b2 6 (by decide), b2 7 (by decide), bitsAt_nil _ _⟩

theorem axisSum_replicate (m k n : Nat) (d : Int) (hn : n ≤ m) (hk : k < 3) :
    axisSum (List.replicate m d) k n = d * ((n + 2 - k) / 3 : Nat) := by
  induction n with
  | zero =>
    have : (0 + 2 - k) / 3 = 0 := by omega
    rw [this]; simp [axisSum]
  | succ n ih =>
    rw [axisSum_succ, ih (by omega)]
    have hg : (List.replicate m d).getD n 0 = d := by
      simp [List.getD_eq_getElem?_getD, show n < m by omega]
    by_cases h : n % 3 = k
    · rw [if_pos h, hg, show (n + 1 + 2 - k) / 3 = (n + 2 - k) / 3 + 1 by omega]
      push_cast; ring
    · rw [if_neg h, show (n + 1 + 2 - k) / 3 = (n + 2 - k) / 3 by omega]; simp

theorem witness_MagOverflow :
    MagProgress overflowState 8388607 0 0 (List.replicate (2 * 90) 35520480) (8 * 0x100 + 24 * 90)
      ∧ overflowState.owptr.toNat + 3 * (1 + (List.replicate (2 * 90) (35520480 : Int)).length / 3) ≤ 32768
      ∧ ¬ LimitReached overflowState (1 + (List.replicate (2 * 90) (35520480 : Int)).length / 3)
      ∧ MagDeltaAt overflowState (8 * 0x100 + 24 * 90) 35520480 (8 * 0x100 + 24 * 90 + 12)
      ∧ ¬ FitsWord (8388607 + axisSum (List.replicate (2 * 90) 35520480) 0 (2 * 90) + 35520480) := by
  have hbuf : overflowState.buf
      = (bytesFrom 0x100 (deltaPairs 90 ++ [0x0F#8, 0xF0#8, 0xFF#8])).writeList 0 overflowHeader := by
    simp only [overflowState, magStateOf]
  have hl : (deltaPairs 90).length = 270 := length_deltaPairs 90
  have hh : BytesAt overflowState.buf 0 overflowHeader := by rw [hbuf]; exact bytesAt_writeList _ _ _
  have hb : BytesAt overflowState.buf 0x100 (deltaPairs 90 ++ [0x0F#8, 0xF0#8, 0xFF#8]) := by
    intro k hk
    rw [hbuf, Memory.read_writeList_outside _ _ (.inr (by simp [overflowHeader]; omega))]
    exact bytesAt_writeList _ _ _ k hk
  have hp : BytesAt overflowState.buf 0x100 (deltaPairs 90) := by
    intro k hk
    rw [hb k (by simp; omega), List.getElem_append_left hk]
  have h0 : overflowState.buf.read 526 = some 0x0F#8 := by
    rw [show 526 = 0x100 + 270 by rfl, hb 270 (by simp [hl]), List.getElem_append_right (by omega)]
    simp [hl]
  have h1 : overflowState.buf.read 527 = some 0xF0#8 := by
    rw [show 527 = 0x100 + 271 by rfl, hb 271 (by simp [hl]), List.getElem_append_right (by omega)]
    simp [hl]
  have b0 : ∀ k, k < 8 → BitAt overflowState (8 * 526 + k) ((0x0F#8).getLsbD (7 - k)) :=
    fun k => bitAt_of_byte h0
  have b1 : ∀ k, k < 8 → BitAt overflowState (8 * 527 + k) ((0xF0#8).getLsbD (7 - k)) :=
    fun k => bitAt_of_byte h1
  have hsum : ∀ k n, k < 3 → n ≤ 180 →
      axisSum (List.replicate (2 * 90) 35520480) k n = 35520480 * ((n + 2 - k) / 3 : Nat) :=
    fun k n hk hn => axisSum_replicate 180 k n _ hn hk
  refine ⟨⟨⟨by decide, by unfold StreamOk; decide, by decide⟩,
      ⟨0x7F#8, 0xFF#8, 0xFF#8, fun j hj => ?_, by decide⟩, ⟨0#8, 0#8, 0#8, fun j hj => ?_, by decide⟩,
      ⟨0#8, 0#8, 0#8, fun j hj => ?_, by decide⟩, magDeltas_pairs rfl rfl 90 0x100 hp (by decide),
      fun n hn => ?_, fun j _ h => h.1 rfl⟩,
    by rw [List.length_replicate]; decide, fun h => h.1 rfl, magDeltaAt_oneKey rfl rfl (by decide) ?_, ?_⟩
  · have hj : j < 3 := hj
    interval_cases j
    exacts [hh 0 (by decide), hh 1 (by decide), hh 2 (by decide)]
  · have hj : j < 3 := hj
    interval_cases j
    exacts [hh 3 (by decide), hh 4 (by decide), hh 5 (by decide)]
  · have hj : j < 3 := hj
    interval_cases j
    exacts [hh 6 (by decide), hh 7 (by decide), hh 8 (by decide)]
  · rw [List.length_replicate] at hn
    rw [hsum 0 n (by decide) (by omega), hsum 1 n (by decide) (by omega), hsum 2 n (by decide) (by omega)]
    unfold FitsWord; omega
  · simp only [bitsAt_cons]
    exact ⟨b0 0 (by decide), b0 1 (by decide), b0 2 (by decide), b0 3 (by decide), b0 4 (by decide),
      b0 5 (by decide), b0 6 (by decide), b0 7 (by decide), b1 0 (by decide), b1 1 (by decide),
      b1 2 (by decide), b1 3 (by decide), bitsAt_nil _ _⟩
  · rw [hsum 0 180 (by decide) (by decide)]
    unfold FitsWord; decide

theorem witness_MagOramFull :
    ∃ s : State, MagProgress s 100 (-100) 0 exDeltas 0x82A ∧ 0 < exDeltas.length
      ∧ exDeltas.length % 3 = 0 ∧ s.owptr.toNat + 3 * (exDeltas.length / 3) ≤ 32768
      ∧ 32768 < s.owptr.toNat + 3 * (1 + exDeltas.length / 3) :=
  ⟨magAt exStream 48 0#32 32765#32, magAt_example _ _ (by decide) (by decide) (by decide +kernel), by decide, by decide,
    by decide, by decide⟩

theorem witness_MagRowPlacement :
    ∃ s t, MagReady s ∧ exec .magPkt s = .next t := by
  obtain ⟨t, ht, -⟩ := next_of_answers (o := exec .magPkt (magAt [] 0 0#32 32765#32)) (p := fun _ => true)
    (by decide +kernel)
  exact ⟨_, t, (magAt_start _ _ _ _ (by decide) (by decide)).1, ht⟩

/-- Room for exactly the rows the stream can hold, on a packet that fills them. -/
theorem witness_MagRowBound :
    ∃ s t, MagReady s ∧ exec .magPkt s = .next t ∧ t.rowcnt = 2#32
      ∧ s.owptr.toNat + 3 * (1 + (s.bitend.toNat - s.bitptr.toNat) / 36) = 32768 := by
  obtain ⟨t, ht, hr⟩ := next_of_answers (o := exec .magPkt (magAt exStream 48 0#32 32762#32))
    (p := fun t => t.rowcnt == 2#32) (by decide +kernel)
  exact ⟨_, t, (magAt_start _ _ _ _ (by decide) (by decide)).1, ht, by simpa using hr, by decide⟩

/-! ### All commands -/

theorem witness_HostRegistersKept : ∃ t, exec .pdInit base = .next t := ⟨_, rfl⟩

theorem witness_EachPieceHasItsWriters :
    ∃ t, exec .sts24b { base with opb := 0xFFFFFFF0#32 } = .next t
      ∧ (Instr.sts24b ≠ .crchdr ∧ Instr.sts24b ≠ .magPkt ∧ Instr.sts24b ≠ .pdStep) :=
  ⟨_, rfl, by decide⟩

theorem witness_ErrorsRecordedExactly :
    (∃ t, exec .pdGap base = .next t)
      ∧ (∃ t, exec (.rdbits 1#5) base = .next t) ∧ ∃ t, exec .ldu16b (atOpa 32767 []) = .next t :=
  ⟨⟨_, rfl⟩, ⟨_, rfl⟩, _, rfl⟩

theorem witness_ErrorCodesPerCommand :
    (Instr.rdbits 1#5).wf = true ∧ ∃ t, exec (.rdbits 1#5) base = .next t ∧ t.status.lastOk = false :=
  ⟨by decide, _, rfl, by decide +kernel⟩

/-- An atomic command, PD_STEP with a fatal and with a decode error, MAG_PKT before and in its loop. -/
theorem witness_ErrorEffects :
    (∃ t, exec .ldu16b (atOpa 32767 []) = .next t ∧ t.status.lastOk = false)
    ∧ (∃ t, exec .pdStep { base with ctrl := { ctrl4 with sect := 8#5 } } = .next t
        ∧ t.status.lastOk = false)
    ∧ (∃ t, exec .pdStep (innerHeader 0x45#8) = .next t ∧ t.status.lastOk = false)
    ∧ (∃ t, ¬ MagReady (atOpa 32760 []) ∧ exec .magPkt (atOpa 32760 []) = .next t
        ∧ t.status.lastOk = false)
    ∧ ∃ t, MagReady (magAt [0x80#8] 8 0#32 0#32) ∧ exec .magPkt (magAt [0x80#8] 8 0#32 0#32) = .next t
        ∧ t.status.lastOk = false :=
  ⟨⟨_, rfl, by decide +kernel⟩, ⟨_, rfl, by decide +kernel⟩, ⟨_, rfl, by decide +kernel⟩,
    ⟨_, fun h => absurd h.1 (by decide), rfl, by decide +kernel⟩,
    _, (magAt_start _ _ _ _ (by decide) (by decide)).1, rfl, by decide +kernel⟩

/-- The first n cells of a memory, all written. -/
def zeros (n : Nat) : Memory := Memory.writeList [] 0 (List.replicate n 0#8)

theorem isSome_zeros (n a : Nat) (ha : a < n) : ((zeros n).read a).isSome := by
  have h := bytesAt_writeList (List.replicate n 0#8) [] 0 a (by simpa using ha)
  rw [Nat.zero_add] at h
  rw [zeros, h]; rfl

theorem filledState (buf acc : Memory) (hb : ∀ a, a < Config.bufBytes → (buf.read a).isSome)
    (ha : ∀ i, i < 64 → (acc.read i).isSome) :
    ∃ s : State, BufFilled s ∧ ChainSound s ∧ s.pdstate.inChain = true :=
  ⟨{ base with
    ctrl := ctrl4, pdstate := { inChain := true, ccount := 8#4 }, buf := buf, acc := acc }, hb,
    ⟨show (8#4).toNat ≤ 9 by decide, fun _ => ⟨show (8#4).toNat ≤ 8 by decide, .inl rfl,
      show (0#8).toNat ≤ 0x55 by decide, ha⟩⟩, rfl⟩

/-- Every byte of BUF written, inside a chain. -/
theorem witness_CommandsAnswer :
    ∃ s : State, BufFilled s ∧ ChainSound s ∧ s.pdstate.inChain = true :=
  filledState (zeros Config.bufBytes) (zeros 64) (isSome_zeros _) (isSome_zeros 64)

theorem witness_CommandFaults :
    exec .ldu16b base = .fault (.unwritten .buf 0)
      ∧ exec .pdStep (pdContState [] [] 0) = .fault (.unwritten .acc 0) := ⟨rfl, rfl⟩

/-- The invariants hold together in a state that is not reset, and a step from it answers. -/
theorem witness_StepKeepsMemories :
    ∃ s t : State, MemoriesCanonical s ∧ RowsWhole s ∧ ChainSound s ∧ ErrorRecordSound s
      ∧ s.errinfo.code ≠ 0#8 ∧ step s = .next t := by
  refine ⟨{ queued [issueEvent 0x30000000#32] with
      errinfo := { code := 0x16#8, op := 0x38#8 }, derrcnt := 1#32
      status := { base.status with derr := true } }, _, ?_, ?_, ?_, ?_, by decide, rfl⟩
  · exact ⟨Memory.wf_nil, Memory.wf_nil, Memory.wf_nil, nofun, nofun, nofun⟩
  · intro w j k _ _; rfl
  · exact ⟨by decide, nofun⟩
  · exact ⟨by decide, by decide⟩

theorem witness_StepKeepsChainSound : ∃ s t : State, ChainSound s ∧ step s = .next t := by
  obtain ⟨s, t, -, -, h, -, -, ht⟩ := witness_StepKeepsMemories
  exact ⟨s, t, h, ht⟩

theorem witness_StepKeepsErrorRecord : ∃ s t : State, ErrorRecordSound s ∧ step s = .next t := by
  obtain ⟨s, t, -, -, -, h, -, ht⟩ := witness_StepKeepsMemories
  exact ⟨s, t, h, ht⟩

end Sys2Proof.Tests
end

section
/-! PROOFS. The state (10_state.md): what the host's accesses do to it, what each command leaves of it, and
the invariants of its memories and of the PD chain. -/

namespace Sys2Proof.StateProofs

open Sys2Proof.Machine Sys2Proof.Safety

/-! ## Register words as the concatenation of their fields -/

/-- The number a concatenation stands for. -/
theorem toNat_append_eq_add {m n : Nat} (x : BitVec m) (y : BitVec n) :
    (x ++ y).toNat = x.toNat * 2 ^ n + y.toNat := by
  rw [BitVec.toNat_append, ← Nat.shiftLeft_add_eq_or_of_lt y.isLt, Nat.shiftLeft_eq]

theorem status_toWord (f : Status) : f.toWord = (BitVec.ofBoolListLE
    [f.derr, f.fatal, f.lastOk, f.crcOk, f.lenOdd, f.pvalid, f.hdr, f.term]).setWidth 32 := by
  apply BitVec.eq_of_toNat_eq
  simp only [Status.toWord, BitVec.ofBoolListLE, BitVec.toNat_ofNat, BitVec.toNat_setWidth,
    BitVec.toNat_concat]
  simp
  omega

theorem ctrl_toWord (c : Ctrl) : c.toWord = 0#8 ++ c.ltidx ++ 0#3 ++ BitVec.ofBool c.mshift
    ++ c.subtag ++ 0#1 ++ BitVec.ofBool c.taghi ++ BitVec.ofBool c.inner ++ c.sect := by
  apply BitVec.eq_of_toNat_eq
  simp only [Ctrl.toWord, BitVec.toNat_ofNat, toNat_append_eq_add, BitVec.toNat_ofBool]
  have := c.inner.toNat_le
  have := c.taghi.toNat_le
  have := c.mshift.toNat_le
  omega

theorem crcCfg_toWord (c : CrcCfg) : c.toWord = 0#6 ++ BitVec.ofBool c.refout
    ++ BitVec.ofBool c.refin ++ c.xorout ++ c.init ++ c.poly := by
  apply BitVec.eq_of_toNat_eq
  simp only [CrcCfg.toWord, BitVec.toNat_ofNat, toNat_append_eq_add, BitVec.toNat_ofBool]
  have := c.refin.toNat_le
  have := c.refout.toNat_le
  omega

theorem pdState_toWord (p : PdState) :
    p.toWord = 0#24 ++ p.ccount ++ 0#3 ++ BitVec.ofBool p.inChain := by
  apply BitVec.eq_of_toNat_eq
  simp only [PdState.toWord, BitVec.toNat_ofNat, toNat_append_eq_add, BitVec.toNat_ofBool]
  have := p.inChain.toNat_le
  omega

theorem errInfo_toWord (e : ErrInfo) : e.toWord = 0#16 ++ e.op ++ e.code := by
  apply BitVec.eq_of_toNat_eq
  simp only [ErrInfo.toWord, BitVec.toNat_ofNat, toNat_append_eq_add]
  omega

theorem huffEntry_toWord (e : HuffEntry) : e.toWord
    = BitVec.ofBool e.valid ++ 0#3 ++ e.len ++ e.pat ++ 0#4 ++ e.code := by
  apply BitVec.eq_of_toNat_eq
  simp only [HuffEntry.toWord, BitVec.toNat_ofNat, toNat_append_eq_add, BitVec.toNat_ofBool]
  have := e.valid.toNat_le
  omega

theorem ctrl_toWord_ofWord (w : Word) : (Ctrl.ofWord w).toWord = w &&& 0x00FF1F7F#32 := by
  rw [ctrl_toWord]
  refine BitVec.eq_of_getLsbD_eq fun i hi => ?_
  simp only [Ctrl.ofWord, BitVec.getLsbD_append, BitVec.getLsbD_and, BitVec.getLsbD_extractLsb']
  interval_cases i <;> simp

theorem crcCfg_toWord_ofWord (w : Word) : (CrcCfg.ofWord w).toWord = w &&& 0x03FFFFFF#32 := by
  rw [crcCfg_toWord]
  refine BitVec.eq_of_getLsbD_eq fun i hi => ?_
  simp only [CrcCfg.ofWord, BitVec.getLsbD_append, BitVec.getLsbD_and, BitVec.getLsbD_extractLsb']
  interval_cases i <;> simp

theorem huffEntry_toWord_ofWord (w : Word) : (HuffEntry.ofWord w).toWord = w &&& 0x8FFFF0FF#32 := by
  rw [huffEntry_toWord]
  refine BitVec.eq_of_getLsbD_eq fun i hi => ?_
  simp only [HuffEntry.ofWord, BitVec.getLsbD_append, BitVec.getLsbD_and, BitVec.getLsbD_extractLsb']
  interval_cases i <;> simp

/-- Settles O17: each word is the sum of its fields at their weights, so it is their concatenation. -/
theorem registerLayouts : Obligations.RegisterLayouts := by
  refine ⟨fun f k => ?_, ctrl_toWord, crcCfg_toWord, pdState_toWord, errInfo_toWord,
    huffEntry_toWord⟩
  rw [status_toWord, BitVec.getLsbD_setWidth, BitVec.getLsbD_ofBoolListLE]
  by_cases hk : k < 32
  · simp [hk]
  · rw [List.getD_eq_default _ _ (by simp; omega)]; simp

/-! ## Host accesses of the registers -/

/-- A register written and then read at its address: the read answers the value the write left. -/
theorem step_write_then_read {s t : State} {a : HostAddr} {c : Csr} {w v : Word}
    {rest : List BusEvent} (hq : s.hostQueue = .write a (.b4 w) :: .read a .b4 :: rest)
    (ha : target a .b4 = some (.csr c))
    (hw : writeCsr c w (takeEvent (.read a .b4 :: rest) s) = .next t)
    (ht : t.hostQueue = .read a .b4 :: rest) (hv : readCsr t c = v) :
    ∃ t u, step s = .next t ∧ step t = .next u ∧ u.readData = some (.b4 v) :=
  ⟨t, _, (step_writeCsr hq ha).trans hw, step_readCsr ht ha, by rw [hv]⟩

/-- Settles O10: CTRL and CRCCFG drop their reserved bits, the other registers keep all 32. -/
theorem registerWritesReadBack : Obligations.RegisterWritesReadBack := by
  intro s w rest c hc hq
  have and_ones : w &&& 0xFFFFFFFF#32 = w := BitVec.and_allOnes
  simp only [List.mem_cons, List.not_mem_nil, or_false] at hc
  rcases hc with rfl | rfl | rfl | rfl | rfl | rfl | rfl | rfl | rfl | rfl | rfl
  · exact step_write_then_read (c := .ctrl) hq (by decide) rfl (by simp)
      (by simp [readCsr, ctrl_toWord_ofWord])
  · exact step_write_then_read (c := .opa) hq (by decide) rfl rfl and_ones.symm
  · exact step_write_then_read (c := .opb) hq (by decide) rfl rfl and_ones.symm
  · exact step_write_then_read (c := .bitptr) hq (by decide) rfl rfl and_ones.symm
  · exact step_write_then_read (c := .bitend) hq (by decide) rfl rfl and_ones.symm
  · exact step_write_then_read (c := .crccfg) hq (by decide) rfl rfl (crcCfg_toWord_ofWord w)
  · exact step_write_then_read (c := .owptr) hq (by decide) rfl rfl and_ones.symm
  · exact step_write_then_read (c := .pdMark) hq (by decide) rfl rfl and_ones.symm
  · exact step_write_then_read (c := .pdTag) hq (by decide) rfl rfl and_ones.symm
  · exact step_write_then_read (c := .pdVals) hq (by decide) rfl rfl and_ones.symm
  · exact step_write_then_read (c := .pdVlen) hq (by decide) rfl rfl and_ones.symm

theorem sameStream_iff (c d : Ctrl) : c.sameStream d = true ↔ c.sect = d.sect ∧ c.inner = d.inner
    ∧ c.taghi = d.taghi ∧ c.subtag = d.subtag ∧ c.ltidx = d.ltidx := by
  simp [Ctrl.sameStream, and_assoc]

/-- A write of CTRL that keeps the stream's configuration leaves PDSTATE (10_state.md R25). -/
theorem writeCtrl_of_sameStream {w : Word} {s : State}
    (h : s.ctrl.sameStream (Ctrl.ofWord w) = true) :
    writeCtrl w s = { s with ctrl := Ctrl.ofWord w } := if_pos h

/-- Any other write of CTRL abandons the chain (10_state.md R25). -/
theorem writeCtrl_of_changed {w : Word} {s : State}
    (h : s.ctrl.sameStream (Ctrl.ofWord w) = false) :
    writeCtrl w s = seek { s with ctrl := Ctrl.ofWord w } := if_neg (by simp [h])

/-- Settles O11, by whether the fields of R25 are the same. -/
theorem ctrlWriteAbandonsChain : Obligations.CtrlWriteAbandonsChain := by
  intro s w rest hq c changed
  have hstep : step s = .next (writeCtrl w (takeEvent rest s)) :=
    step_writeCsr (c := .ctrl) hq (by decide)
  have hsame : s.ctrl.sameStream (Ctrl.ofWord w) = true ↔ ¬ changed := by
    rw [sameStream_iff]
    simp only [changed, c, Ctrl.ofWord, not_or, not_not, eq_comm]
  constructor
  · intro h
    have hd : s.ctrl.sameStream (Ctrl.ofWord w) = false :=
      Bool.eq_false_iff.mpr fun hs => hsame.mp hs h
    rw [hstep, writeCtrl_of_changed (s := takeEvent rest s) hd]
    rfl
  · intro h
    rw [hstep, writeCtrl_of_sameStream (s := takeEvent rest s) (hsame.mpr h)]
    rfl

/-- The write 1 to clear of STATUS, bit by bit (10_state.md R27). -/
theorem status_clear_eq (w : Word) (f : Status) : f.clear w = { f with
    derr := if w.getLsbD 0 then false else f.derr
    fatal := if w.getLsbD 1 then false else f.fatal } := by
  have clear_bit : ∀ b c : Bool, (b && !c) = if c then false else b := by decide
  simp only [Status.clear, clear_bit]

/-- Settles O12. -/
theorem statusWriteClears : Obligations.StatusWriteClears := by
  intro s w rest hq
  rw [← status_clear_eq]
  exact step_writeCsr (c := .status) hq (by decide)

/-- Settles O9: each address is that of its register, whose write is a store. -/
theorem registerWritesOnlyStore : Obligations.RegisterWritesOnlyStore := by
  intro s w rest s' writes
  refine ⟨?_, ?_, ?_, ?_, ?_, ?_, ?_, ?_, ?_, ?_, ?_⟩ <;> intro hq
  · exact step_writeCsr (c := .opa) hq (by decide)
  · exact step_writeCsr (c := .opb) hq (by decide)
  · exact step_writeCsr (c := .bitptr) hq (by decide)
  · exact step_writeCsr (c := .bitend) hq (by decide)
  · exact step_writeCsr (c := .owptr) hq (by decide)
  · exact step_writeCsr (c := .pdMark) hq (by decide)
  · exact step_writeCsr (c := .pdTag) hq (by decide)
  · exact step_writeCsr (c := .pdVals) hq (by decide)
  · exact step_writeCsr (c := .pdVlen) hq (by decide)
  · exact step_writeCsr (c := .derrcnt) hq (by decide)
  · exact step_writeCsr (c := .crccfg) hq (by decide)

/-- Settles O13: each address is that of a register, or of a slot, whose write does nothing. -/
theorem readOnlyWritesIgnored : Obligations.ReadOnlyWritesIgnored := by
  rintro s w rest a (ha | ⟨i, hi, rfl⟩) hq
  · simp only [List.mem_cons, List.not_mem_nil, or_false] at ha
    rcases ha with rfl | rfl | rfl | rfl | rfl | rfl | rfl | rfl | rfl | rfl | rfl | rfl
    · exact step_writeCsr (c := .id) hq (by decide)
    · exact step_writeCsr (c := .res) hq (by decide)
    · exact step_writeCsr (c := .res2) hq (by decide)
    · exact step_writeCsr (c := .pdstate) hq (by decide)
    · exact step_writeCsr (c := .pcount) hq (by decide)
    · exact step_writeCsr (c := .errinfo) hq (by decide)
    · exact step_writeCsr (c := .errptr) hq (by decide)
    · exact step_writeCsr (c := .rowcnt) hq (by decide)
    · exact step_writeCsr (c := .maccX) hq (by decide)
    · exact step_writeCsr (c := .maccY) hq (by decide)
    · exact step_writeCsr (c := .maccZ) hq (by decide)
    · exact step_writeCsr (c := .spin) hq (by decide)
  · exact step_write hq (target_acc hi)

/-- Settles O15: a read goes to a target, which answers data of the access's size or faults. -/
theorem readsHaveNoSideEffect : Obligations.ReadsHaveNoSideEffect := by
  intro s t a n rest hq hs
  cases ht : target a n with
  | none => simp [step, hq, perform, ht] at hs
  | some tg =>
    rw [step_read hq ht] at hs
    rcases readTarget_cases (takeEvent rest s) ht with ⟨d, hd, hr⟩ | ⟨sp, i, hr⟩ <;>
      rw [hr] at hs <;> cases hs
    exact ⟨d, hd, rfl⟩

theorem step_readHuff {s : State} (t : Bank) (i : Fin 256) {rest : List BusEvent}
    (hq : s.hostQueue
      = .read (BitVec.ofNat 18 ((if t = .pd then 0x1000 else 0x1400) + 4 * i.val)) .b4 :: rest) :
    step s = .next
      { s with hostQueue := rest, readData := some (.b4 (s.bank t)[i].toWord) } := by
  rw [step_read hq (target_huff t i)]
  cases t <;> rfl

/-- Settles O16: each address is that of its register. -/
theorem registerReadsAnswer : Obligations.RegisterReadsAnswer := by
  intro s rest reads
  refine ⟨?_, ?_, ?_, ?_, ?_, ?_, ?_, ?_, ?_, ?_, ?_, ?_, ?_, ?_, ?_, ?_, ?_, ?_, ?_, ?_, ?_, ?_, ?_,
    ?_, ?_, ?_, fun i => ⟨fun hq => step_readHuff .pd i hq, fun hq => step_readHuff .mag i hq⟩⟩ <;>
    intro hq
  · exact step_readCsr (c := .id) hq (by decide)
  · exact step_readCsr (c := .cmd) hq (by decide)
  · exact step_readCsr (c := .opa) hq (by decide)
  · exact step_readCsr (c := .opb) hq (by decide)
  · exact step_readCsr (c := .bitptr) hq (by decide)
  · exact step_readCsr (c := .bitend) hq (by decide)
  · exact step_readCsr (c := .res) hq (by decide)
  · exact step_readCsr (c := .res2) hq (by decide)
  · exact step_readCsr (c := .pcount) hq (by decide)
  · exact step_readCsr (c := .derrcnt) hq (by decide)
  · exact step_readCsr (c := .errptr) hq (by decide)
  · exact step_readCsr (c := .owptr) hq (by decide)
  · exact step_readCsr (c := .rowcnt) hq (by decide)
  · exact step_readCsr (c := .maccX) hq (by decide)
  · exact step_readCsr (c := .maccY) hq (by decide)
  · exact step_readCsr (c := .maccZ) hq (by decide)
  · exact step_readCsr (c := .pdMark) hq (by decide)
  · exact step_readCsr (c := .pdTag) hq (by decide)
  · exact step_readCsr (c := .pdVals) hq (by decide)
  · exact step_readCsr (c := .pdVlen) hq (by decide)
  · exact step_readCsr (c := .spin) hq (by decide)
  · exact step_readCsr (c := .ctrl) hq (by decide)
  · exact step_readCsr (c := .status) hq (by decide)
  · exact step_readCsr (c := .crccfg) hq (by decide)
  · exact step_readCsr (c := .pdstate) hq (by decide)
  · exact step_readCsr (c := .errinfo) hq (by decide)

/-! ## Host accesses of the memories -/

/-- Settles O18: the new bank is the old one with entry i set. -/
theorem huffmanEntryWrite : Obligations.HuffmanEntryWrite := by
  intro s t i w rest hq
  have hstep : step s = .next ((takeEvent rest s).setHuff t i (HuffEntry.ofWord w)) := by
    rw [step_write hq (target_huff t i)]; simp [writeTarget, BusData.toNat]
  have hsame : ((s.bank t).set i (HuffEntry.ofWord w))[i] = HuffEntry.ofWord w := by simp
  refine ⟨(s.bank t).set i (HuffEntry.ofWord w), ?_, ?_, ?_, ?_, ?_, ?_, fun j hj => ?_⟩
  · rw [hstep]; cases t <;> rfl
  · rw [hsame, huffEntry_toWord_ofWord]
  · rw [hsame]; rfl
  · rw [hsame]; rfl
  · rw [hsame]; rfl
  · rw [hsame]; rfl
  · exact Vector.getElem_set_ne _ _ fun h => hj (Fin.ext h.symm)

theorem step_writeOram {s : State} {k : Nat} {w : Word} {rest : List BusEvent} (hk : k < 32768)
    (hq : s.hostQueue = .write (BitVec.ofNat 18 (0x20000 + 4 * k)) (.b4 w) :: rest) :
    step s = .next
      { s with hostQueue := rest, readData := none, oram := s.oram.writeWord k w } := by
  rw [step_write hq (target_oram hk)]
  simp [writeTarget, BusData.toNat, takeEvent]

theorem step_readOram {s : State} {k : Nat} {w : Word} {rest : List BusEvent} (hk : k < 32768)
    (hq : s.hostQueue = .read (BitVec.ofNat 18 (0x20000 + 4 * k)) .b4 :: rest)
    (hw : OramWord s.oram k w) :
    step s = .next { s with hostQueue := rest, readData := some (.b4 w) } := by
  rw [step_read hq (target_oram hk), readTarget_oram (s := takeEvent rest s) hw]
  rfl

/-- Settles O20, from the read after a write of an ORAM word. -/
theorem oramWriteReadsBack : Obligations.OramWriteReadsBack := by
  constructor
  · intro s k w rest hk hq
    have hw := oramWord_writeWord_same s.oram k w
    exact ⟨s.oram.writeWord k w, step_writeOram hk hq, hw,
      fun _ hx => Memory.read_writeWord_outside _ _ _ hx, step_readOram hk rfl hw⟩
  · intro s k rest hk hq
    refine ⟨fun w hw => step_readOram hk hq hw, fun x hx => ?_⟩
    rw [step_read hq (target_oram hk)]
    simp only [readTarget, takeEvent_oram, readCells_firstUnwritten hx]
    rfl

/-- Settles O21, by whether the slot holds a value. -/
theorem accWindowReads : Obligations.AccWindowReads := by
  intro s i rest hi hq
  rw [step_read hq (target_acc hi)]
  constructor
  · intro v hv
    simp only [readTarget, takeEvent_acc, readCell_of_read hv]
    rfl
  · intro hn
    simp only [readTarget, takeEvent_acc, readCell_error_iff.mpr ⟨hn, rfl⟩]
    rfl

/-! ## Reset -/

/-- CRCCFG after reset reads as the OPEN parameter (log 3). -/
theorem readCsr_reset_crccfg :
    readCsr State.reset .crccfg = Config.crccfgRst.setWidth 32 := by
  refine (crcCfg_toWord _).trans (BitVec.eq_of_getLsbD_eq fun i hi => ?_)
  simp only [State.reset, BitVec.getLsbD_append, BitVec.getLsbD_extractLsb',
    BitVec.getLsbD_setWidth]
  interval_cases i <;> simp

/-- Settles O8, register by register. -/
theorem resetValues : Obligations.ResetValues := by
  refine ⟨fun s rest hq => ?_, fun c hc => ?_, readCsr_reset_crccfg, fun t i => ?_,
    fun a => ⟨rfl, rfl, rfl⟩⟩
  · simp only [step, hq, perform, takeEvent_hostQueue]
  · cases c
    case crccfg => exact absurd rfl hc
    all_goals rfl
  · have h : (State.reset.bank t)[i] = HuffEntry.empty := by cases t <;> simp [State.bank, State.reset]
    rw [h]; rfl

/-- Settles O60: the memories are empty, the chain is seeking, no error is recorded. -/
theorem resetMeetsInvariants : Obligations.ResetMeetsInvariants := by
  refine ⟨⟨Memory.wf_nil, Memory.wf_nil, Memory.wf_nil, nofun, nofun, nofun⟩, fun w j k _ _ => Iff.rfl,
    ⟨by decide, nofun⟩, by decide, fun _ => ⟨rfl, rfl, rfl⟩⟩

/-! ## Every next state of a command -/

/-- What an atomic command can have changed: result registers, BITPTR and flags, or bytes of BUF, or it
has abandoned the PD chain. -/
theorem atomicEffect_cases {s u : State} {i : Instr} (h : AtomicEffect s u i) :
    (∃ r r2 p f, u = { s with res := r, res2 := r2, bitptr := p, status := f }) ∨ WritesBuf s u
      ∨ ∃ f n, u = { seek s with status := f, pcount := n } := by
  cases i with
  | rdbits | rdhuf => obtain ⟨_, _, _, rfl⟩ := h; exact .inl ⟨_, _, _, _, rfl⟩
  | rdsign => obtain ⟨_, _, _, _, rfl⟩ := h; exact .inl ⟨_, _, _, _, rfl⟩
  | ldu16b | lds16b | ldu24b | lds24b | ldu16l => obtain ⟨_, rfl⟩ := h; exact .inl ⟨_, _, _, _, rfl⟩
  | stu16b | sts16b | stu24b | sts24b | swap16 => exact .inr (.inl h)
  | crchdr => obtain ⟨_, _, _, _, rfl⟩ := h; exact .inl ⟨_, _, _, _, rfl⟩
  | pdInit | pdGap => cases h; exact .inr (.inr ⟨_, _, rfl⟩)
  | pdStep | magPkt => exact h.elim

/-- The next states of any command: those of PD_STEP, those of MAG_PKT, or an atomic command that has
completed or has recorded its error. -/
theorem exec_next_cases {i : Instr} {s t : State} (h : exec i s = .next t) :
    (i = .pdStep ∧ PdStepEnd s (.next t)) ∨ (i = .magPkt ∧ MagPktEnd s (.next t))
      ∨ (∃ u, AtomicEffect s u i ∧ t = complete u) ∨ ∃ e ptr, t = recordError i.opcode e ptr s := by
  by_cases hp : i = .pdStep
  · subst hp; exact .inl ⟨rfl, execPdStep_next h⟩
  by_cases hm : i = .magPkt
  · subst hm; exact .inr (.inl ⟨rfl, execMagPkt_next h⟩)
  rcases exec_atomic_next hp hm h with hu | ⟨e, ptr, -, ht⟩
  · exact .inr (.inr (.inl hu))
  · exact .inr (.inr (.inr ⟨e, ptr, ht⟩))

/-! ## What no command writes -/

/-- `s` with every register, flag and memory that some command writes taken from `t`. -/
def withWritten (s t : State) : State :=
  { s with
    status := t.status, bitptr := t.bitptr, res := t.res, res2 := t.res2, pdstate := t.pdstate
    pcount := t.pcount, derrcnt := t.derrcnt, errinfo := t.errinfo, errptr := t.errptr
    owptr := t.owptr, rowcnt := t.rowcnt, maccX := t.maccX, maccY := t.maccY, maccZ := t.maccZ
    spin := t.spin, acc := t.acc, buf := t.buf, oram := t.oram }

/-- A command changes nothing but what `withWritten` lists. -/
theorem exec_withWritten {i : Instr} {s t : State} (h : exec i s = .next t) :
    t = withWritten s t := by
  rcases exec_next_cases h with ⟨-, hend⟩ | ⟨-, hend⟩ | ⟨u, hu, rfl⟩ | ⟨e, ptr, rfl⟩
  · cases hend <;> rfl
  · cases hend <;> rfl
  · rcases atomicEffect_cases hu with ⟨_, _, _, _, rfl⟩ | ⟨_, _, rfl⟩ | ⟨_, _, rfl⟩ <;> rfl
  · rfl

/-- Settles O50: none of the registers named is one that `withWritten` lists. -/
theorem hostRegistersKept : Obligations.HostRegistersKept := by
  intro i s t h
  rw [exec_withWritten h]
  exact ⟨rfl, rfl, rfl, rfl, rfl, rfl, rfl, rfl, rfl, rfl, rfl, rfl, rfl⟩

/-! ## The writers of each piece -/

/-- Every piece of state is as in `s`, unless `i` is one of the commands that write it. -/
def OnlyWriters (i : Instr) (s t : State) : Prop :=
  ((∀ n, i ≠ .rdbits n) → (∀ b, i ≠ .rdhuf b) → (∀ m, i ≠ .rdsign m) →
      (i ∉ [.ldu16b, .lds16b, .ldu24b, .lds24b, .ldu16l, .crchdr] → t.res = s.res)
      ∧ (i ≠ .crchdr → t.res2 = s.res2)
      ∧ (i ∉ [.pdStep, .magPkt] → t.bitptr = s.bitptr))
    ∧ ((∀ m, i ≠ .rdsign m) → i ≠ .magPkt → t.status.term = s.status.term)
    ∧ (i ≠ .crchdr → t.status.crcOk = s.status.crcOk ∧ t.status.lenOdd = s.status.lenOdd)
    ∧ (i ∉ [.pdInit, .pdStep, .pdGap] → t.pdstate = s.pdstate ∧ t.status.pvalid = s.status.pvalid
        ∧ t.status.hdr = s.status.hdr)
    ∧ (i ∉ [.pdInit, .pdStep] → t.pcount = s.pcount)
    ∧ (i ≠ .pdStep → t.spin = s.spin ∧ ∀ a, t.acc.read a = s.acc.read a)
    ∧ (i ≠ .magPkt → t.owptr = s.owptr ∧ t.rowcnt = s.rowcnt ∧ t.maccX = s.maccX ∧ t.maccY = s.maccY
        ∧ t.maccZ = s.maccZ ∧ ∀ a, t.oram.read a = s.oram.read a)
    ∧ (i ∉ [.stu16b, .sts16b, .stu24b, .sts24b, .swap16] → ∀ a, t.buf.read a = s.buf.read a)

theorem onlyWriters_atomic {i : Instr} {s u : State} (h : AtomicEffect s u i) :
    OnlyWriters i s u := by
  unfold OnlyWriters
  cases i with
  | rdbits n => obtain ⟨_, _, _, rfl⟩ := h; simp
  | rdhuf b => obtain ⟨_, _, _, rfl⟩ := h; simp
  | rdsign m => obtain ⟨_, _, _, _, rfl⟩ := h; simp
  | ldu16b | lds16b | ldu24b | lds24b | ldu16l => obtain ⟨_, rfl⟩ := h; simp
  | stu16b | sts16b | stu24b | sts24b | swap16 => obtain ⟨_, _, rfl⟩ := h; simp
  | crchdr => obtain ⟨_, _, _, _, rfl⟩ := h; simp
  | pdInit | pdGap => cases h; simp
  | pdStep | magPkt => exact h.elim

theorem onlyWriters_exec {i : Instr} {s t : State} (h : exec i s = .next t) :
    OnlyWriters i s t := by
  rcases exec_next_cases h with ⟨rfl, hend⟩ | ⟨rfl, hend⟩ | ⟨u, hu, rfl⟩ | ⟨e, ptr, rfl⟩
  · cases hend <;> simp [OnlyWriters]
  · cases hend <;> simp [OnlyWriters]
  · exact show OnlyWriters i s u from onlyWriters_atomic hu
  · simp [OnlyWriters]

/-- Settles O51: the case of each command names what it writes. -/
theorem eachPieceHasItsWriters : Obligations.EachPieceHasItsWriters :=
  fun _ _ _ h => onlyWriters_exec h

/-! ## Faults -/

/-- Settles O56: the faults among the ends of each command; a slot of ACC is read in a legal configuration
only, so its index is below 256. -/
theorem commandFaults : Obligations.CommandFaults := by
  intro i s f h
  by_cases hp : i = .pdStep
  · subst hp
    have hend : PdStepEnd s (.fault f) := h ▸ execPdStep_end s
    cases hend with
    | faultBuf ha hr => exact ⟨_, .inl ⟨rfl, hr, ha⟩⟩
    | faultAcc hc _ ha hr =>
      exact ⟨_, .inr ⟨rfl, hr, lt_of_lt_of_le ha (slotCount_le hc), rfl⟩⟩
  by_cases hm : i = .magPkt
  · subst hm
    have hend : MagPktEnd s (.fault f) := h ▸ execMagPkt_end s
    cases hend with
    | fault ha hr => exact ⟨_, .inl ⟨rfl, hr, ha⟩⟩
  · have hend := h ▸ exec_atomic_end i s hp hm
    cases hend with
    | fault ha hr => exact ⟨_, .inl ⟨rfl, hr, ha⟩⟩

/-! ## The memories -/

/-- The good form of BUF and ACC: canonical, every cell below `n`. -/
def CellsGood (n : Nat) (m : Memory) : Prop := m.wf ∧ ∀ c ∈ m, c.1 < n

theorem cellsGood_writeList {n a : Nat} {m : Memory} {bs : List Byte} (h : CellsGood n m)
    (ha : a + bs.length ≤ n) : CellsGood n (m.writeList a bs) :=
  ⟨Memory.wf_writeList bs h.1 a, Memory.bound_writeList h.2 ha⟩

/-- What O57 asks of a state, memory by memory. -/
structure MemoriesGood (s : State) : Prop where
  buf : CellsGood Config.bufBytes s.buf
  acc : CellsGood Config.accSlots s.acc
  oram : OramGood s.oram

theorem memoriesGood_iff {s : State} : MemoriesGood s ↔ MemoriesCanonical s ∧ RowsWhole s := by
  constructor
  · rintro ⟨⟨hbw, hbb⟩, ⟨haw, hab⟩, how, hob, hrows⟩
    exact ⟨⟨hbw, haw, how, hbb, hab, hob⟩, hrows⟩
  · rintro ⟨⟨hbw, haw, how, hbb, hab, hob⟩, hrows⟩
    exact ⟨⟨hbw, hbb⟩, ⟨haw, hab⟩, how, hob, hrows⟩

theorem memoriesGood_reset : MemoriesGood State.reset :=
  memoriesGood_iff.mpr ⟨resetMeetsInvariants.1, resetMeetsInvariants.2.1⟩

/-- The slots of a period fit ACC: a packet is integrated in a legal configuration only. -/
theorem cellsGood_period {s : State} {values : List Byte} (h : CellsGood Config.accSlots s.acc)
    (hc : PdConfigOk s) (hl : values.length = slotCount s) :
    CellsGood Config.accSlots (s.acc.writeList 0 values) := by
  have hn : slotCount s ≤ Config.accSlots := slotCount_le hc
  exact cellsGood_writeList h (by omega)

theorem memoriesGood_exec {i : Instr} {s t : State} (h : MemoriesGood s)
    (ht : exec i s = .next t) : MemoriesGood t := by
  obtain ⟨hb, ha, ho⟩ := h
  rcases exec_next_cases ht with ⟨-, hend⟩ | ⟨-, hend⟩ | ⟨u, hu, rfl⟩ | ⟨e, ptr, rfl⟩
  · cases hend with
    | header hc hl => exact ⟨hb, cellsGood_period ha hc hl, ho⟩
    | continuation hc _ hl => exact ⟨hb, cellsGood_period ha hc hl, ho⟩
    | fatal | badHeader | badContinuation | skip => exact ⟨hb, ha, ho⟩
  · cases hend with
    | fatal => exact ⟨hb, ha, ho⟩
    | done _ hi | failed _ hi | full _ hi => exact ⟨hb, ha, hi.good ho⟩
  · rcases atomicEffect_cases hu with ⟨_, _, _, _, rfl⟩ | ⟨_, hl, rfl⟩ | ⟨_, _, rfl⟩
    · exact ⟨hb, ha, ho⟩
    · exact ⟨cellsGood_writeList hb hl, ha, ho⟩
    · exact ⟨hb, ha, ho⟩
  · exact ⟨hb, ha, ho⟩

theorem memoriesGood_step {s t : State} (h : MemoriesGood s) (ht : StepEnd s t) :
    MemoriesGood t := by
  obtain ⟨hb, ha, ho⟩ := h
  cases ht with
  | reset rest => exact ⟨memoriesGood_reset.buf, memoriesGood_reset.acc, memoriesGood_reset.oram⟩
  | command rest hx _ => exact memoriesGood_exec (s := takeEvent rest s) ⟨hb, ha, ho⟩ hx
  | ctrl rest w => constructor <;> simpa
  | huff rest b i e => constructor <;> simpa
  | buf rest a bs hl => exact ⟨cellsGood_writeList hb hl, ha, ho⟩
  | oram rest w v hw => exact ⟨hb, ha, oramGood_writeWord ho hw v⟩
  | _ => exact ⟨hb, ha, ho⟩

/-- Settles O57, memory by memory over every next state of a step. -/
theorem stepKeepsMemories : Obligations.StepKeepsMemories := by
  intro s t hc hr hs
  exact memoriesGood_iff.mp (memoriesGood_step (memoriesGood_iff.mpr ⟨hc, hr⟩) (step_next hs))

/-! ## The PD chain -/

/-- The chain invariant speaks of CTRL, PDSTATE and ACC only. -/
theorem chainSound_of_kept {s t : State} (h : ChainSound s) (hc : t.ctrl = s.ctrl)
    (hp : t.pdstate = s.pdstate) (ha : t.acc = s.acc) : ChainSound t := by
  unfold ChainSound slotCount at *
  rwa [hc, hp, ha]

theorem chainSound_of_seeking {t : State} (hp : t.pdstate = { inChain := false, ccount := 0#4 }) :
    ChainSound t := by
  unfold ChainSound
  rw [hp]
  exact ⟨by decide, nofun⟩

/-- A write of CTRL inside a chain leaves the legal configuration as it is or abandons the chain
(10_state.md R25). -/
theorem chainSound_writeCtrl {s : State} (h : ChainSound s) (w : Word) :
    ChainSound (writeCtrl w s) := by
  cases hs : s.ctrl.sameStream (Ctrl.ofWord w) with
  | false => exact chainSound_of_seeking (by simp [hs])
  | true =>
    obtain ⟨hsect, -, -, -, hlt⟩ := (sameStream_iff _ _).mp hs
    rw [writeCtrl_of_sameStream hs]
    unfold ChainSound slotCount at *
    rwa [hsect, hlt] at h

/-- Loading a period writes every slot of it. -/
theorem isSome_read_period {m : Memory} {values : List Byte} {i : Nat} (hi : i < values.length) :
    ((m.writeList 0 values).read i).isSome := by
  rw [Memory.read_writeList, if_pos (by omega)]
  simpa using hi

theorem chainSound_header {s t : State} {values : List Byte} (hc : PdConfigOk s)
    (hl : values.length = slotCount s) (htc : t.ctrl = s.ctrl)
    (htp : t.pdstate = { inChain := true, ccount := 0#4 })
    (hta : t.acc = s.acc.writeList 0 values) : ChainSound t := by
  unfold ChainSound slotCount
  rw [htc, htp, hta]
  exact ⟨by decide, fun _ => ⟨by decide, hc.1, hc.2, fun i hi => isSome_read_period (hl ▸ hi)⟩⟩

/-- A ninth continuation ends the chain, any other leaves room for one more (43_pd_integrator.md R158,
R159). -/
theorem advanceChain_bounds {p : PdState} (h : p.ccount.toNat ≤ 8) :
    (advanceChain p).ccount.toNat ≤ 9
      ∧ ((advanceChain p).inChain = true → (advanceChain p).ccount.toNat ≤ 8) := by
  have hn : (p.ccount + 1#4).toNat = p.ccount.toNat + 1 := by
    rw [BitVec.toNat_add, BitVec.toNat_ofNat]; omega
  refine ⟨by simp only [advanceChain]; omega, fun hi => ?_⟩
  simp only [advanceChain, Bool.and_eq_true, bne_iff_ne] at hi ⊢
  have h9 : (p.ccount + 1#4).toNat ≠ 9 := fun he => hi.2 (BitVec.eq_of_toNat_eq he)
  omega

theorem chainSound_continuation {s t : State} {new : List Byte} (h : ChainSound s)
    (hc : PdConfigOk s) (hi : s.pdstate.inChain = true) (hl : new.length = slotCount s)
    (htc : t.ctrl = s.ctrl) (htp : t.pdstate = advanceChain s.pdstate)
    (hta : t.acc = s.acc.writeList 0 new) : ChainSound t := by
  obtain ⟨h9, h8⟩ := advanceChain_bounds (h.2 hi).1
  unfold ChainSound slotCount
  rw [htc, htp, hta]
  exact ⟨h9, fun hin => ⟨h8 hin, hc.1, hc.2, fun i hi => isSome_read_period (hl ▸ hi)⟩⟩

theorem chainSound_exec {i : Instr} {s t : State} (h : ChainSound s) (ht : exec i s = .next t) :
    ChainSound t := by
  rcases exec_next_cases ht with ⟨-, hend⟩ | ⟨-, hend⟩ | ⟨u, hu, rfl⟩ | ⟨e, ptr, rfl⟩
  · cases hend with
    | header hc hl => exact chainSound_header hc hl rfl rfl rfl
    | continuation hc hi hl => exact chainSound_continuation h hc hi hl rfl rfl rfl
    | badHeader | badContinuation => exact chainSound_of_seeking rfl
    | fatal | skip => exact chainSound_of_kept h rfl rfl rfl
  · cases hend <;> exact chainSound_of_kept h rfl rfl rfl
  · rcases atomicEffect_cases hu with ⟨_, _, _, _, rfl⟩ | ⟨_, _, rfl⟩ | ⟨_, _, rfl⟩
    · exact chainSound_of_kept h rfl rfl rfl
    · exact chainSound_of_kept h rfl rfl rfl
    · exact chainSound_of_seeking rfl
  · exact chainSound_of_kept h rfl rfl rfl

/-- Settles O58: PD_STEP and the writes of CTRL keep the chain sound, the reset input, PD_INIT and PD_GAP
abandon it, and nothing else touches CTRL, PDSTATE or ACC. -/
theorem stepKeepsChainSound : Obligations.StepKeepsChainSound := by
  intro s t h hs
  have taken : ∀ rest, ChainSound (takeEvent rest s) := fun _ => chainSound_of_kept h rfl rfl rfl
  cases step_next hs with
  | reset rest => exact chainSound_of_seeking rfl
  | command rest hx _ => exact chainSound_exec (taken rest) hx
  | ctrl rest w => exact chainSound_writeCtrl (taken rest) w
  | huff rest b i e => exact chainSound_of_kept h (by simp) (by simp) (by simp)
  | _ => exact chainSound_of_kept h rfl rfl rfl

end Sys2Proof.StateProofs
end

section
/-! PROOFS. The host bus (20_memory.md): which accesses are bus errors, and the bytes the accesses of BUF
carry. -/

namespace Sys2Proof.MemoryProofs

open Sys2Proof.Machine Sys2Proof.Safety

/-! ## Bus errors (20_memory.md R61, R64) -/

/-- The address map of the model is the map of the statements: an access that is aligned reaches BUF with any
size, and any other target with 4 bytes. -/
theorem target_ne_none_iff (a : HostAddr) (n : AccessSize) :
    target a n ≠ none ↔ Mapped a.toNat n.bytes := by
  have hb : Config.bufBytes = 32768 := rfl
  unfold target Mapped
  by_cases hal : a.toNat % n.bytes = 0
  case neg => simp [hal]
  rw [if_neg (not_not.mpr hal)]
  by_cases hbuf : 0x10000 ≤ a.toNat ∧ a.toNat < 0x18000
  case pos => rw [if_pos (by omega)]; simp [hal, hbuf]
  rw [if_neg (by omega)]
  cases n with
  | b4 =>
    rw [if_pos rfl, wordTarget_isSome hal]
    exact ⟨fun h => ⟨hal, .inr ⟨rfl, h⟩⟩, fun ⟨_, h⟩ => (h.resolve_left hbuf).2⟩
  | b1 => simp [hbuf, AccessSize.bytes]
  | b2 => simp [hbuf, AccessSize.bytes]

theorem step_read_unmapped {s : State} {a : HostAddr} {n : AccessSize} {rest : List BusEvent}
    (hq : s.hostQueue = .read a n :: rest) (ht : target a n = none) :
    step s = .fault (.busError a) := by
  simp only [step, hq, perform, ht]

theorem step_write_unmapped {s : State} {a : HostAddr} {d : BusData} {rest : List BusEvent}
    (hq : s.hostQueue = .write a d :: rest) (ht : target a d.size = none) :
    step s = .fault (.busError a) := by
  simp only [step, hq, perform, ht]

/-- A read that reaches a target answers, or stops at an unwritten cell. -/
theorem answer_ne_busError (s u : State) {a : HostAddr} {n : AccessSize} {t : Target}
    (ht : target a n = some t) (b : HostAddr) :
    answer (readTarget s n t) u ≠ .fault (.busError b) := by
  rcases readTarget_cases s ht with ⟨d, -, hr⟩ | ⟨sp, i, hr⟩ <;> rw [hr]
  · exact nofun
  · rintro ⟨⟩

/-- A command faults at unwritten cells only, and a word that issues none faults nowhere. -/
theorem issue_ne_busError (w : Word) (s : State) (b : HostAddr) :
    issue w s ≠ .fault (.busError b) := by
  unfold issue
  split
  · exact nofun
  · split
    · exact nofun
    · intro h
      obtain ⟨_, ⟨hf, -⟩ | ⟨hf, -⟩⟩ := StateProofs.commandFaults _ _ _ h <;> cases hf

/-- A write that reaches a target is a store, is ignored, or issues a command word. -/
theorem writeTarget_ne_busError (d : BusData) (s : State) (t : Target) (b : HostAddr) :
    writeTarget d s t ≠ .fault (.busError b) := by
  cases t with
  | csr c =>
    cases c
    case cmd => exact issue_ne_busError _ s b
    all_goals exact nofun
  | huff t i => exact nofun
  | acc i => exact nofun
  | buf x => exact nofun
  | oram w => exact nofun

/-- What an access comes to is the bus error of its own address where no target is, and no bus error where
one is: so it is a bus error exactly where R64 says. -/
theorem eq_busError_iff {o : Host.Outcome State Fault Refusal} {a b : HostAddr} {n : AccessSize}
    (hnone : target a n = none → o = .fault (.busError a))
    (hsome : ∀ t, target a n = some t → o ≠ .fault (.busError b)) :
    o = .fault (.busError b) ↔ b = a ∧ ¬ Mapped a.toNat n.bytes := by
  rw [← target_ne_none_iff, not_ne_iff]
  constructor
  · intro ho
    cases ht : target a n with
    | none =>
      rw [hnone ht] at ho
      cases ho
      exact ⟨rfl, rfl⟩
    | some t => exact absurd ho (hsome t ht)
  · rintro ⟨rfl, ht⟩
    exact hnone ht

/-- Settles O14, by whether the access reaches a target. -/
theorem busErrors : Obligations.BusErrors := by
  refine ⟨fun s a b n rest hq => ?_, fun s a b d rest hq => ?_⟩
  · refine eq_busError_iff (step_read_unmapped hq) fun t ht => ?_
    rw [step_read hq ht]
    exact answer_ne_busError _ _ ht b
  · refine eq_busError_iff (step_write_unmapped hq) fun t ht => ?_
    rw [step_write hq ht]
    exact writeTarget_ne_busError d _ t b

/-! ## Host accesses of BUF (20_memory.md R62, R65, R67) -/

/-- An aligned access inside the buffer goes to BUF. -/
theorem target_lanes {a : Nat} {d : BusData} (hal : a % (laneBytes d).length = 0)
    (hin : a + (laneBytes d).length ≤ 32768) :
    target (BitVec.ofNat 18 (0x10000 + a)) d.size = some (.buf a) := by
  have hpos : 0 < (laneBytes d).length := by cases d <;> simp [laneBytes]
  exact target_buf (by omega) (length_laneBytes d ▸ hal)

theorem step_writeBuf {s : State} {a : Nat} {d : BusData} {rest : List BusEvent}
    (ht : target (BitVec.ofNat 18 (0x10000 + a)) d.size = some (.buf a))
    (hq : s.hostQueue = .write (BitVec.ofNat 18 (0x10000 + a)) d :: rest) :
    step s = .next
      { s with hostQueue := rest, readData := none, buf := s.buf.writeList a (laneBytes d) } := by
  rw [step_write hq ht, writeTarget, leBytes_toNat]
  rfl

theorem step_readBuf {s : State} {a : Nat} {d : BusData} {rest : List BusEvent}
    (ht : target (BitVec.ofNat 18 (0x10000 + a)) d.size = some (.buf a))
    (hq : s.hostQueue = .read (BitVec.ofNat 18 (0x10000 + a)) d.size :: rest)
    (hb : BytesAt s.buf a (laneBytes d)) :
    step s = .next { s with hostQueue := rest, readData := some d } := by
  rw [step_read hq ht, readTarget_buf (s := takeEvent rest s) hb]
  rfl

theorem step_readBuf_unwritten {s : State} {a x : Nat} {n : AccessSize} {rest : List BusEvent}
    (ht : target (BitVec.ofNat 18 (0x10000 + a)) n = some (.buf a))
    (hq : s.hostQueue = .read (BitVec.ofNat 18 (0x10000 + a)) n :: rest)
    (hx : FirstUnwritten s.buf a n.bytes x) : step s = .fault (.unwritten .buf x) := by
  rw [step_read hq ht]
  simp only [readTarget, takeEvent_buf, readCells_firstUnwritten hx]
  rfl

/-- Settles O19: the bytes of the lanes are stored and read in address order, so the second byte of a
4-byte write is what a 1-byte read of the next address answers. -/
theorem bufMixedWidth : Obligations.BufMixedWidth := by
  constructor
  · intro s a d rest hal hin
    have ht := target_lanes hal hin
    refine ⟨fun hq => ?_, fun hq => ⟨step_readBuf ht hq, fun x hx => ?_⟩⟩
    · exact ⟨_, step_writeBuf ht hq, bytesAt_writeList _ _ _,
        fun _ hx => Memory.read_writeList_outside _ _ hx⟩
    · exact step_readBuf_unwritten ht hq (length_laneBytes d ▸ hx)
  · intro s a w rest hal hin hq
    have hbytes := bytesAt_writeList (laneBytes (.b4 w)) s.buf a
    have hsecond : BytesAt (s.buf.writeList a (laneBytes (.b4 w))) (a + 1)
        (laneBytes (.b1 (w.extractLsb' 8 8))) :=
      bytesAt_cons.mpr ⟨hbytes 1 (by simp [laneBytes]), nofun⟩
    exact ⟨_, step_writeBuf (target_lanes (d := .b4 w) hal hin) hq, hbytes,
      fun _ hx => Memory.read_writeList_outside _ _ hx,
      step_readBuf (target_lanes (d := .b1 _) (Nat.mod_one _) (by simp [laneBytes]; omega)) rfl
        hsecond⟩

end Sys2Proof.MemoryProofs
end

section
/-! PROOFS. The encoding of command words (30_encoding.md): decode against encode, the opcode map, the legal
words, and the step that issues a word. -/

namespace Sys2Proof.EncodingProofs

open Sys2Proof.Machine Sys2Proof.Safety

/-! ## Decode and encode (30_encoding.md R81 to R83, R86) -/

/-- A row of format Z gives its own command, and only for argument 0. -/
theorem encode_of_decodeZ {w : Word} {i j : Instr} (h : decodeZ j (argField w) = .ok i)
    (hop : opcodeField w = j.opcode) (hwf : j.wf = true) (harg : j.arg = 0#24) :
    i.wf = true ∧ encode i = w := by
  obtain ⟨hw, rfl⟩ := (decodeZ_iff j i _).mp h
  exact ⟨hwf, (encode_eq_iff i w).mpr ⟨hop, hw.trans harg.symm⟩⟩

/-- A row of format T or M gives one command for argument 0 and one for argument 1. -/
theorem encode_of_decodeBit {w : Word} {i zero one : Instr}
    (h : decodeBit zero one (argField w) = .ok i)
    (hzero : opcodeField w = zero.opcode ∧ zero.wf = true ∧ zero.arg = 0#24)
    (hone : opcodeField w = one.opcode ∧ one.wf = true ∧ one.arg = 1#24) :
    i.wf = true ∧ encode i = w := by
  rw [encode_eq_iff]
  rcases (decodeBit_iff zero one i _).mp h with ⟨hw, rfl⟩ | ⟨hw, rfl⟩
  · obtain ⟨hop, hwf, harg⟩ := hzero
    exact ⟨hwf, hop, hw.trans harg.symm⟩
  · obtain ⟨hop, hwf, harg⟩ := hone
    exact ⟨hwf, hop, hw.trans harg.symm⟩

/-- The row of format B gives RDBITS with a legal count. -/
theorem encode_of_decodeB {w : Word} {i : Instr} (h : decodeB (argField w) = .ok i)
    (hop : opcodeField w = 0x01#8) : i.wf = true ∧ encode i = w := by
  obtain ⟨n, hn, hw, rfl⟩ := (decodeB_iff i _).mp h
  exact ⟨hn, (encode_eq_iff _ w).mpr ⟨hop, hw⟩⟩

/-- A word that decodes is the encoding of the well-formed command it decodes to. -/
theorem encode_of_decode {w : Word} {i : Instr} (h : decode w = .ok i) :
    i.wf = true ∧ encode i = w := by
  unfold decode at h
  split at h
  case h_19 => cases h
  case h_1 hop => exact encode_of_decodeB h hop
  case h_2 hop => exact encode_of_decodeBit h ⟨hop, rfl, rfl⟩ ⟨hop, rfl, rfl⟩
  case h_3 hop => exact encode_of_decodeBit h ⟨hop, rfl, rfl⟩ ⟨hop, rfl, rfl⟩
  all_goals next hop => exact encode_of_decodeZ h hop rfl rfl

/-- The word of a well-formed command decodes to it: each opcode byte selects the row of its command. -/
theorem decode_encode {i : Instr} (h : i.wf = true) : decode (encode i) = .ok i := by
  unfold decode
  rw [opcode_encode, arg_encode]
  cases i with
  | rdbits n => exact (decodeB_iff _ _).mpr ⟨n, h, rfl, rfl⟩
  | rdhuf t =>
    cases t with
    | pd => exact (decodeBit_iff _ _ _ _).mpr (.inl ⟨rfl, rfl⟩)
    | mag => exact (decodeBit_iff _ _ _ _).mpr (.inr ⟨rfl, rfl⟩)
  | rdsign m =>
    cases m with
    | strict => exact (decodeBit_iff _ _ _ _).mpr (.inl ⟨rfl, rfl⟩)
    | terminator => exact (decodeBit_iff _ _ _ _).mpr (.inr ⟨rfl, rfl⟩)
  | _ => exact (decodeZ_iff _ _ _).mpr ⟨rfl, rfl⟩

/-- Settles O1. -/
theorem decodeEncodeAgree : Obligations.DecodeEncodeAgree := by
  intro w i
  constructor
  · exact encode_of_decode
  · rintro ⟨hwf, rfl⟩
    exact decode_encode hwf

/-- Decoding by the two fields of the word. -/
theorem decode_eq_ok_iff (w : Word) (i : Instr) :
    decode w = .ok i ↔ i.wf = true ∧ opcodeField w = i.opcode ∧ argField w = i.arg := by
  rw [decodeEncodeAgree w i, encode_eq_iff]

theorem bitCountLegal_iff (n : BitVec 5) : bitCountLegal n = true ↔ 1 ≤ n.toNat ∧ n.toNat ≤ 16 := by
  simp [bitCountLegal]

/-! ## The opcode map (30_encoding.md R83) -/

/-- A word that is `op << 24` under the mask of an operand of k bits has the opcode `op`, and its argument is
its k low bits. -/
theorem fields_of_and_mask {w : Word} {op : Byte} {k : Nat} (hk : k ≤ 24)
    (h : w &&& BitVec.allOnes 32 <<< k = op ++ 0#24) :
    opcodeField w = op ∧ argField w = (w.extractLsb' 0 k).setWidth 24 := by
  have hbit : ∀ j, k ≤ j → j < 32 → w.getLsbD j = (op ++ 0#24).getLsbD j := by
    intro j hkj hj
    rw [← h, BitVec.getLsbD_and, BitVec.getLsbD_shiftLeft, BitVec.getLsbD_allOnes]
    simp [hj, not_lt.mpr hkj, show j - k < 32 by omega]
  constructor
  · refine BitVec.eq_of_getLsbD_eq fun j hj => ?_
    rw [opcodeField, BitVec.getLsbD_extractLsb', hbit _ (by omega) (by omega),
      BitVec.getLsbD_append]
    simp [hj]
  · refine BitVec.eq_of_getLsbD_eq fun j hj => ?_
    rw [argField, BitVec.getLsbD_extractLsb', BitVec.getLsbD_setWidth, BitVec.getLsbD_extractLsb']
    by_cases hjk : j < k
    · simp [hj, hjk]
    · rw [hbit _ (by omega) (by omega), BitVec.getLsbD_append]
      simp [hj, hjk]

/-- Under the mask of formats T and M the argument is bit 0. -/
theorem fields_of_bit_mask {w : Word} {op : Byte} (h : w &&& 0xFFFFFFFE#32 = op ++ 0#24) :
    opcodeField w = op ∧ argField w = if w.getLsbD 0 then 1#24 else 0#24 := by
  obtain ⟨hop, harg⟩ := fields_of_and_mask (k := 1) (by decide) h
  have hlow : w.extractLsb' 0 1 = BitVec.ofBool (w.getLsbD 0) := by
    refine BitVec.eq_of_getLsbD_eq fun j hj => ?_
    obtain rfl : j = 0 := by omega
    simp
  rw [hop, harg, hlow]
  cases w.getLsbD 0 <;> exact ⟨rfl, rfl⟩

/-- Settles O2: the masks of formats B, T and M leave the operand in the argument, and each word of format Z is
the encoding of its command. -/
theorem opcodeMatchMask : Obligations.OpcodeMatchMask := by
  refine ⟨fun w hmask hlow hhigh => ?_, fun w hmask => ?_, fun w hmask => ?_, fun c hc => ?_⟩
  · exact (decode_eq_ok_iff w _).mpr ⟨(bitCountLegal_iff _).mpr ⟨hlow, hhigh⟩,
      fields_of_and_mask (op := 0x01#8) (k := 5) (by decide) hmask⟩
  · obtain ⟨hop, harg⟩ := fields_of_bit_mask (op := 0x02#8) hmask
    rw [decode_eq_ok_iff, hop, harg]
    split <;> exact ⟨rfl, rfl, rfl⟩
  · obtain ⟨hop, harg⟩ := fields_of_bit_mask (op := 0x03#8) hmask
    rw [decode_eq_ok_iff, hop, harg]
    split <;> exact ⟨rfl, rfl, rfl⟩
  · refine (decodeEncodeAgree c.1 c.2).mpr ?_
    revert c
    decide

/-- Settles O3: each word is the encoding of its command. -/
theorem writtenWordsDecode : Obligations.WrittenWordsDecode := by
  refine ⟨?_, ?_, ?_, ?_, ?_, ?_, ?_, ?_⟩ <;>
    exact (decodeEncodeAgree _ _).mpr ⟨rfl, rfl⟩

/-! ## Legal words (30_encoding.md R87) -/

/-- The commands of format Z, in the order of `formatZOpcodes`. -/
def formatZCommands : List Instr :=
  [.ldu16b, .lds16b, .ldu24b, .lds24b, .ldu16l, .stu16b, .sts16b, .stu24b, .sts24b, .swap16, .crchdr,
    .pdInit, .pdStep, .pdGap, .magPkt]

theorem opcode_formatZCommands : formatZCommands.map Instr.opcode = formatZOpcodes := rfl

theorem formatZCommands_wf_arg : ∀ i ∈ formatZCommands, i.wf = true ∧ i.arg = 0#24 := by decide

/-- A word with opcode byte and argument of a well-formed command is legal. -/
theorem legalWord_of_decode {w : Word} {i : Instr} (h : decode w = .ok i) : LegalWord w := by
  obtain ⟨hwf, hop, harg⟩ := (decode_eq_ok_iff w i).mp h
  unfold LegalWord
  rw [← opcodeField, ← toNat_arg, hop, harg]
  cases i with
  | rdbits n =>
    obtain ⟨hlow, hhigh⟩ := (bitCountLegal_iff n).mp hwf
    have hn : (n.setWidth 24).toNat = n.toNat := BitVec.toNat_setWidth_of_le (by decide)
    exact .inr (.inl ⟨rfl, by rw [Instr.arg, hn]; exact ⟨hlow, hhigh⟩⟩)
  | rdhuf t => exact .inr (.inr ⟨.inl rfl, by cases t <;> decide⟩)
  | rdsign m => exact .inr (.inr ⟨.inr rfl, by cases m <;> decide⟩)
  | _ => exact .inl ⟨by decide, rfl⟩

/-- Each clause of R87 names the command of its word. -/
theorem exists_decode_of_legalWord {w : Word} (h : LegalWord w) : ∃ i, decode w = .ok i := by
  unfold LegalWord at h
  rw [← opcodeField, ← toNat_arg] at h
  simp only [decode_eq_ok_iff]
  rcases h with ⟨hop, harg⟩ | ⟨hop, hlow, hhigh⟩ | ⟨hop, harg⟩
  · rw [← opcode_formatZCommands] at hop
    obtain ⟨i, hi, hop⟩ := List.mem_map.mp hop
    obtain ⟨hwf, hzero⟩ := formatZCommands_wf_arg i hi
    exact ⟨i, hwf, hop.symm, hzero ▸ BitVec.eq_of_toNat_eq harg⟩
  · have hn : ((argField w).setWidth 5).toNat = (argField w).toNat := by
      rw [BitVec.toNat_setWidth]; omega
    refine ⟨.rdbits ((argField w).setWidth 5), ?_, hop, BitVec.eq_of_toNat_eq ?_⟩
    · exact (bitCountLegal_iff _).mpr (hn ▸ ⟨hlow, hhigh⟩)
    · exact (hn ▸ (BitVec.toNat_setWidth_of_le (by decide)).symm)
  · have hbit : argField w = 0#24 ∨ argField w = 1#24 := by bv_omega
    rcases hop with hop | hop <;> rcases hbit with hbit | hbit
    · exact ⟨.rdhuf .pd, rfl, hop, hbit⟩
    · exact ⟨.rdhuf .mag, rfl, hop, hbit⟩
    · exact ⟨.rdsign .strict, rfl, hop, hbit⟩
    · exact ⟨.rdsign .terminator, rfl, hop, hbit⟩

theorem exists_decode_iff_legalWord (w : Word) : (∃ i, decode w = .ok i) ↔ LegalWord w :=
  ⟨fun ⟨_, h⟩ => legalWord_of_decode h, exists_decode_of_legalWord⟩

/-! ## Issuing a word (30_encoding.md R80, R86, R87) -/

theorem issue_of_decode {s : State} {w : Word} {i : Instr} (hf : s.status.fatal = false)
    (hd : decode w = .ok i) : issue w s = exec i s := by
  simp [issue, hf, hd]

theorem issue_of_not_decode {s : State} {w : Word} (hf : s.status.fatal = false)
    (hd : ¬ ∃ i, decode w = .ok i) :
    issue w s = .next (recordError (opcodeField w) .illegal w s) := by
  cases h : decode w with
  | ok i => exact absurd ⟨i, h⟩ hd
  | error e => simp [issue, hf, h]

/-- Settles O4. -/
theorem illegalWordsRecorded : Obligations.IllegalWordsRecorded := by
  refine ⟨exists_decode_iff_legalWord, fun s w rest hq hf hw => ?_, by unfold LegalWord; decide⟩
  have hd : ¬ ∃ i, decode w = .ok i := mt (exists_decode_iff_legalWord w).mp hw
  rw [step_cmd hq, issue_of_not_decode (s := takeEvent rest s) hf hd, recordError_of_fatal rfl]
  rfl

/-- Settles O5. -/
theorem stepRunsDecodedCommand : Obligations.StepRunsDecodedCommand := by
  intro s w i rest hq hf hd
  rw [step_cmd hq, issue_of_decode (s := takeEvent rest s) hf hd]
  rfl

end Sys2Proof.EncodingProofs
end

section
/-! PROOFS. The bitstream family (40_bitstream.md): each of the three commands checks the bounds of the
bitstream, reads one field at BITPTR, and completes in a state the field determines. That shape is said once;
what the field is comes from the laws of `raw`, `huf` and `sign2`. -/

namespace Sys2Proof.BitstreamProofs

open Sys2Proof.Machine Sys2Proof.Safety

/-! ## A command that reads one field of the bitstream -/

/-- `bs_check()`, then the field `r`, then the state that holds its value (the pseudocode of R104, R107 and
R109 in common). -/
def readField {α : Type} (i : Instr) (s : State) (r : Except Stop α) (result : α → State) :
    Host.Outcome State Fault Refusal :=
  runAtomic i s do
    bsCheck s
    let a ← r
    return result a

section
variable {α : Type} {i : Instr} {s : State} {r : Except Stop α} {result : α → State}

theorem readField_bitend (h : 8 * Config.bufBytes < s.bitend.toNat) :
    readField i s r result = .next (afterFatalError i.opcode 0x13#8 s.bitend s) := by
  have hcheck : bsCheck s = .error (.raise .addr s.bitend) := by rw [bsCheck_eq, if_pos h]
  rw [readField, runAtomic_raise (bind_error.mpr (.inl hcheck)), recordError_of_fatal rfl]
  rfl

theorem readField_bitptr (hend : s.bitend.toNat ≤ 8 * Config.bufBytes)
    (h : s.bitend.toNat < s.bitptr.toNat) :
    readField i s r result = .next (afterFatalError i.opcode 0x13#8 s.bitptr s) := by
  have hcheck : bsCheck s = .error (.raise .addr s.bitptr) := by
    rw [bsCheck_eq, if_neg (not_lt.mpr hend), if_pos h]
  rw [readField, runAtomic_raise (bind_error.mpr (.inl hcheck)), recordError_of_fatal rfl]
  rfl

theorem readField_ok (hs : StreamOk s) {a : α} (h : r = .ok a) :
    readField i s r result = .next (succeeded (result a)) :=
  runAtomic_ok (bind_ok.mpr ⟨(), bsCheck_ok_iff.mpr hs, bind_ok.mpr ⟨a, h, rfl⟩⟩)

/-- A decode error of the field at BITPTR leaves its record and nothing else. -/
theorem readField_decodeError (hs : StreamOk s) {e : ErrCode} (he : e.fatal = false)
    (h : r = .error (.raise e (asWord s.bitptr.toNat))) :
    readField i s r result = .next (afterDecodeError i.opcode e.code s.bitptr s) := by
  rw [readField, runAtomic_raise (bind_error.mpr (.inr ⟨(), bsCheck_ok_iff.mpr hs,
    bind_error.mpr (.inl h)⟩)), asWord_toNat, recordError_of_decode he]

end

/-! ## RDBITS (R104) -/

theorem exec_rdbits {n : BitVec 5} (hn : bitCountLegal n = true) (s : State) :
    exec (.rdbits n) s = readField (.rdbits n) s (raw s s.bitptr.toNat n.toNat) fun v => { s with
      res := asWord v, res2 := asWord n.toNat, bitptr := asWord (s.bitptr.toNat + n.toNat) } := by
  have hlegal : checkLegal (.rdbits n) = .ok () := by rw [checkLegal_eq]; exact if_pos hn
  change execRdbits n s = _
  rw [execRdbits, hlegal]
  rfl

theorem encode_rdbits (n : BitVec 5) : encode (.rdbits n) = 0x01000000#32 ||| n.setWidth 32 := by
  revert n; decide

/-- The word of a bit count that is not legal is no legal word (30_encoding.md R87). -/
theorem not_legalWord_rdbits {n : BitVec 5} (hn : n.toNat = 0 ∨ 16 < n.toNat) :
    ¬ LegalWord (encode (.rdbits n)) := by
  rw [← EncodingProofs.exists_decode_iff_legalWord]
  rintro ⟨j, hj⟩
  obtain ⟨hwf, hop, harg⟩ := (EncodingProofs.decode_eq_ok_iff _ j).mp hj
  rw [opcode_encode] at hop
  rw [arg_encode] at harg
  cases j with
  | rdbits m =>
    have hm := (EncodingProofs.bitCountLegal_iff m).mp hwf
    have hnm : n.setWidth 24 = m.setWidth 24 := harg
    bv_omega
  | _ => cases hop

/-- Settles O22. -/
theorem rdbitsResult : Obligations.RdbitsResult := by
  refine fun n s => ⟨fun hn rest hq hf => ?_, fun hlow hhigh => ?_⟩
  · obtain ⟨-, hrecords, -⟩ := EncodingProofs.illegalWordsRecorded
    have hop : (encode (.rdbits n)).extractLsb' 24 8 = 0x01#8 := opcode_encode (.rdbits n)
    rw [← encode_rdbits] at hq ⊢
    rw [hrecords s _ rest hq hf (not_legalWord_rdbits hn), hop]
  · rw [exec_rdbits ((EncodingProofs.bitCountLegal_iff n).mpr ⟨hlow, hhigh⟩)]
    refine ⟨encode_rdbits n, readField_bitend, readField_bitptr, fun hs hshort => ?_,
      fun l hs hl hbits hend => ?_⟩
    · have hraw : raw s s.bitptr.toNat n.toNat = .error (.raise .bitsShort (asWord s.bitptr.toNat)) := by
        rcases raw_cases s s.bitptr.toNat n.toNat with ⟨-, hraw⟩ | ⟨henough, -⟩
        · exact hraw
        · omega
      exact readField_decodeError hs rfl hraw
    · rw [readField_ok hs (raw_ok_iff.mpr ⟨hend, l, hl, hbits, rfl⟩)]
      simp only [asWord, BitVec.ofNat_toNat]
      rfl

/-! ## RDHUF (R107) -/

theorem exec_rdhuf (t : Bank) (s : State) :
    exec (.rdhuf t) s = readField (.rdhuf t) s (huf s t s.bitptr.toNat) fun x => { s with
      res := x.1.setWidth 32, res2 := asWord x.2, bitptr := asWord (s.bitptr.toNat + x.2) } := rfl

theorem le_of_codeAt {s : State} {t : Bank} {p q : Nat} {code : Byte} (h : CodeAt s t p code q) :
    p ≤ q := by
  obtain ⟨l, i, -, -, -, rfl, -⟩ := h
  omega

/-- A code that cannot be read is HUF_SHORT or HUF_LONG (R106). -/
theorem huf_of_codeFails {s : State} {t : Bank} {p : Nat} {code : Byte} (h : CodeFails s t p code) :
    ∃ e : ErrCode, e.fatal = false ∧ e.code = code ∧ huf s t p = .error (.raise e (asWord p)) := by
  rcases h with ⟨rfl, l, hl, hbits, hend, hnone⟩ | ⟨rfl, l, hl, hbits, hend, hnone⟩
  · exact ⟨.hufShort, rfl, rfl, huf_short hl hbits hend hnone⟩
  · exact ⟨.hufLong, rfl, rfl, huf_long hl hbits (hl ▸ hend) hnone⟩

/-- Settles O23. -/
theorem rdhufResult : Obligations.RdhufResult := by
  intro t s
  rw [exec_rdhuf]
  refine ⟨by cases t <;> rfl, readField_bitend, readField_bitptr, fun code hs hfails => ?_,
    fun code q hs hcode => ?_⟩
  · obtain ⟨e, he, rfl, hhuf⟩ := huf_of_codeFails hfails
    exact readField_decodeError hs he hhuf
  · rw [readField_ok hs (huf_of_codeAt hcode)]
    simp only [Nat.add_sub_cancel' (le_of_codeAt hcode)]
    rfl

/-! ## The Huffman round trip (R107 on a bank well formed by 10_state.md R45) -/

/-- In a well-formed bank a key is the first of its value and no shorter key begins it, so the search stops
at it. -/
theorem isFirstKey_of_wellFormed {bank : HuffBank} {i : Fin 256} {key : List Bool}
    (hwf : BankWellFormed bank) (hkey : IsKey bank i key) (hlow : 1 ≤ key.length)
    (hhigh : key.length ≤ 12) : IsFirstKey bank i key := by
  refine ⟨hkey, fun j hj hjkey => ?_, fun k hk hklen j hjkey => ?_⟩
  · have hij := hwf i j key key hlow hhigh hlow hhigh hkey hjkey (List.prefix_refl key)
    exact absurd hj (hij ▸ lt_irrefl j)
  · have hlen : (key.take k).length = k := List.length_take_of_le hklen.le
    obtain rfl := hwf j i (key.take k) key (hlen.symm ▸ hk) (by omega) hlow hhigh hjkey hkey
      (List.take_prefix k key)
    obtain ⟨-, htake, -⟩ := hjkey
    obtain ⟨-, hfull, -⟩ := hkey
    omega

/-- Settles O24. -/
theorem huffmanRoundTrip : Obligations.HuffmanRoundTrip := by
  intro t s i key rest hwf hkey hlow hhigh hs hend hbits
  obtain ⟨hbitsKey, hbitsRest⟩ := bitsAt_append.mp hbits
  have hcode : CodeAt s t s.bitptr.toNat (s.bank t)[i].code (s.bitptr.toNat + key.length) :=
    ⟨key, i, hlow, hhigh, hbitsKey, rfl, by omega, isFirstKey_of_wellFormed hwf hkey hlow hhigh, rfl⟩
  have hptr : (BitVec.ofNat 32 (s.bitptr.toNat + key.length)).toNat = s.bitptr.toNat + key.length := by
    rw [BitVec.toNat_ofNat, Nat.mod_eq_of_lt]
    have := s.bitend.isLt
    omega
  obtain ⟨-, -, -, -, hexec⟩ := rdhufResult t s
  refine ⟨_, hexec _ _ hs hcode, rfl, rfl, ?_, rfl, ?_, ?_⟩
  · rw [Nat.add_sub_cancel_left]
  · exact hend.trans (congrArg (· + rest.length) hptr.symm)
  · exact hptr.symm ▸ hbitsRest

/-! ## RDSIGN (R109) -/

/-- What RDSIGN leaves of a sign pair: the terminator is not consumed. -/
def afterSign (s : State) : Sign → State
  | .term => { s with res := 0#32, res2 := 0#32, status := s.status.setTerm true }
  | sg => { s with
      res := u32 sg.toInt, res2 := 2#32, bitptr := asWord (s.bitptr.toNat + 2)
      status := s.status.setTerm false }

theorem exec_rdsign (m : SignMode) (s : State) : exec (.rdsign m) s
    = readField (.rdsign m) s (sign2 s s.bitptr.toNat m) (afterSign s) := by
  change execRdsign m s = _
  rw [execRdsign, readField]
  congr 2
  funext _
  congr 1
  funext sg
  cases sg <;> rfl

/-- Settles O25. -/
theorem rdsignResult : Obligations.RdsignResult := by
  intro m s
  rw [exec_rdsign]
  refine ⟨by cases m <;> rfl, readField_bitend, readField_bitptr, fun hs hshort => ?_,
    fun hs hend => ⟨fun hbits => ?_, fun hbits => ?_, fun hbits => ?_, fun hbits => ?_⟩⟩
  · exact readField_decodeError hs rfl (sign2_short m hshort)
  · exact readField_ok hs (sign2_of_bits m hend hbits)
  · exact readField_ok hs (sign2_of_bits m hend hbits)
  · exact readField_decodeError hs rfl (sign2_of_bits m hend hbits)
  · cases m with
    | strict => exact readField_decodeError hs rfl (sign2_of_bits .strict hend hbits)
    | terminator => exact readField_ok hs (sign2_of_bits .terminator hend hbits)

end Sys2Proof.BitstreamProofs
end

section
/-! PROOFS. The byte-order mux (41_bytecodec.md). Five commands are `unpack` and four are `pack`, so their
errors and effects are those of the two operations; what is left for each is the number its bytes spell and
the range its operand must fit. SWAP16 writes the pairs of one byte string swapped. -/

namespace Sys2Proof.BytecodecProofs

open Sys2Proof.Machine Sys2Proof.Safety Sys2Proof.StateProofs

/-! ## Each command as a case of `unpack` or `pack` -/

theorem exec_ldu16b (s : State) :
    exec .ldu16b s = unpack .ldu16b 2 (fun bs => asWord (beNat bs)) s := rfl

theorem exec_lds16b (s : State) :
    exec .lds16b s = unpack .lds16b 2 (fun bs => u32 (sext 16 (beNat bs))) s := rfl

theorem exec_ldu24b (s : State) :
    exec .ldu24b s = unpack .ldu24b 3 (fun bs => asWord (beNat bs)) s := rfl

theorem exec_lds24b (s : State) :
    exec .lds24b s = unpack .lds24b 3 (fun bs => u32 (sext 24 (beNat bs))) s := rfl

theorem exec_ldu16l (s : State) :
    exec .ldu16l s = unpack .ldu16l 2 (fun bs => asWord (leNat bs)) s := rfl

theorem exec_stu16b (s : State) :
    exec .stu16b s = pack .stu16b 2 (fitsUnsigned 16 s.opb) s := rfl

theorem exec_sts16b (s : State) :
    exec .sts16b s = pack .sts16b 2 (fitsSigned 16 s.opb) s := rfl

theorem exec_stu24b (s : State) :
    exec .stu24b s = pack .stu24b 3 (fitsUnsigned 24 s.opb) s := rfl

theorem exec_sts24b (s : State) :
    exec .sts24b s = pack .sts24b 3 (fitsSigned 24 s.opb) s := rfl

/-! ## The number a byte string spells (R121 to R125) -/

theorem beNat_eq_toNat_append_two (b0 b1 : Byte) : beNat [b0, b1] = (b0 ++ b1).toNat := by
  rw [beNat_two, toNat_append_eq_add]; omega

theorem beNat_eq_toNat_append_three (b0 b1 b2 : Byte) :
    beNat [b0, b1, b2] = (b0 ++ b1 ++ b2).toNat := by
  rw [beNat_three, toNat_append_eq_add, toNat_append_eq_add]; omega

/-- Little-endian is big-endian of the bytes the other way round (00_scope.md R12). -/
theorem leNat_eq_toNat_append_two (b0 b1 : Byte) : leNat [b0, b1] = (b1 ++ b0).toNat := by
  rw [← beNat_eq_toNat_append_two, ← beNat_reverse]; rfl

/-- A number of w bits in a register: zero-extended. -/
theorem asWord_toNat_eq_setWidth {w : Nat} (x : BitVec w) : asWord x.toNat = x.setWidth 32 :=
  BitVec.ofNat_toNat 32 x

/-- `u32(sext_w(...))` of a number of w bits: sign-extended. -/
theorem u32_sext_toNat {w : Nat} (x : BitVec w) : u32 (sext w x.toNat) = x.signExtend 32 := by
  rw [sext, BitVec.ofNat_toNat, BitVec.setWidth_eq]; rfl

theorem setWidth_append_two (b0 b1 : Byte) : (b0 ++ b1).setWidth 32 = 0#16 ++ b0 ++ b1 := by
  apply BitVec.eq_of_toNat_eq
  simp only [BitVec.toNat_setWidth, toNat_append_eq_add, BitVec.toNat_ofNat]
  omega

theorem setWidth_append_three (b0 b1 b2 : Byte) :
    (b0 ++ b1 ++ b2).setWidth 32 = 0#8 ++ b0 ++ b1 ++ b2 := by
  apply BitVec.eq_of_toNat_eq
  simp only [BitVec.toNat_setWidth, toNat_append_eq_add, BitVec.toNat_ofNat]
  omega

/-! ## Unpacking (R121 to R125) -/

/-- Settles O26. -/
theorem unpack16Result : Obligations.Unpack16Result := by
  refine ⟨rfl, rfl, rfl, fun s => ?_⟩
  rw [exec_ldu16b, exec_lds16b, exec_ldu16l]
  refine ⟨fun h => ⟨unpack_addr h, unpack_addr h, unpack_addr h⟩, fun b0 b1 ha hb => ?_⟩
  rw [unpack_ok ha rfl hb, unpack_ok ha rfl hb, unpack_ok ha rfl hb]
  simp only [beNat_eq_toNat_append_two, leNat_eq_toNat_append_two, asWord_toNat_eq_setWidth,
    u32_sext_toNat, setWidth_append_two, and_self]

/-- Settles O27. -/
theorem unpack24Result : Obligations.Unpack24Result := by
  refine ⟨rfl, rfl, fun s => ?_⟩
  rw [exec_ldu24b, exec_lds24b]
  refine ⟨fun h => ⟨unpack_addr h, unpack_addr h⟩, fun b0 b1 b2 ha hb => ?_⟩
  rw [unpack_ok ha rfl hb, unpack_ok ha rfl hb]
  simp only [beNat_eq_toNat_append_three, asWord_toNat_eq_setWidth, u32_sext_toNat,
    setWidth_append_three, and_self]

/-! ## Packing (R126 to R129) -/

theorem fitsUnsigned_iff (w : Nat) (v : Word) : fitsUnsigned w v = true ↔ v.toNat < 2 ^ w :=
  decide_eq_true_iff

/-- The limits of an unsigned operand of w bits, as R126 and R128 write them. -/
theorem fitsUnsigned_eq_false_iff (w : Nat) (v : Word) :
    fitsUnsigned w v = false ↔ 2 ^ w ≤ v.toNat := by
  rw [← Bool.not_eq_true, fitsUnsigned_iff, not_lt]

/-- The limits of a signed operand of w bits, as R127 and R129 write them. -/
theorem fitsSigned_eq_false_iff (w : Nat) (v : Word) : fitsSigned w v = false
    ↔ v.toInt < -(2 : Int) ^ (w - 1) ∨ (2 : Int) ^ (w - 1) - 1 < v.toInt := by
  rw [← Bool.not_eq_true, fitsSigned_iff, not_and_or, not_le, not_le]

/-- What a pack command writes: the n low bytes of OPB at OPA, and no other byte. -/
theorem packed_bytes_and_frame (s : State) (n : Nat) :
    BytesAt (s.buf.writeList s.opa.toNat (beBytes s.opb.toNat n)) s.opa.toNat
        (beBytes s.opb.toNat n)
      ∧ ∀ x, x < s.opa.toNat ∨ s.opa.toNat + n ≤ x →
        (s.buf.writeList s.opa.toNat (beBytes s.opb.toNat n)).read x = s.buf.read x :=
  ⟨bytesAt_writeList _ _ _, fun _ hx => Memory.read_writeList_outside _ _ (by simpa using hx)⟩

/-- Settles O28. -/
theorem pack16Result : Obligations.Pack16Result := by
  refine ⟨rfl, rfl, fun s => ?_⟩
  rw [exec_stu16b, exec_sts16b]
  refine ⟨fun h => ⟨pack_addr h, pack_addr h⟩, fun ha => ⟨fun h => ?_, fun h => ?_,
    s.buf.writeList s.opa.toNat (beBytes s.opb.toNat 2), fun h => ?_, fun hlow hhigh => ?_, ?_⟩⟩
  · exact pack_range ha ((fitsUnsigned_eq_false_iff 16 _).mpr h)
  · exact pack_range ha ((fitsSigned_eq_false_iff 16 _).mpr h)
  · exact pack_ok ha ((fitsUnsigned_iff 16 _).mpr (Nat.lt_succ_of_le h))
  · exact pack_ok ha ((fitsSigned_iff 16 _).mpr ⟨hlow, hhigh⟩)
  · rw [← beBytes_word_two]
    exact packed_bytes_and_frame s 2

/-- Settles O29. -/
theorem pack24Result : Obligations.Pack24Result := by
  refine ⟨rfl, rfl, fun s => ?_⟩
  rw [exec_stu24b, exec_sts24b]
  refine ⟨fun h => ⟨pack_addr h, pack_addr h⟩, fun ha => ⟨fun h => ?_, fun h => ?_,
    s.buf.writeList s.opa.toNat (beBytes s.opb.toNat 3), fun h => ?_, fun hlow hhigh => ?_, ?_⟩⟩
  · exact pack_range ha ((fitsUnsigned_eq_false_iff 24 _).mpr h)
  · exact pack_range ha ((fitsSigned_eq_false_iff 24 _).mpr h)
  · exact pack_ok ha ((fitsUnsigned_iff 24 _).mpr (Nat.lt_succ_of_le h))
  · exact pack_ok ha ((fitsSigned_iff 24 _).mpr ⟨hlow, hhigh⟩)
  · rw [← beBytes_word_three]
    exact packed_bytes_and_frame s 3

/-! ## Packing and then unpacking -/

/-- The values n bytes can spell are those of 8 * n bits. -/
theorem pow_bytes (n : Nat) : 256 ^ n = 2 ^ (8 * n) := (Nat.pow_mul 2 8 n).symm

/-- An unsigned operand that fits n bytes is the number those bytes spell. -/
theorem asWord_beNat_beBytes {n : Nat} {v : Word} (h : fitsUnsigned (8 * n) v = true) :
    asWord (beNat (beBytes v.toNat n)) = v := by
  rw [beNat_beBytes, pow_bytes, Nat.mod_eq_of_lt ((fitsUnsigned_iff _ _).mp h), asWord_toNat]

/-- The low w bits of a signed operand that fits w bits, read as two's complement, are the operand. -/
theorem sext_mod_of_fitsSigned {w : Nat} {v : Word} (hpos : 0 < w) (hw : w ≤ 32)
    (h : fitsSigned w v = true) : sext w (v.toNat % 2 ^ w) = v.toInt := by
  obtain ⟨hlow, hhigh⟩ := (fitsSigned_iff w v).mp h
  have hdvd : (2 ^ w : Nat) ∣ 2 ^ 32 := Nat.pow_dvd_pow 2 hw
  have hpow : (2 : Int) ^ w = 2 * 2 ^ (w - 1) := by rw [← pow_succ', Nat.sub_add_cancel hpos]
  calc sext w (v.toNat % 2 ^ w)
      = ((v.toNat % 2 ^ w : Nat) : Int).bmod (2 ^ w) := BitVec.toInt_ofNat' _
    _ = (v.toNat : Int).bmod (2 ^ w) := by rw [Int.natCast_emod, Int.emod_bmod]
    _ = v.toInt.bmod (2 ^ w) := by rw [BitVec.toInt_eq_toNat_bmod, Int.bmod_bmod_of_dvd hdvd]
    _ = v.toInt := Int.bmod_eq_of_le (by push_cast; omega) (by push_cast; omega)

/-- A signed operand that fits n bytes is the number those bytes spell in two's complement. -/
theorem u32_sext_beNat_beBytes {n : Nat} {v : Word} (hpos : 0 < n) (hn : 8 * n ≤ 32)
    (h : fitsSigned (8 * n) v = true) : u32 (sext (8 * n) (beNat (beBytes v.toNat n))) = v := by
  rw [beNat_beBytes, pow_bytes, sext_mod_of_fitsSigned (by omega) hn h]
  exact BitVec.ofInt_toInt

/-- After a pack that completes, the unpack of as many bytes completes with the value of the bytes
written. -/
theorem unpack_after_pack {i j : Instr} {n : Nat} {fits : Bool} {value : List Byte → Word}
    {s t : State} (hvalue : fits = true → value (beBytes s.opb.toNat n) = s.opb)
    (h : pack i n fits s = .next t) (hl : t.status.lastOk = true) :
    ∃ u, unpack j n value t = .next u ∧ u.status.lastOk = true ∧ u.res = s.opb := by
  obtain ⟨ha, hfits, rfl⟩ := pack_succeeded h hl
  exact ⟨_, unpack_ok ha (length_beBytes _ _) (bytesAt_writeList _ _ _), rfl, hvalue hfits⟩

/-- Settles O30. -/
theorem packThenUnpack : Obligations.PackThenUnpack := by
  simp only [Obligations.PackThenUnpack, List.forall_mem_cons, List.not_mem_nil,
    IsEmpty.forall_iff, implies_true, and_true, exec_stu16b, exec_sts16b, exec_stu24b, exec_sts24b,
    exec_ldu16b, exec_lds16b, exec_ldu24b, exec_lds24b]
  refine ⟨fun _ _ => ?_, fun _ _ => ?_, fun _ _ => ?_, fun _ _ => ?_⟩
  · exact unpack_after_pack (asWord_beNat_beBytes (n := 2))
  · exact unpack_after_pack (u32_sext_beNat_beBytes (n := 2) (by decide) (by decide))
  · exact unpack_after_pack (asWord_beNat_beBytes (n := 3))
  · exact unpack_after_pack (u32_sext_beNat_beBytes (n := 3) (by decide) (by decide))

/-! ## SWAP16 (R130) -/

theorem exec_swap16 (s : State) : exec .swap16 s = execSwap16 s := rfl

theorem execSwap16_addr {s : State} (ha : Config.bufBytes < s.opa.toNat + s.opb.toNat) :
    execSwap16 s = .next (afterFatalError 0x20#8 0x13#8 s.opa s) := by
  rw [execSwap16, runAtomic_raise (bind_error.mpr (.inl (checkInbuf_raise ha))),
    recordError_of_fatal rfl]
  rfl

theorem execSwap16_oddLen {s : State} (ha : s.opa.toNat + s.opb.toNat ≤ Config.bufBytes)
    (hodd : s.opb.toNat % 2 = 1) :
    execSwap16 s = .next (afterFatalError 0x20#8 0x14#8 s.opb s) := by
  rw [execSwap16, if_pos hodd,
    runAtomic_raise (bind_error.mpr (.inr ⟨(), checkInbuf_ok ha, bind_error.mpr (.inl rfl)⟩)),
    recordError_of_fatal rfl]
  rfl

/-- A SWAP16 that completes has swapped the byte string of its range. -/
theorem execSwap16_succeeded {s t : State} (h : execSwap16 s = .next t)
    (hl : t.status.lastOk = true) :
    ∃ bs, s.opa.toNat + s.opb.toNat ≤ Config.bufBytes ∧ s.opb.toNat % 2 = 0
      ∧ bs.length = s.opb.toNat ∧ BytesAt s.buf s.opa.toNat bs
      ∧ t = { succeeded s with buf := s.buf.writeList s.opa.toNat (swapPairs bs) } := by
  have hend := execSwap16_end s
  rw [h] at hend
  clear h
  cases hend with
  | done hdone =>
    obtain ⟨bs, hlen, heven, ha, hb, rfl⟩ := hdone
    exact ⟨bs, hlen ▸ ha, hlen ▸ heven, hlen, hb, rfl⟩
  | raise hmem => cases hl

theorem read_of_bytesAt {m : Memory} {a : Nat} {bs : List Byte} (h : BytesAt m a bs) {k : Nat}
    (hk : k < bs.length) : m.read (a + k) = bs[k]? := by
  rw [h k hk, List.getElem?_eq_getElem hk]

/-- Where the bytes of `bs` are overwritten by those of `swapPairs bs`, each pair has changed places. -/
theorem read_writeList_swapPairs {m : Memory} {a : Nat} {bs : List Byte} (hb : BytesAt m a bs)
    (heven : bs.length % 2 = 0) {k : Nat} (hk : 2 * k + 1 < bs.length) :
    (m.writeList a (swapPairs bs)).read (a + 2 * k) = m.read (a + 2 * k + 1)
      ∧ (m.writeList a (swapPairs bs)).read (a + 2 * k + 1) = m.read (a + 2 * k) := by
  obtain ⟨hfirst, hsecond⟩ := getElem?_swapPairs bs heven k hk
  have hs := bytesAt_writeList (swapPairs bs) m a
  have hlen := length_swapPairs bs
  rw [Nat.add_assoc, read_of_bytesAt hb hk, read_of_bytesAt hb (k := 2 * k) (by omega),
    read_of_bytesAt hs (k := 2 * k) (by omega), read_of_bytesAt hs (by omega)]
  exact ⟨hfirst, hsecond⟩

/-- Settles O31. -/
theorem swap16Result : Obligations.Swap16Result := by
  refine ⟨rfl, fun s => ?_⟩
  rw [exec_swap16]
  refine ⟨execSwap16_addr, fun ha => ⟨execSwap16_oddLen ha, fun heven hwritten => ?_⟩⟩
  obtain ⟨bs, hbs⟩ := readCells_of_written (sp := .buf) (m := s.buf) (a := s.opa.toNat)
    (n := s.opb.toNat) fun i hlow hhigh => by
      obtain ⟨k, rfl⟩ := Nat.exists_eq_add_of_le hlow
      exact hwritten k (by omega)
  obtain ⟨hlen, hb⟩ := readCells_ok_iff.mp hbs
  refine ⟨_, execSwap16_ok ha heven hlen hb, fun k hk => ?_, fun x hx => ?_⟩
  · exact read_writeList_swapPairs hb (hlen ▸ heven) (hlen.symm ▸ hk)
  · exact Memory.read_writeList_outside _ _ (by rwa [length_swapPairs, hlen])

/-- Writing back the bytes that stood in a range undoes whatever was written over them. -/
theorem read_writeList_restored {m : Memory} {a : Nat} {bs cs : List Byte} (hb : BytesAt m a bs)
    (hlen : cs.length = bs.length) (x : Nat) :
    ((m.writeList a cs).writeList a bs).read x = m.read x := by
  by_cases hx : a ≤ x ∧ x < a + bs.length
  · obtain ⟨k, rfl⟩ := Nat.exists_eq_add_of_le hx.1
    have hk : k < bs.length := by omega
    rw [Memory.read_writeList_inside _ _ _ hk, hb k hk]
  · rw [Memory.read_writeList_outside _ _ (by omega), Memory.read_writeList_outside _ _ (by omega)]

/-- Settles O32: the second SWAP16 writes `swapPairs (swapPairs bs) = bs`, the bytes the first one found. -/
theorem swap16TwiceRestores : Obligations.Swap16TwiceRestores := by
  intro s t h hl
  rw [exec_swap16] at h ⊢
  obtain ⟨bs, ha, heven, hlen, hb, rfl⟩ := execSwap16_succeeded h hl
  refine ⟨_, execSwap16_ok (bs := swapPairs bs) ha heven ((length_swapPairs bs).trans hlen)
    (bytesAt_writeList _ _ _), rfl, fun x => ?_⟩
  rw [swapPairs_swapPairs]
  exact read_writeList_restored hb (length_swapPairs bs) x

end Sys2Proof.BytecodecProofs
end

section
/-! PROOFS. The CRC validator (42_crc.md): what CRCHDR computes, the check values of the CRC function, and
the errors of one byte that it reports with every odd polynomial. -/

namespace Sys2Proof.CrcProofs

open Sys2Proof.Machine Sys2Proof.Safety Sys2Proof.BytecodecProofs

/-! ## CRCHDR (R142) -/

theorem exec_crchdr (s : State) : exec .crchdr s = execCrchdr s := rfl

theorem execCrchdr_addr {s : State} (ha : Config.bufBytes < s.opa.toNat + 13) :
    execCrchdr s = .next (afterFatalError 0x28#8 0x13#8 s.opa s) := by
  rw [execCrchdr, runAtomic_raise (bind_error.mpr (.inl (checkInbuf_raise ha))),
    recordError_of_fatal rfl]
  rfl

theorem execCrchdr_ok {s : State} {bytes : List Byte} {stored : Byte}
    (ha : s.opa.toNat + 13 ≤ Config.bufBytes) (hlen : bytes.length = 11)
    (hb : BytesAt s.buf (s.opa.toNat + 1) bytes)
    (hstored : s.buf.read (s.opa.toNat + 12) = some stored) :
    execCrchdr s = .next (complete { s with
      res := (crc8 s.crccfg bytes).setWidth 32
      res2 := u32 (((leNat (bytes.take 2) / 2 : Nat) : Int) - 12)
      status := s.status.crcResult (crc8 s.crccfg bytes == stored)
        (leNat (bytes.take 2) % 2 == 1) }) :=
  runAtomic_ok (bind_ok.mpr ⟨(), checkInbuf_ok ha, bind_ok.mpr ⟨bytes, readCells_of_bytesAt hlen hb,
    bind_ok.mpr ⟨stored, readCell_of_read hstored, rfl⟩⟩⟩)

/-- A CRCHDR that completes has compared the CRC of bytes 1 to 11 with byte 12. -/
theorem execCrchdr_succeeded {s t : State} (h : execCrchdr s = .next t)
    (hl : t.status.lastOk = true) :
    ∃ bytes stored, bytes.length = 11 ∧ BytesAt s.buf (s.opa.toNat + 1) bytes
      ∧ s.buf.read (s.opa.toNat + 12) = some stored
      ∧ t.status.crcOk = (crc8 s.crccfg bytes == stored) := by
  have hend := execCrchdr_end s
  rw [h] at hend
  clear h
  cases hend with
  | done hdone =>
    obtain ⟨bytes, stored, -, -, hlen, -, hb, hstored, rfl⟩ := hdone
    exact ⟨bytes, stored, hlen, hb, hstored, rfl⟩
  | raise hmem => cases hl

/-- The low bit of a little-endian number is that of its first byte. -/
theorem leNat_two_odd (lo hi : Byte) : (leNat [lo, hi] % 2 == 1) = lo.getLsbD 0 := by
  have hparity : (lo.toNat + 256 * hi.toNat) % 2 = lo.toNat % 2 := by omega
  rw [leNat_two, hparity, BitVec.getLsbD, Nat.testBit_zero]
  rfl

/-- Settles O33. -/
theorem crchdrResult : Obligations.CrchdrResult := by
  refine ⟨rfl, fun s => ?_⟩
  rw [exec_crchdr]
  refine ⟨execCrchdr_addr, fun bytes stored lo hi ha hlen hb htake hstored => ?_⟩
  rw [execCrchdr_ok ha hlen hb hstored, htake, leNat_two_odd, leNat_two]
  rfl

/-! ## The CRC function (R141) -/

/-- Settles O34: both values are the run of the 72 shifts. -/
theorem crcCheckValues : Obligations.CrcCheckValues := by
  unfold Obligations.CrcCheckValues
  decide +kernel

/-- Byte strings that agree everywhere but at one place and leave the CRC register the same also agree at
that place: from there on the register would keep the difference. -/
theorem eq_of_crcBytes_eq {c : CrcCfg} (hp : c.poly.getLsbD 0 = true) {bs bs' : List Byte} {r : Byte}
    {i : Nat} (hlen : bs.length = bs'.length) (hagree : ∀ j, j ≠ i → bs[j]? = bs'[j]?)
    (h : bs.foldl (crcByte c) r = bs'.foldl (crcByte c) r) : bs = bs' := by
  induction bs generalizing bs' r i with
  | nil => exact (List.length_eq_zero_iff.mp hlen.symm).symm
  | cons b bs ih =>
    obtain ⟨b', bs', rfl⟩ := List.exists_cons_of_length_eq_add_one hlen.symm
    rw [List.foldl_cons, List.foldl_cons] at h
    cases i with
    | zero =>
      have htail : bs = bs' := List.ext_getElem? fun j => hagree (j + 1) (Nat.succ_ne_zero j)
      subst htail
      rw [crcByte_inj_byte hp (crcBytes_inj_register hp bs _ _ h)]
    | succ i =>
      have hhead : b = b' := Option.some.inj (hagree 0 (Nat.succ_ne_zero i).symm)
      subst hhead
      rw [ih (i := i) (Nat.succ.inj hlen) (fun j hj => hagree (j + 1) (by omega)) h]

/-- Reflecting the result and XORing XOROUT into it lose nothing. -/
theorem crcBytes_eq_of_crc8_eq {c : CrcCfg} {bs bs' : List Byte} (h : crc8 c bs = crc8 c bs') :
    bs.foldl (crcByte c) c.init = bs'.foldl (crcByte c) c.init := by
  have hout := xor_right_cancel h
  split at hout
  · exact rev8_inj hout
  · exact hout

/-- With an odd polynomial, byte strings that agree everywhere but at one place and have the same CRC are
equal. -/
theorem eq_of_crc8_eq {c : CrcCfg} (hp : c.poly.getLsbD 0 = true) {bs bs' : List Byte} {i : Nat}
    (hlen : bs.length = bs'.length) (hagree : ∀ j, j ≠ i → bs[j]? = bs'[j]?)
    (h : crc8 c bs = crc8 c bs') : bs = bs' :=
  eq_of_crcBytes_eq hp hlen hagree (crcBytes_eq_of_crc8_eq h)

/-! ## Errors of one byte -/

/-- Settles O35: were both reports CRCOK = 1, the two byte strings would have the same CRC, and so be
equal. -/
theorem crcDetectsByteErrors : Obligations.CrcDetectsByteErrors := by
  intro s s' t t' k hp hcfg hopa hlow hhigh hdiffer hagree h h' hl hok hl'
  obtain ⟨i, rfl⟩ := Nat.exists_eq_add_of_le' hlow
  rw [exec_crchdr] at h h'
  obtain ⟨bs, stored, hlen, hb, hstored, hcrc⟩ := execCrchdr_succeeded h hl
  obtain ⟨bs', stored', hlen', hb', hstored', hcrc'⟩ := execCrchdr_succeeded h' hl'
  rw [hopa] at hb' hstored'
  have hread : ∀ j, j < 11 → (bs'[j]? = bs[j]?
      ↔ s'.buf.read (s.opa.toNat + (j + 1)) = s.buf.read (s.opa.toNat + (j + 1))) := fun j hj => by
    rw [Nat.add_comm j, ← Nat.add_assoc, read_of_bytesAt hb (hlen ▸ hj),
      read_of_bytesAt hb' (hlen' ▸ hj)]
  have hbytes : ∀ j, j ≠ i → bs'[j]? = bs[j]? := fun j hj => by
    by_cases hj11 : j < 11
    · exact (hread j hj11).mpr (hagree (j + 1) (by omega) (by omega))
    · rw [List.getElem?_eq_none (by omega), List.getElem?_eq_none (by omega)]
  have hcheck : stored' = stored :=
    Option.some.inj (hstored'.symm.trans ((hagree 12 le_rfl (by omega)).trans hstored))
  rw [hcrc', hcfg, hcheck]
  refine beq_eq_false_iff_ne.mpr fun hcrcOk' => hdiffer ((hread i (by omega)).mp ?_)
  have hcrcOk : crc8 s.crccfg bs = stored := eq_of_beq (hcrc.symm.trans hok)
  rw [eq_of_crc8_eq hp (hlen'.trans hlen.symm) hbytes (hcrcOk'.trans hcrcOk.symm)]

end Sys2Proof.CrcProofs
end

section
/-! PROOFS. The particle-detector integrator (43_pd_integrator.md). PD_STEP checks its preconditions, and
then handles a header, a continuation or a packet to skip; each check that fails and each kind of packet has
its lemma here, and the statements are their cases. -/

namespace Sys2Proof.PdProofs

open Sys2Proof.Machine Sys2Proof.Safety

/-! ## PD_INIT and PD_GAP (R152, R161) -/

theorem exec_pdInit (s : State) :
    exec .pdInit s = .next (complete { setPdFlags false false (seek s) with pcount := 0#32 }) := rfl

theorem exec_pdGap (s : State) : exec .pdGap s = .next (complete (setPdFlags false false (seek s))) := rfl

/-- Settles O36. -/
theorem pdInitAndGapResult : Obligations.PdInitAndGapResult :=
  ⟨rfl, rfl, fun s => ⟨exec_pdInit s, exec_pdGap s⟩⟩

/-! ## The configuration check (R151) -/

theorem exec_pdStep (s : State) : exec .pdStep s = execPdStep s := rfl

theorem pdCfgCheck_sect {s : State} (h4 : s.ctrl.sect ≠ 4#5) (h16 : s.ctrl.sect ≠ 16#5) :
    pdCfgCheck s = .error (.raise .cfgSect (s.ctrl.sect.setWidth 32)) := if_pos ⟨h4, h16⟩

theorem pdCfgCheck_ltidx {s : State} (hsect : s.ctrl.sect = 4#5 ∨ s.ctrl.sect = 16#5)
    (hlt : 0x55 < s.ctrl.ltidx.toNat) :
    pdCfgCheck s = .error (.raise .cfgLtidx (s.ctrl.ltidx.setWidth 32)) := by
  rw [pdCfgCheck, if_neg fun h => hsect.elim h.1 h.2]
  exact if_pos hlt

/-- The configuration is the first thing PD_STEP checks. -/
theorem pdPreconditions_of_pdCfgCheck {s : State} {e : Stop} (h : pdCfgCheck s = .error e) :
    pdPreconditions s = .error e := bind_error.mpr (.inl h)

/-- Settles O37. -/
theorem pdConfigErrors : Obligations.PdConfigErrors := by
  intro s
  rw [exec_pdStep]
  exact ⟨fun h4 h16 => execPdStep_fatal rfl (pdPreconditions_of_pdCfgCheck (pdCfgCheck_sect h4 h16)),
    fun hsect hlt =>
      execPdStep_fatal rfl (pdPreconditions_of_pdCfgCheck (pdCfgCheck_ltidx hsect hlt))⟩

/-! ## The address checks (R154) -/

/-- With a legal configuration, the place of the marker byte is checked next. -/
theorem pdPreconditions_of_mark_outside {s : State} (hc : PdConfigOk s)
    (h : Config.bufBytes ≤ s.pdMark.toNat) : pdPreconditions s = .error (.raise .addr s.pdMark) :=
  bind_error.mpr (.inr ⟨(), pdCfgCheck_ok_iff.mpr hc,
    bind_error.mpr (.inl (checkInbuf_raise (Nat.lt_succ_of_le h)))⟩)

theorem pdHeaderChecks_of_tag_outside {s : State} (hi : s.ctrl.inner = true)
    (h : Config.bufBytes ≤ s.pdTag.toNat) : pdHeaderChecks s = .error (.raise .addr s.pdTag) := by
  rw [pdHeaderChecks, if_pos hi]
  exact bind_error.mpr (.inl (checkInbuf_raise (Nat.lt_succ_of_le h)))

theorem pdHeaderChecks_of_values_outside {s : State} (ht : TagAccepted s)
    (hl : s.pdVlen.toNat = slotCount s) (h : Config.bufBytes < s.pdVals.toNat + slotCount s) :
    pdHeaderChecks s = .error (.raise .addr s.pdVals) := by
  obtain ⟨htag, hin⟩ := innerTagOk_of_accepted ht
  rw [pdHeaderChecks_eq hin htag, if_pos (by simp [hl])]
  exact checkInbuf_raise h

theorem pdPreconditions_of_pdHeaderChecks {s : State} {e : Stop} (hc : PdConfigOk s)
    (hm : HeaderMarked s) (h : pdHeaderChecks s = .error e) : pdPreconditions s = .error e := by
  rw [pdPreconditions_of_header hc hm]
  exact bind_error.mpr (.inl h)

theorem bsCheck_bitend {s : State} (h : 8 * Config.bufBytes < s.bitend.toNat) :
    bsCheck s = .error (.raise .addr s.bitend) := if_pos h

theorem bsCheck_bitptr {s : State} (hend : s.bitend.toNat ≤ 8 * Config.bufBytes)
    (h : s.bitend.toNat < s.bitptr.toNat) : bsCheck s = .error (.raise .addr s.bitptr) := by
  rw [bsCheck_eq, if_neg (not_lt.mpr hend), if_pos h]

theorem pdPreconditions_of_bsCheck {s : State} {e : Stop} (hc : PdConfigOk s)
    (hm : ContinuationMarked s) (hi : s.pdstate.inChain = true) (h : bsCheck s = .error e) :
    pdPreconditions s = .error e := by
  rw [pdPreconditions_of_continuation hc hm, if_pos hi]
  exact bind_error.mpr (.inl h)

/-- Settles O38. -/
theorem pdAddressErrors : Obligations.PdAddressErrors := by
  intro s hc
  rw [exec_pdStep]
  refine ⟨fun h => execPdStep_fatal rfl (pdPreconditions_of_mark_outside hc h),
    fun hm => ⟨fun hi h => ?_, fun ht hl h => ?_⟩, fun hm hi => ⟨fun h => ?_, fun hend h => ?_⟩⟩
  · exact execPdStep_fatal rfl
      (pdPreconditions_of_pdHeaderChecks hc hm (pdHeaderChecks_of_tag_outside hi h))
  · exact execPdStep_fatal rfl
      (pdPreconditions_of_pdHeaderChecks hc hm (pdHeaderChecks_of_values_outside ht hl h))
  · exact execPdStep_fatal rfl (pdPreconditions_of_bsCheck hc hm hi (bsCheck_bitend h))
  · exact execPdStep_fatal rfl (pdPreconditions_of_bsCheck hc hm hi (bsCheck_bitptr hend h))

/-! ## A decode error of PD_STEP (60_exceptions.md R206) -/

theorem seek_setPdFlags (hdr : Bool) (s : State) :
    seek (setPdFlags false hdr s) = chainAbandoned hdr s := rfl

theorem finish_abandoned {e : ErrCode} (he : e.fatal = false) (op : Byte) (ptr : Word) (hdr : Bool)
    (s : State) : finish op (.error (.raise e ptr, seek (setPdFlags false hdr s)))
      = .next (afterDecodeError op e.code ptr (chainAbandoned hdr s)) := by
  rw [finish_raise, recordError_of_decode he, seek_setPdFlags]

/-! ## `pd_header()` (R155, R156) -/

theorem innerTagOk_of_rejected {s : State} (h : TagRejected s) :
    innerTagOk s = .ok false ∧ s.pdTag.toNat < Config.bufBytes := by
  obtain ⟨hi, side, ⟨hlt, hside⟩, hne⟩ := h
  rw [innerTagOk_inner hi hside, beq_eq_false_iff_ne.mpr hne]
  exact ⟨rfl, hlt⟩

theorem pdHeader_of_tag_rejected {s : State} (h : innerTagOk s = .ok false) :
    pdHeader s = .error (.raise .pdHdrSubtype s.pdTag, seek s) := by
  rw [pdHeader, h]
  rfl

theorem pdHeader_of_wrong_length {s : State} (h : innerTagOk s = .ok true)
    (hl : s.pdVlen.toNat ≠ slotCount s) :
    pdHeader s = .error (.raise .pdHdrLen s.pdVlen, seek s) := by
  rw [pdHeader, h]
  exact if_pos hl

theorem pdHeader_of_accepted {s : State} {values : List Byte} {spin : BitVec 4}
    (h : innerTagOk s = .ok true) (hl : s.pdVlen.toNat = slotCount s)
    (hvalues : bufBytes s s.pdVals.toNat (slotCount s) = .ok values)
    (hspin : headerSpin s = .ok spin) :
    pdHeader s = .ok (emitPeriod { s with
      acc := s.acc.writeList 0 values
      spin := spin
      pdstate := { inChain := true, ccount := 0#4 } }) := by
  rw [pdHeader, h, hvalues, hspin]
  exact if_neg (not_not_intro hl)

theorem spinNibble_eq_nibble (taghi : Bool) (side : Byte) :
    spinNibble taghi side = nibble (!taghi) side := by cases taghi <;> rfl

/-- SPIN takes the nibble of the side byte that is not the tag, and stays in an outer stream. -/
theorem headerSpin_of_accepted {s : State} {spin : BitVec 4} (h : TagAccepted s)
    (houter : s.ctrl.inner = false → spin = s.spin)
    (hinner : ∀ side, s.ctrl.inner = true → SideByte s side → spin = nibble (!s.ctrl.taghi) side) :
    headerSpin s = .ok spin := by
  by_cases hi : s.ctrl.inner = true
  · obtain ⟨side, hside, -⟩ := h.resolve_left (by simp [hi])
    rw [headerSpin, if_pos hi, readCell_of_read hside.2, hinner side hi hside, ← spinNibble_eq_nibble]
    rfl
  · rw [headerSpin, if_neg hi, houter (Bool.eq_false_iff.mpr hi)]
    rfl

/-- Settles O39. -/
theorem pdHeaderResult : Obligations.PdHeaderResult := by
  refine ⟨rfl, fun s hc hm => ?_⟩
  rw [exec_pdStep]
  refine ⟨fun ht => ?_, fun ht hl => ?_, fun values spin ht hl hv hlen hb houter hinner => ?_⟩
  · obtain ⟨htag, hin⟩ := innerTagOk_of_rejected ht
    have hpd := pdHeader_of_tag_rejected (s := setPdFlags false true s) htag
    rw [execPdStep_header hc hm (fun _ => hin) htag nofun, hpd]
    exact finish_abandoned rfl ..
  · obtain ⟨htag, hin⟩ := innerTagOk_of_accepted ht
    have hpd := pdHeader_of_wrong_length (s := setPdFlags false true s) htag hl
    rw [execPdStep_header hc hm hin htag fun _ h => absurd h hl, hpd]
    exact finish_abandoned rfl ..
  · obtain ⟨htag, hin⟩ := innerTagOk_of_accepted ht
    have hpd := pdHeader_of_accepted (s := setPdFlags false true s) htag hl
      (readCells_of_bytesAt hlen hb) (headerSpin_of_accepted ht houter hinner)
    rw [execPdStep_header hc hm hin htag fun _ _ => hv, hpd]
    exact ⟨_, rfl, bytesAt_writeList _ _ _,
      fun x hx => Memory.read_writeList_outside _ _ (by omega)⟩

/-! ## A packet that is not a header (R157 to R160) -/

/-- The step of the chain counter inside a chain: the ninth continuation is the last (R159). -/
theorem advanceChain_of_inChain {p : PdState} (h : p.inChain = true) :
    advanceChain p = { inChain := decide (p.ccount + 1#4 ≠ 9#4), ccount := p.ccount + 1#4 } := by
  rw [advanceChain, h, Bool.true_and]
  congr 1
  rw [Bool.eq_iff_iff, bne_iff_ne, decide_eq_true_iff]
  rfl

/-- Settles O40. -/
theorem pdContinuationIntegrates : Obligations.PdContinuationIntegrates := by
  intro s old new q hc hm hi _ hs hlen hb hd
  have hnew : new.length = old.length := pdDeltas_length hd
  rw [exec_pdStep, execPdStep_continuation hc hm hi hs hlen hb, pdIntegrate_of_deltas hd,
    advanceChain_of_inChain hi]
  exact ⟨_, rfl, hnew, bytesAt_writeList _ _ _,
    fun x hx => Memory.read_writeList_outside _ _ (by omega)⟩

/-- Settles O41: the slots before the failing one integrate, so the failure is what the integration of the
whole packet answers. -/
theorem pdContinuationFailure : Obligations.PdContinuationFailure := by
  intro s before before' after slot p code ptr hc hm hi hs hlen hb hd hfail
  obtain ⟨e, rfl, he, hslot⟩ := pdIntegrate_failure (vs := after) hfail
  rw [exec_pdStep, execPdStep_continuation hc hm hi hs hlen hb, pdIntegrate_append_error hd hslot]
  exact finish_abandoned he ..

/-- Outside a chain nothing of the packet is read but its marker (R160). -/
theorem execPdStep_skip {s : State} (hc : PdConfigOk s) (hm : ContinuationMarked s)
    (hi : s.pdstate.inChain = false) :
    execPdStep s = .next (complete (setPdFlags false false s)) := by
  have hnot : ¬ s.pdstate.inChain = true := Bool.eq_false_iff.mp hi
  have hp : pdPreconditions s = .ok false := by
    rw [pdPreconditions_of_continuation hc hm, if_neg hnot]
    rfl
  have hpacket : pdPacket false (setPdFlags false false s) = .ok (setPdFlags false false s) := if_neg hnot
  rw [execPdStep, hp]
  exact congrArg (finish 0x31#8) hpacket

/-- Settles O42. -/
theorem pdSeekingSkips : Obligations.PdSeekingSkips :=
  fun _ hc hm hi => execPdStep_skip hc hm hi

end Sys2Proof.PdProofs
end

section
/-! PROOFS. The magnetometer integrator (44_mag_integrator.md). MAG_PKT checks its preconditions, reads the
header triple and then loops over the deltas. The laws take the loop to the end of the deltas that were read
(`execMagPkt_progress`); what its next turn does there is each statement's own case. -/

namespace Sys2Proof.MagProofs

open Sys2Proof.Machine Sys2Proof.Safety

theorem exec_magPkt (s : State) : exec .magPkt s = execMagPkt s := rfl

/-! ## The preconditions (R181) -/

theorem magPreconditions_of_triple_outside {s : State} (h : Config.bufBytes < s.opa.toNat + 9) :
    magPreconditions s = .error (.raise .addr s.opa) := bind_error.mpr (.inl (checkInbuf_raise h))

theorem magPreconditions_of_bsCheck {s : State} {e : Stop}
    (ha : s.opa.toNat + 9 ≤ Config.bufBytes) (h : bsCheck s = .error e) :
    magPreconditions s = .error e :=
  bind_error.mpr (.inr ⟨(), checkInbuf_ok ha, bind_error.mpr (.inl h)⟩)

theorem magPreconditions_of_no_room {s : State} (ha : s.opa.toNat + 9 ≤ Config.bufBytes)
    (hs : StreamOk s) (h : Config.oramWords < s.owptr.toNat + 3) :
    magPreconditions s = .error (.raise .oramFull s.owptr) :=
  bind_error.mpr (.inr ⟨(), checkInbuf_ok ha, bind_error.mpr (.inr ⟨(), bsCheck_ok_iff.mpr hs,
    if_neg fun hroom => not_lt.mpr (room_iff.mp hroom) h⟩)⟩)

/-- A fatal error of the preconditions leaves its record and nothing else. -/
theorem execMagPkt_fatal {s : State} {e : ErrCode} {ptr : Word} (he : e.fatal = true)
    (h : magPreconditions s = .error (.raise e ptr)) :
    execMagPkt s = .next (afterFatalError 0x38#8 e.code ptr s) := by
  rw [execMagPkt, h, ← recordError_of_fatal he]
  rfl

/-- Settles O43. -/
theorem magPreconditionErrors : Obligations.MagPreconditionErrors := by
  intro s
  rw [exec_magPkt]
  refine ⟨fun h => ?_, fun ha => ⟨fun h => ?_, fun hend h => ?_, fun hs h => ?_⟩⟩
  · exact execMagPkt_fatal rfl (magPreconditions_of_triple_outside h)
  · exact execMagPkt_fatal rfl (magPreconditions_of_bsCheck ha (PdProofs.bsCheck_bitend h))
  · exact execMagPkt_fatal rfl (magPreconditions_of_bsCheck ha (PdProofs.bsCheck_bitptr hend h))
  · exact execMagPkt_fatal rfl (magPreconditions_of_no_room ha hs h)

/-! ## Where the loop ends: at a normal end (R189) -/

/-- The terminator ends the loop and is not consumed. -/
theorem magLoop_terminator {s : State} {x y z : Int} {ds : List Int} {n p : Nat} {r : MagRun}
    (fuel : Nat) (h : RunAt s x y z ds n p r) (hl : ¬ LimitReached s (1 + n / 3))
    (hp : p + 2 ≤ s.bitend.toNat) (ht : BitsAt s p [true, true]) :
    magLoop s (fuel + 1) r = .ok (r, true) := by
  rw [magLoop_enter fuel h hl hp, magDelta_terminator hp ht]

/-- Settles O44: the loop reads all the deltas, and what stands behind them ends it. -/
theorem magRunningSums : Obligations.MagRunningSums := by
  intro s x y z ds q term h hroom hend
  obtain ⟨fuel, r, hfuel, hr, hexec⟩ := execMagPkt_progress h hroom
  obtain ⟨fuel, rfl⟩ := Nat.exists_eq_add_one_of_ne_zero (Nat.ne_zero_of_lt hfuel)
  have hloop : magLoop s (fuel + 1) r = .ok (r, term) := by
    rcases hend with ⟨rfl, hstop⟩ | ⟨rfl, hl, hp, ht⟩
    · exact magLoop_stop _ hr hstop
    · exact magLoop_terminator _ hr hl hp ht
  refine ⟨r.oram, ?_, hr.rows⟩
  rw [exec_magPkt, hexec, hloop, ← withMag_at hr rfl, ← hr.pos]
  rfl

/-! ## Where the loop ends: at a delta that raises a decode error (R183, R186, R190) -/

/-- A decode error at the delta behind those already read keeps the run as it was before that delta. -/
theorem exec_magPkt_decodeError {s : State} {x y z : Int} {ds : List Int} {q : Nat} {e : ErrCode}
    {ptr : Nat} (h : MagProgress s x y z ds q)
    (hroom : s.owptr.toNat + 3 * (1 + ds.length / 3) ≤ Config.oramWords) (he : e.fatal = false)
    (hturn : ∀ fuel r, RunAt s x y z ds ds.length q r →
      magLoop s (fuel + 1) r = .error (.raise e (asWord ptr), r)) :
    ∃ m, exec .magPkt s = .next (afterDecodeError 0x38#8 e.code (BitVec.ofNat 32 ptr)
        (magState s x y z ds (1 + ds.length / 3) m false))
      ∧ MagRows s x y z ds (1 + ds.length / 3) m := by
  obtain ⟨fuel, r, hfuel, hr, hexec⟩ := execMagPkt_progress h hroom
  obtain ⟨fuel, rfl⟩ := Nat.exists_eq_add_one_of_ne_zero (Nat.ne_zero_of_lt hfuel)
  refine ⟨r.oram, ?_, hr.rows⟩
  rw [exec_magPkt, hexec, hturn fuel r hr, ← withMag_at hr rfl, ← recordError_of_decode he]
  rfl

/-- Settles O45. -/
theorem magDecodeFailure : Obligations.MagDecodeFailure := by
  intro s x y z ds q code ptr h hroom hl hfail
  obtain ⟨e, rfl, he, hdelta⟩ := magDelta_failure hfail
  refine exec_magPkt_decodeError h hroom he fun fuel r hr => ?_
  rw [magLoop_enter fuel hr hl (magFailure_le hfail), hdelta]

/-- A delta that would take its axis out of the 32-bit range is not added (R186). -/
theorem accumulate_overflow_at {s : State} {x y z d : Int} {ds : List Int} {n p : Nat} {r : MagRun}
    (h : RunAt s x y z ds n p r)
    (hf : FitsWord (x + axisSum ds 0 n) ∧ FitsWord (y + axisSum ds 1 n)
      ∧ FitsWord (z + axisSum ds 2 n))
    (hover : ¬ FitsWord ((if n % 3 = 0 then x else if n % 3 = 1 then y else z)
      + axisSum ds (n % 3) n + d)) (q : Nat) :
    r.accumulate d q = .error (.raise .magAccOvf (asWord p)) := by
  rw [← runAt_macc h hf.1 hf.2.1 hf.2.2] at hover
  rcases accumulate_cases r d q with ⟨herr, -⟩ | ⟨hfits, -⟩
  · rw [herr, h.pos]
  · exact absurd hfits hover

/-- Settles O46. -/
theorem magOverflow : Obligations.MagOverflow := by
  intro s x y z d ds q q' h hroom hl hd hover
  obtain ⟨-, -, -, -, -, hfits, -⟩ := id h
  refine exec_magPkt_decodeError (e := .magAccOvf) h hroom rfl fun fuel r hr => ?_
  have hp := magDeltaAt_bits hd
  rw [magLoop_enter fuel hr hl (by omega), magDelta_of_deltaAt hd]
  simp only [accumulate_overflow_at hr (hfits _ le_rfl) hover]

/-! ## Where the loop ends: at a triple without room for its row (R184, R190) -/

/-- The first n deltas decide the sums of the first n. -/
theorem axisSum_append {ds es : List Int} {n : Nat} (hn : n ≤ ds.length) (k : Nat) :
    axisSum (ds ++ es) k n = axisSum ds k n := by
  induction n with
  | zero => rfl
  | succ n ih =>
    rw [axisSum_succ, axisSum_succ, ih (by omega), List.getD_append _ _ _ _ (by omega)]

theorem magRows_append {s : State} {x y z : Int} {ds es : List Int} {rows : Nat} {m : Memory}
    (hrows : 3 * rows ≤ ds.length + 3) (h : MagRows s x y z ds rows m) :
    MagRows s x y z (ds ++ es) rows m := by
  obtain ⟨hwords, hframe⟩ := h
  refine ⟨fun r hr => ?_, hframe⟩
  simpa only [axisSum_append (ds := ds) (es := es) (n := 3 * r) (by omega)] using hwords r hr

/-- The run after the first n deltas does not depend on the deltas behind them. -/
theorem runAt_append {s : State} {x y z : Int} {ds es : List Int} {n p : Nat} {r : MagRun}
    (hn : n ≤ ds.length) (h : RunAt s x y z ds n p r) : RunAt s x y z (ds ++ es) n p r where
  pos := h.pos
  axis := h.axis
  sumX := by rw [h.sumX, axisSum_append hn]
  sumY := by rw [h.sumY, axisSum_append hn]
  sumZ := by rw [h.sumZ, axisSum_append hn]
  owptr := h.owptr
  rowcnt := h.rowcnt
  room := h.room
  rows := magRows_append (by omega) h.rows

/-- A packet that got past a delta had got to it. -/
theorem magProgress_of_snoc {s : State} {x y z d : Int} {ds : List Int} {q : Nat}
    (h : MagProgress s x y z (ds ++ [d]) q) :
    ∃ p, MagProgress s x y z ds p ∧ MagDeltaAt s p d q := by
  obtain ⟨hm, hx, hy, hz, hds, hf, hl⟩ := h
  rw [List.length_append, List.length_singleton] at hf hl
  obtain ⟨p, hds, hd⟩ := magDeltas_snoc hds
  refine ⟨p, ⟨hm, hx, hy, hz, hds, fun n hn => ?_, fun j hj => hl j (by omega)⟩, hd⟩
  simpa only [axisSum_append hn] using hf n (by omega)

/-- A row that has no room is not written (R184). -/
theorem rowIfComplete_full {r : MagRun} (ha : r.ax = .x)
    (h : Config.oramWords < r.owptr.toNat + 3) :
    r.rowIfComplete = .error (.raise .oramFull r.owptr) := by
  rw [MagRun.rowIfComplete, if_pos ha, if_neg fun hroom => not_lt.mpr (room_iff.mp hroom) h]

/-- Settles O47: the last delta is added to its axis, and the row it completes is the one that does not
fit. -/
theorem magOramFull : Obligations.MagOramFull := by
  intro s x y z ds q h hpos hmod hroom hfull
  obtain rfl | ⟨ds, d, rfl⟩ := ds.eq_nil_or_concat'
  · exact absurd hpos (lt_irrefl 0)
  obtain ⟨-, -, -, -, -, hf, hlimit⟩ := id h
  obtain ⟨p, hprogress, hd⟩ := magProgress_of_snoc h
  have hlen : (ds ++ [d]).length = ds.length + 1 := by simp
  have hrows : (ds ++ [d]).length / 3 = 1 + ds.length / 3 := by omega
  rw [hrows] at hroom hfull ⊢
  obtain ⟨fuel, r, hfuel, hr, hexec⟩ := execMagPkt_progress hprogress hroom
  obtain ⟨fuel, rfl⟩ := Nat.exists_eq_add_one_of_ne_zero (Nat.ne_zero_of_lt hfuel)
  obtain ⟨r1, hacc, -, hax, hx, hy, hz, howptr, hrowcnt, horam⟩ :=
    accumulate_at (q := q) (runAt_append (es := [d]) le_rfl hr) (hf _ (by omega)) (hf _ (by omega))
  rw [getD_append_self] at hacc
  have hfull1 : r1.rowIfComplete = .error (.raise .oramFull r1.owptr) := by
    refine rowIfComplete_full (by rw [hax, axisOf, if_pos (by omega)]) ?_
    rw [howptr, hr.owptr, BitVec.toNat_ofNat]
    change 32768 < _
    omega
  have hp := magDeltaAt_bits hd
  have hloop : magLoop s (fuel + 1) r = .error (.raise .oramFull r1.owptr, r1) := by
    rw [magLoop_enter fuel hr (hlimit _ (by omega)) (by omega), magDelta_of_deltaAt hd]
    simp only [hacc, hfull1]
  have hstate : withMag r1 false s
      = magState s x y z (ds ++ [d]) (1 + ds.length / 3) r.oram false := by
    simp only [withMag, magState, hx, hy, hz, howptr, hrowcnt, horam, hr.owptr, hr.rowcnt, hlen,
      Status.setTerm]
  refine ⟨r.oram, ?_, magRows_append (by omega) hr.rows⟩
  rw [exec_magPkt, hexec, hloop, ← hstate, ← hr.owptr, ← howptr]
  exact congrArg _ (recordError_of_fatal (e := .oramFull) rfl ..)

/-! ## Row placement (R188) -/

/-- Settles O48: whatever ends the command, its rows, OWPTR and ROWCNT are those of the run, and the run
keeps `RunInv`. -/
theorem magRowPlacement : Obligations.MagRowPlacement := by
  intro s t hm h
  have hend := execMagPkt_next h
  clear h
  cases hend with
  | fatal hnot _ => exact absurd hm hnot
  | done _ hi => exact ⟨hi.rows, hi.owptr, hi.room, hi.frame⟩
  | failed _ hi _ => exact ⟨hi.rows, hi.owptr, hi.room, hi.frame⟩
  | full _ hi _ _ => exact ⟨hi.rows, hi.owptr, hi.room, hi.frame⟩

end Sys2Proof.MagProofs
end

section
/-! PROOFS. The errors of the block (60_exceptions.md): what each command records, which errors it can raise,
what an error leaves of its effects, and what stops it without a next state. What is recorded is read off one
fact, `exec_next_record`: a command completes, or records one error of its list, in a state whose error
registers are still those it started from. -/

namespace Sys2Proof.ExceptionProofs

open Sys2Proof.Machine Sys2Proof.Safety Sys2Proof.StateProofs

/-! ## The codes of the two classes (R201) -/

/-- The codes of the decode class. -/
def decodeCodes : List Byte :=
  [0x01#8, 0x02#8, 0x03#8, 0x04#8, 0x05#8, 0x06#8, 0x07#8, 0x08#8, 0x09#8]

/-- The codes of the fatal class. -/
def fatalCodes : List Byte := [0x10#8, 0x11#8, 0x12#8, 0x13#8, 0x14#8, 0x15#8, 0x16#8]

theorem code_mem_decodeCodes {e : ErrCode} (h : e.fatal = false) : e.code ∈ decodeCodes := by
  cases e with
  | hufShort | hufLong | signBad | signShort | bitsShort | pdRange
  | pdHdrLen | pdHdrSubtype | magAccOvf => decide
  | illegal | cfgSect | cfgLtidx | addr | oddLen | packRange | oramFull => cases h

theorem code_mem_fatalCodes {e : ErrCode} (h : e.fatal = true) : e.code ∈ fatalCodes := by
  cases e with
  | hufShort | hufLong | signBad | signShort | bitsShort | pdRange
  | pdHdrLen | pdHdrSubtype | magAccOvf => cases h
  | illegal | cfgSect | cfgLtidx | addr | oddLen | packRange | oramFull => decide

/-- No error has the code 0, which stands for none. -/
theorem code_ne_zero (e : ErrCode) : e.code ≠ 0x00#8 := by cases e <;> decide

theorem code_mem_knownCodes (e : ErrCode) : e.code ∈ knownCodes := by cases e <;> decide

/-! ## The record of a command -/

/-- The error registers and the error flags of `t` are those of `s`. -/
structure ErrorsKept (s t : State) : Prop where
  errinfo : t.errinfo = s.errinfo
  errptr : t.errptr = s.errptr
  derrcnt : t.derrcnt = s.derrcnt
  derr : t.status.derr = s.status.derr
  fatal : t.status.fatal = s.status.fatal

theorem errorsKept_refl (s : State) : ErrorsKept s s := ⟨rfl, rfl, rfl, rfl, rfl⟩

theorem errorsKept_atomic {i : Instr} {s u : State} (h : AtomicEffect s u i) : ErrorsKept s u := by
  cases i with
  | rdbits | rdhuf => obtain ⟨_, _, _, rfl⟩ := h; exact ⟨rfl, rfl, rfl, rfl, rfl⟩
  | rdsign | crchdr => obtain ⟨_, _, _, _, rfl⟩ := h; exact ⟨rfl, rfl, rfl, rfl, rfl⟩
  | ldu16b | lds16b | ldu24b | lds24b | ldu16l =>
    obtain ⟨_, rfl⟩ := h; exact ⟨rfl, rfl, rfl, rfl, rfl⟩
  | stu16b | sts16b | stu24b | sts24b | swap16 =>
    obtain ⟨_, _, rfl⟩ := h; exact ⟨rfl, rfl, rfl, rfl, rfl⟩
  | pdInit | pdGap => cases h; exact ⟨rfl, rfl, rfl, rfl, rfl⟩
  | pdStep | magPkt => exact h.elim

/-- The errors a command can raise: those of an atomic command, of PD_STEP, of MAG_PKT. -/
def commandErrors : Instr → List ErrCode
  | .pdStep => pdFatalErrors ++ [.pdHdrSubtype, .pdHdrLen] ++ pdDecodeErrors
  | .magPkt => [.addr, .oramFull] ++ magLoopErrors
  | i => atomicErrors i

theorem commandErrors_of_atomic {i : Instr} (hp : i ≠ .pdStep) (hm : i ≠ .magPkt) :
    commandErrors i = atomicErrors i := by
  cases i with
  | pdStep => exact absurd rfl hp
  | magPkt => exact absurd rfl hm
  | _ => rfl

/-- How a command that gives the next state `t` has recorded its end, its own effects having led to `u`. -/
inductive Recorded (i : Instr) (u : State) : State → Prop where
  | completed : Recorded i u (complete u)
  | error {e : ErrCode} (ptr : Word) (h : e ∈ commandErrors i) :
      Recorded i u (recordError i.opcode e ptr u)

theorem pdStep_recorded {s t : State} (h : PdStepEnd s (.next t)) :
    ∃ u, Recorded .pdStep u t ∧ ErrorsKept s u := by
  cases h with
  | fatal he => exact ⟨_, .error _ (by simp [commandErrors, he]), errorsKept_refl s⟩
  | badHeader he =>
    exact ⟨_, .error _ (by rcases he with rfl | rfl <;> simp [commandErrors]),
      ⟨rfl, rfl, rfl, rfl, rfl⟩⟩
  | badContinuation he => exact ⟨_, .error _ (by simp [commandErrors, he]), ⟨rfl, rfl, rfl, rfl, rfl⟩⟩
  | header | continuation | skip => exact ⟨_, .completed, ⟨rfl, rfl, rfl, rfl, rfl⟩⟩

theorem magPkt_recorded {s t : State} (h : MagPktEnd s (.next t)) :
    ∃ u, Recorded .magPkt u t ∧ ErrorsKept s u := by
  cases h with
  | fatal _ he =>
    exact ⟨_, .error _ (by rcases he with rfl | rfl <;> simp [commandErrors]), errorsKept_refl s⟩
  | done => exact ⟨_, .completed, ⟨rfl, rfl, rfl, rfl, rfl⟩⟩
  | failed _ _ he => exact ⟨_, .error _ (by simp [commandErrors, he]), ⟨rfl, rfl, rfl, rfl, rfl⟩⟩
  | full => exact ⟨_, .error _ (by simp [commandErrors]), ⟨rfl, rfl, rfl, rfl, rfl⟩⟩

/-- Every command that gives a next state completes or records one of its errors, and touches the error
registers in no other way. -/
theorem exec_next_record {i : Instr} {s t : State} (h : exec i s = .next t) :
    ∃ u, Recorded i u t ∧ ErrorsKept s u := by
  by_cases hp : i = .pdStep
  · subst hp; exact pdStep_recorded (execPdStep_next h)
  by_cases hm : i = .magPkt
  · subst hm; exact magPkt_recorded (execMagPkt_next h)
  rcases exec_atomic_next hp hm h with ⟨u, hu, rfl⟩ | ⟨e, ptr, he, rfl⟩
  · exact ⟨u, .completed, errorsKept_atomic hu⟩
  · exact ⟨s, .error ptr (by rwa [commandErrors_of_atomic hp hm]), errorsKept_refl s⟩

/-! ## The error record (R201, R203, R204) -/

/-- A state that holds the same ERRINFO, has set no error flag and counted no error has a sound record. -/
theorem errorRecordSound_of_kept {s t : State} (h : ErrorRecordSound s) (hi : t.errinfo = s.errinfo)
    (hd : t.status.derr = true → s.status.derr = true)
    (hf : t.status.fatal = true → s.status.fatal = true)
    (hc : t.derrcnt = s.derrcnt ∨ t.derrcnt = 0#32) : ErrorRecordSound t := by
  obtain ⟨hknown, hnone⟩ := h
  refine ⟨hi ▸ hknown, fun hz => ?_⟩
  obtain ⟨hderr, hfatal, hcnt⟩ := hnone (hi ▸ hz)
  exact ⟨Bool.eq_false_iff.mpr (Bool.eq_false_iff.mp hderr ∘ hd),
    Bool.eq_false_iff.mpr (Bool.eq_false_iff.mp hfatal ∘ hf), hc.elim (·.trans hcnt) id⟩

/-- An error just recorded makes the record sound, whatever it held: its code is one of R201. -/
theorem errorRecordSound_recordError (op : Byte) (e : ErrCode) (ptr : Word) (s : State) :
    ErrorRecordSound (recordError op e ptr s) :=
  ⟨code_mem_knownCodes e, fun hz => absurd hz (code_ne_zero e)⟩

theorem errorRecordSound_exec {i : Instr} {s t : State} (h : ErrorRecordSound s)
    (ht : exec i s = .next t) : ErrorRecordSound t := by
  obtain ⟨u, hr, hu⟩ := exec_next_record ht
  cases hr with
  | completed =>
    exact errorRecordSound_of_kept h hu.errinfo (hu.derr ▸ id) (hu.fatal ▸ id) (.inl hu.derrcnt)
  | error ptr he => exact errorRecordSound_recordError ..

/-- Settles O59: a command and an illegal word record a code of R201, the host can only clear flags and the
count, and the reset input clears all. -/
theorem stepKeepsErrorRecord : Obligations.StepKeepsErrorRecord := by
  intro s t h hs
  have taken : ∀ rest, ErrorRecordSound (takeEvent rest s) :=
    fun _ => errorRecordSound_of_kept h rfl id id (.inl rfl)
  cases step_next hs with
  | reset rest => exact errorRecordSound_of_kept resetMeetsInvariants.2.2.2 rfl id id (.inl rfl)
  | command rest hx _ => exact errorRecordSound_exec (taken rest) hx
  | illegal rest w => exact errorRecordSound_recordError ..
  | ctrl rest w => exact errorRecordSound_of_kept h (by simp) (by simp) (by simp) (.inl (by simp))
  | status rest w =>
    exact errorRecordSound_of_kept h rfl (Bool.and_elim_left ·) (Bool.and_elim_left ·) (.inl rfl)
  | derrcnt rest => exact errorRecordSound_of_kept h rfl id id (.inr rfl)
  | huff rest b i e => exact errorRecordSound_of_kept h (by simp) (by simp) (by simp) (.inl (by simp))
  | _ => exact errorRecordSound_of_kept h rfl id id (.inl rfl)

/-- Settles O52, by the class of the error recorded. -/
theorem errorsRecordedExactly : Obligations.ErrorsRecordedExactly := by
  intro i s t h
  obtain ⟨u, hr, hinfo, hptr, hcnt, hderr, hfatal⟩ := exec_next_record h
  cases hr with
  | completed => exact .inl ⟨rfl, hinfo, hptr, hcnt, hderr, hfatal⟩
  | @error e ptr he =>
    cases hclass : e.fatal with
    | false =>
      rw [recordError_of_decode hclass]
      exact .inr (.inl ⟨rfl, rfl, code_mem_decodeCodes hclass, congrArg (· + 1#32) hcnt, rfl, hfatal⟩)
    | true =>
      rw [recordError_of_fatal hclass]
      exact .inr (.inr ⟨rfl, rfl, code_mem_fatalCodes hclass, hcnt, hderr, rfl⟩)

/-! ## The errors of each command (R201) -/

/-- Settles O53: the codes of the errors each command can raise are those of its row in R201; ILLEGAL is no
error of a well-formed RDBITS. -/
theorem errorCodesPerCommand : Obligations.ErrorCodesPerCommand := by
  intro i s t hwf h hlast
  obtain ⟨u, hr, -⟩ := exec_next_record h
  cases hr with
  | completed => cases hlast
  | @error e ptr he =>
    have hcode : e.code ∈ (commandErrors i).map ErrCode.code := List.mem_map_of_mem he
    clear h he hlast
    rw [recordError_errinfo]
    generalize e.code = code at hcode ⊢
    revert code
    cases i with
    | rdbits n =>
      simp only [commandErrors, atomicErrors, if_pos hwf]
      decide
    | _ =>
      simp only [commandErrors, atomicErrors]
      decide

/-! ## What an error leaves (R206, 44_mag_integrator.md R190) -/

/-- `s` with the error record and the error flags of `t`, and LASTOK 0. -/
def withErrorRecord (s t : State) : State :=
  { s with
    errinfo := t.errinfo, errptr := t.errptr, derrcnt := t.derrcnt
    status := { s.status with derr := t.status.derr, fatal := t.status.fatal, lastOk := false } }

theorem recordError_eq_withErrorRecord (op : Byte) (e : ErrCode) (ptr : Word) (s : State) :
    recordError op e ptr s = withErrorRecord s (recordError op e ptr s) := rfl

theorem not_lastOk_complete {s : State} : ¬ (complete s).status.lastOk = false := nofun

/-- A command whose errors leave none of its effects has left its record only. -/
theorem atomic_error_effects {i : Instr} {s t : State} (hp : i ≠ .pdStep) (hm : i ≠ .magPkt)
    (h : exec i s = .next t) (hlast : t.status.lastOk = false) : t = withErrorRecord s t := by
  rcases exec_atomic_next hp hm h with ⟨u, -, rfl⟩ | ⟨e, ptr, -, rfl⟩
  · exact absurd hlast not_lastOk_complete
  · rfl

theorem fatal_of_mem_pdFatalErrors {e : ErrCode} (h : e ∈ pdFatalErrors) : e.fatal = true := by
  revert e; decide

theorem decode_of_mem_pdDecodeErrors {e : ErrCode} (h : e ∈ pdDecodeErrors) : e.fatal = false := by
  revert e; decide

/-- A decode error of PD_STEP is counted, and abandons the chain. -/
theorem abandoned_error_effects {e : ErrCode} (he : e.fatal = false) (op : Byte) (ptr : Word)
    (hdr : Bool) (s : State) {t : State}
    (ht : t = recordError op e ptr (seek (setPdFlags false hdr s))) :
    t.derrcnt = s.derrcnt + 1#32 ∧ ∃ hdr, t = chainAbandoned hdr (withErrorRecord s t) := by
  subst ht
  exact ⟨by simp [he], hdr, rfl⟩

theorem pdStep_error_effects {s t : State} (h : PdStepEnd s (.next t))
    (hlast : t.status.lastOk = false) :
    t = withErrorRecord s t ∧ t.status.fatal = true
      ∨ t.derrcnt = s.derrcnt + 1#32 ∧ ∃ hdr, t = chainAbandoned hdr (withErrorRecord s t) := by
  cases h with
  | fatal he => exact .inl ⟨rfl, by simp [fatal_of_mem_pdFatalErrors he]⟩
  | badHeader he =>
    exact .inr (abandoned_error_effects (by rcases he with rfl | rfl <;> rfl) _ _ true s rfl)
  | badContinuation he =>
    exact .inr (abandoned_error_effects (decode_of_mem_pdDecodeErrors he) _ _ false s rfl)
  | header | continuation | skip => exact absurd hlast not_lastOk_complete

/-- An error of MAG_PKT's preconditions leaves its record only; one of the loop leaves TERM 0, and what the
loop does not write. -/
theorem magPkt_error_effects {s t : State} (h : MagPktEnd s (.next t))
    (hlast : t.status.lastOk = false) :
    (¬ MagReady s → t = withErrorRecord s t) ∧ (MagReady s → t.status.term = false)
      ∧ t.bitptr = s.bitptr ∧ t.res = s.res ∧ t.res2 = s.res2 ∧ t.acc = s.acc ∧ t.buf = s.buf
      ∧ t.pdstate = s.pdstate := by
  cases h with
  | fatal hnot => exact ⟨fun _ => rfl, fun hm => absurd hm hnot, rfl, rfl, rfl, rfl, rfl, rfl⟩
  | done => exact absurd hlast not_lastOk_complete
  | failed hm | full hm =>
    exact ⟨fun hnot => absurd hm hnot, fun _ => rfl, rfl, rfl, rfl, rfl, rfl, rfl⟩

/-- Settles O54. -/
theorem errorEffects : Obligations.ErrorEffects := by
  intro i s t h hlast
  refine ⟨fun hp hm => atomic_error_effects hp hm h hlast, ?_, ?_⟩
  · rintro rfl; exact pdStep_error_effects (execPdStep_next h) hlast
  · rintro rfl; exact magPkt_error_effects (execMagPkt_next h) hlast

/-! ## Every command answers (R200, 70_reset_and_hazards.md R243) -/

/-- Every command ends in `finish`, which completes, records or faults. -/
theorem exec_eq_finish (i : Instr) (s : State) : ∃ r, exec i s = finish i.opcode r := by
  cases i with
  | pdInit | pdGap => exact ⟨.ok _, rfl⟩
  | _ => exact ⟨_, rfl⟩

theorem exec_not_refused (i : Instr) (s : State) (r : Refusal) : exec i s ≠ .refused r := by
  obtain ⟨body, hbody⟩ := exec_eq_finish i s
  rw [hbody]
  exact finish_not_refused i.opcode body r

/-- A fault has met an unwritten byte of BUF, or inside a chain an unwritten slot of the period. -/
theorem unwritten_of_exec_fault {i : Instr} {s : State} {f : Fault} (h : exec i s = .fault f) :
    (∃ a, a < Config.bufBytes ∧ s.buf.read a = none)
      ∨ s.pdstate.inChain = true ∧ ∃ a, a < slotCount s ∧ s.acc.read a = none := by
  by_cases hp : i = .pdStep
  · subst hp
    have hend : PdStepEnd s (.fault f) := h ▸ execPdStep_end s
    cases hend with
    | faultBuf ha hr => exact .inl ⟨_, ha, hr⟩
    | faultAcc _ hi ha hr => exact .inr ⟨hi, _, ha, hr⟩
  · obtain ⟨a, ⟨-, hr, ha⟩ | ⟨-, -, -, hi⟩⟩ := commandFaults i s f h
    · exact .inl ⟨a, ha, hr⟩
    · exact absurd hi hp

theorem exec_not_fault {i : Instr} {s : State} (hb : BufFilled s) (hc : ChainSound s) (f : Fault) :
    exec i s ≠ .fault f := by
  intro h
  rcases unwritten_of_exec_fault h with ⟨a, ha, hr⟩ | ⟨hi, a, ha, hr⟩
  · simpa [hr] using hb a ha
  · obtain ⟨-, -, -, hacc⟩ := hc.2 hi
    simpa [hr] using hacc a ha

/-- Settles O55: of the three outcomes only the next state is left. -/
theorem commandsAnswer : Obligations.CommandsAnswer := by
  refine ⟨fun i s hb hc => ?_, exec_not_refused⟩
  cases h : exec i s with
  | next t => exact ⟨t, rfl⟩
  | fault f => exact absurd h (exec_not_fault hb hc f)
  | refused r => exact absurd h (exec_not_refused i s r)

/-! ## The gate of FATAL (R205, R208) -/

theorem issue_of_fatal {s : State} (h : s.status.fatal = true) (w : Word) : issue w s = .next s :=
  if_pos h

/-- Settles O7: the gate is that of `issue`; the write of STATUS opens it and does nothing else
(`statusWriteClears`), and the next step runs the command. -/
theorem fatalGate : Obligations.FatalGate := by
  refine fun s w rest hf => ⟨fun hq => ?_, fun v i hbit1 hbit0 hd hq => ?_⟩
  · exact (step_cmd hq).trans (issue_of_fatal (s := takeEvent rest s) hf w)
  · have hclear := statusWriteClears s v _ hq
    rw [hbit1, hbit0] at hclear
    exact ⟨_, hclear, EncodingProofs.stepRunsDecodedCommand _ w i rest rfl rfl hd⟩

end Sys2Proof.ExceptionProofs
end

section
/-! PROOFS. Reset and hazards (70_reset_and_hazards.md): the step without a host access, and how many rows a
packet can emit. The row bound is arithmetic on the end of MAG_PKT (`execMagPkt_end`): every row but the first
was paid for with three deltas of at least 12 bits (`RunInv.bits`). -/

namespace Sys2Proof.ResetProofs

open Sys2Proof.Machine Sys2Proof.Safety

/-- Settles O6: an empty queue is the first branch of `step`. -/
theorem idleStepChangesNothing : Obligations.IdleStepChangesNothing := by
  intro s hq
  rw [step, hq]

/-! ## The rows of a packet (R242) -/

/-- The deltas read from BITPTR on bound the rows after the header row. -/
theorem rowcnt_le_of_runInv {s : State} {r : MagRun} (hi : RunInv s r) :
    r.rowcnt.toNat ≤ 1 + (s.bitend.toNat - s.bitptr.toNat) / 36 := by
  have hbits := hi.bits
  have hstream := hi.stream
  omega

/-- A host that left room for every row the stream can hold left room for the row of a triple just read:
with it, 36 bits were read for each row already written. -/
theorem room_of_triple_read {s : State} {r : MagRun} (hi : RunInv s r)
    (hread : s.bitptr.toNat + 36 * r.rowcnt.toNat ≤ s.bitend.toNat)
    (hroom : s.owptr.toNat + 3 * (1 + (s.bitend.toNat - s.bitptr.toNat) / 36) ≤ Config.oramWords) :
    r.owptr.toNat + 3 ≤ Config.oramWords := by
  have howptr := hi.owptr
  have hrows : r.rowcnt.toNat ≤ (s.bitend.toNat - s.bitptr.toNat) / 36 := by omega
  omega

theorem code_ne_oramFull_of_mem_magLoopErrors {e : ErrCode} (h : e ∈ magLoopErrors) :
    e.code ≠ ErrCode.oramFull.code := by
  revert e; decide

/-- Settles O49: every end of MAG_PKT keeps `RunInv`, which bounds the rows; the one end that raises ORAM_FULL
has read the triple it has no room for. -/
theorem magRowBound : Obligations.MagRowBound := by
  intro s t hm h
  have hend := execMagPkt_next h
  clear h
  cases hend with
  | fatal hnot _ => exact absurd hm hnot
  | done _ hi => exact ⟨rowcnt_le_of_runInv hi, fun _ => .inl rfl⟩
  | failed _ hi he =>
    exact ⟨rowcnt_le_of_runInv hi, fun _ => .inr (code_ne_oramFull_of_mem_magLoopErrors he)⟩
  | full _ hi hfull hread =>
    exact ⟨rowcnt_le_of_runInv hi, fun hroom =>
      absurd (room_of_triple_read hi hread hroom) (not_le.mpr hfull)⟩

end Sys2Proof.ResetProofs
end
